-- ==== Sys2Proof/Word.lean ====
section
/-! DEFINITION. The word types of the block: bytes, 64-bit registers, 32-bit command words, host addresses. -/

namespace Sys2Proof

/-- An octet (00_scope.md R13). -/
abbrev Byte := BitVec 8

/-- A 64-bit register or register slot (10_state.md R31). -/
abbrev Word := BitVec 64

/-- A command word, the 32 bits a host write to CMD executes (30_encoding.md R53). -/
abbrev CmdWord := BitVec 32

/-- A host byte address, 17 bits, an offset from the platform's base (00_scope.md R5; 60_exceptions.md R142; log 7). -/
abbrev HostAddr := BitVec 17

end Sys2Proof
end

