-- ==== Sys2Proof/Config.lean ====
section
/-! DEFINITION. What an implementation of the block fixes (00_scope.md R5) and the free values of the bytes the spec leaves
unspecified (93_implementation_defined.md I1). -/

namespace Sys2Proof.Config

/-- The least legal IBUF_BYTES (R5). -/
def ibufBytesMin : Nat := 8

/-- The greatest legal IBUF_BYTES (R5). -/
def ibufBytesMax : Nat := 65536

/-- The spec's default IBUF_BYTES (R5, D5). -/
def ibufBytesDefault : Nat := 4096

/-- OBUF_BYTES (R5, D6). -/
def obufBytes : Nat := 256

/-- How a never-written IBUF byte is treated: the two treatments of 93_implementation_defined.md I1. -/
inductive Unwritten where
  /-- The read ends the run with a fault and no end state. -/
  | fault
  /-- The byte is drawn once, under no law, and stays that value until written. -/
  | anyValue
  deriving DecidableEq, Repr

/-- The model's OPEN arguments (R5, I1, I3). They are no state of the block (10_state.md R30): State carries them because a
step takes nothing else, and no step changes them (log 2). -/
structure Params where
  /-- IBUF_BYTES. -/
  ibufBytes : Nat
  /-- The treatment of an IBUF byte never written since reset. -/
  unwritten : Unwritten
  deriving DecidableEq, Repr

/-- The legal range of IBUF_BYTES (R5). -/
abbrev Params.legal (p : Params) : Prop :=
  ibufBytesMin ≤ p.ibufBytes ∧ p.ibufBytes ≤ ibufBytesMax

/-- FREE VALUE (I1; log 1): the byte of IBUF at an address that nothing has written since reset, by the number of the draw.
It has no body, so nothing is known of it; one draw gives one byte at one address, so two reads agree. -/
opaque freeIbufByte : Nat → Nat → Byte

/-- FREE VALUE (I1; log 1): the byte of OBUF at an address that no command has written since reset, by the number of the
draw. -/
opaque freeObufByte : Nat → Nat → Byte

end Sys2Proof.Config
end

