-- ==== Sys2Proof/Syntax.lean ====
section
/-! DEFINITION. The syntax of the command set BGX-1: one constructor per row of spec/opcode_table.json (30_encoding.md R63).
Bit indexes, octet indexes, range ends, counts and sizes are numbers (R54 "used as the number it spells"; WellFormed says they
fit their 8-bit fields; log 13); octet values and table indexes are bytes. -/

namespace Sys2Proof

/-- A group register number, 0 to 3 (10_state.md R15; 30_encoding.md R60). -/
inductive GroupReg where
  | g0 | g1 | g2 | g3
  deriving DecidableEq, Repr

/-- A group width; the width codes 0 to 4 of 30_encoding.md R57 (codes 5-7 are no width; log 14). -/
inductive Width where
  | w8 | w16 | w24 | w32 | w64
  deriving DecidableEq, Repr

/-- An endianness: MostSignificantFirst or LeastSignificantFirst (30_encoding.md R58). -/
inductive Endian where
  | msf | lsf
  deriving DecidableEq, Repr

/-- The source select of LOAD (field B; 40_bitgroup.md R77). -/
inductive LoadSource where
  | arg0 | res
  deriving DecidableEq, Repr

/-- A seek origin (30_encoding.md R59). -/
inductive SeekOrigin where
  | set | cur | fromEnd
  deriving DecidableEq, Repr

/-- The commands. `gd` is the field GD, `gs` the field GS (R60). -/
inductive Instr where
  -- 43_control.md
  | nop
  -- 40_bitgroup.md
  | load (gd : GroupReg) (w : Width) (e : Endian) (src : LoadSource)
  | copy (gd gs : GroupReg)
  | extr (gd gs : GroupReg) (first last : Nat)
  | getb (gs : GroupReg) (index : Nat)
  | setb (gd : GroupReg) (index : Nat) (bit : Bool)
  | flip (gd : GroupReg) (index : Nat)
  | getr (gs : GroupReg) (first last : Nat)
  | setr (gd : GroupReg) (first last : Nat)
  | geto (gs : GroupReg) (octet : Nat)
  | seto (gd : GroupReg) (octet : Nat) (byte : Byte)
  | msb (gs : GroupReg)
  | lsb (gs : GroupReg)
  | mso (gs : GroupReg)
  | lso (gs : GroupReg)
  | tobytes (gs : GroupReg)
  | revo (gd : GroupReg)
  | revc (gd gs : GroupReg)
  | twos (gd gs : GroupReg)
  | shl (gd : GroupReg) (count : Nat)
  | shr (gd : GroupReg) (count : Nat)
  | and (gd gs : GroupReg)
  | or (gd gs : GroupReg)
  | not (gd : GroupReg)
  | inc (gd : GroupReg)
  | fmask (gd : GroupReg)
  -- 41_reader.md
  | rdinit (e : Endian)
  | read (n : Nat)
  | rdbytes (size : Nat)
  | seek (origin : SeekOrigin)
  | subrd (n : Nat) (e : Endian)
  -- 42_crc.md
  | c8poly
  | c8calc
  | c8upd (byte : Byte)
  | c8tbl (index : Byte)
  | c16poly
  | c16calc
  | c16upd (byte : Byte)
  | c16tbl (index : Byte)
  deriving DecidableEq, Repr

end Sys2Proof
end

