-- ==== Sys2Proof/Machine/State.lean ====
section
/-! DEFINITION. The state of the machine: the block's registers and buffers (10_state.md), the host's pending actions and the
outputs of the run (70_reset_and_hazards.md R154), the reasons a step stops, and the state after reset (R34). -/

namespace Sys2Proof.Machine

/-- A memory: the bytes written since reset, at strictly rising addresses. An unlisted address holds no value of its own
(20_memory.md R38): what a read of it gives is said by Machine/Ops.lean (log 1). -/
abbrev Memory := List Host.Cell

/-- A group register (R15). -/
structure Group where
  /-- The unsigned value; only bits [W-1:0] can be non-zero (R16). -/
  value : Word
  /-- The width code, as a width. -/
  wcode : Width
  /-- The endianness tag, the spec's field `end`. -/
  endian : Endian
  deriving DecidableEq, Repr

/-- The four group registers (R15). -/
structure Groups where
  g0 : Group
  g1 : Group
  g2 : Group
  g3 : Group
  deriving DecidableEq, Repr

/-- The values of STATUS.CODE (60_exceptions.md R130). -/
inductive Code where
  | success
  | illegalCommand
  | invalidInitialConditions
  | invalidBitCount
  | bitsCountOutOfBounds
  | indexOutOfBounds
  | indexRangeOutOfBounds
  | countOutOfBounds
  | bufferRangeOutOfBounds
  deriving DecidableEq, Repr

/-- What reaches the block from outside, one at a time (20_memory.md R47, R52; log 12). -/
inductive HostAction where
  /-- The host writes `size` bytes at an address; `data` carries them, in its low bits (log 10). -/
  | write (addr : HostAddr) (size : Nat) (data : Word)
  /-- The host reads `size` bytes at an address. -/
  | read (addr : HostAddr) (size : Nat)
  /-- The platform asserts reset (70_reset_and_hazards.md R146); no action of a program (R154; log 6). -/
  | reset
  deriving DecidableEq, Repr

/-- The state of the block and of the run. -/
structure State where
  /-- G0 to G3 (R15). -/
  groups : Groups
  /-- ARG0 (R17). -/
  arg0 : Word
  /-- ARG1 (R17). -/
  arg1 : Word
  /-- RES (R18). -/
  res : Word
  /-- STATUS.CODE (R19). -/
  code : Code
  /-- STATUS.ERRSEEN (R19). -/
  errSeen : Bool
  /-- ERR_A (R20). -/
  errA : Word
  /-- ERR_B (R20). -/
  errB : Word
  /-- ERR_C (R20). -/
  errC : Word
  /-- RD_LEN (R21). -/
  rdLen : BitVec 32
  /-- RD_OFF (R21). -/
  rdOff : BitVec 32
  /-- RD_PAD (R21). -/
  rdPad : BitVec 32
  /-- RD_END (R21). -/
  rdEnd : Endian
  /-- RD_CUR (R21). -/
  rdCur : Word
  /-- CRC8_POLY (R24). -/
  crc8Poly : BitVec 8
  /-- CRC16_POLY (R24). -/
  crc16Poly : BitVec 16
  /-- OLEN (R26). -/
  olen : BitVec 9
  /-- IBUF (20_memory.md R36). -/
  ibuf : Memory
  /-- OBUF (20_memory.md R39). -/
  obuf : Memory
  /-- The model's arguments IBUF_BYTES and I1's treatment; no step changes them (log 1, log 2). -/
  params : Config.Params
  /-- The model's own: which draw of the unspecified bytes holds (log 1). -/
  draws : Nat
  /-- The host's actions not yet performed (R28, R154). -/
  pending : List HostAction
  /-- The values of the reads performed, oldest first: the run's outputs (R154; log 16). -/
  outputs : List Word
  deriving DecidableEq, Repr

/-- Why the machine stops with no end state (70_reset_and_hazards.md R154). -/
inductive Fault where
  /-- A command or a host read reads an IBUF byte the host never wrote since reset, under the treatment `fault`
  (20_memory.md R38; I1). Raised by every read of IBUF. Safe: the spec's own treatment. -/
  | ibufByteNeverWritten (addr : Nat)
  /-- A command reads IBUF at or above IBUF_BYTES. Raised by a command's read of IBUF; no state that meets the reader
  invariant R23 raises it (20_memory.md R37; log 15). Safe. -/
  | ibufAddressOutOfRange (addr : Nat)
  deriving DecidableEq, Repr

/-- Why a step has no meaning. -/
inductive Refusal where
  /-- An instruction that exec gives no meaning yet. No arm of exec raises it. Safe. -/
  | notModelled (mnemonic : String)
  /-- A host access of a size or alignment 20_memory.md R40 does not permit (I2). Raised by the host bus. Safe. -/
  | unsupportedAccess (addr : HostAddr) (size : Nat)
  deriving DecidableEq, Repr

/-- A group register after reset: value 0, width 64, MostSignificantFirst (R34). -/
def Group.reset : Group := { value := 0#64, wcode := .w64, endian := .msf }

/-- The state after reset (R34), nothing in IBUF or OBUF (I1), no program loaded (log 5), the default IBUF_BYTES (R5; log 2)
and the treatment `anyValue` (log 1). -/
def State.reset : State :=
  { groups := { g0 := .reset, g1 := .reset, g2 := .reset, g3 := .reset }
    arg0 := 0#64
    arg1 := 0#64
    res := 0#64
    code := .success
    errSeen := false
    errA := 0#64
    errB := 0#64
    errC := 0#64
    rdLen := 0#32
    rdOff := 0#32
    rdPad := 0#32
    rdEnd := .msf
    rdCur := 0#64
    crc8Poly := 0x07#8
    crc16Poly := 0x1021#16
    olen := 0#9
    ibuf := []
    obuf := []
    params := { ibufBytes := Config.ibufBytesDefault, unwritten := .anyValue }
    draws := 0
    pending := []
    outputs := [] }

end Sys2Proof.Machine
end

