-- ==== Sys2Proof/Machine/Ops.lean ====
section
/-! DEFINITION. The named operations on memory and registers, the success and the error report of a command, and the
platform's reset. -/

namespace Sys2Proof.Machine

/-! ### Memory -/

/-- The byte a memory lists at an address; none where nothing was written since reset. -/
def Memory.read : Memory → Nat → Option Byte
  | [], _ => none
  | (x, v) :: m, a => if a = x then some v else Memory.read m a

/-- Write one byte, keeping the addresses strictly rising. -/
def Memory.write : Memory → Nat → Byte → Memory
  | [], a, b => [(a, b)]
  | (x, v) :: m, a, b =>
    if a < x then (a, b) :: (x, v) :: m
    else if a = x then (a, b) :: m
    else (x, v) :: Memory.write m a b

/-- The addresses of a list of cells rise strictly and lie above a bound. -/
def Memory.risingFrom : Nat → Memory → Bool
  | _, [] => true
  | lo, (x, _) :: m => decide (lo ≤ x) && Memory.risingFrom (x + 1) m

/-- The canonical form: addresses strictly rising. (An unlisted address reads as no value, so no entry equals it.) -/
def Memory.wf (m : Memory) : Bool := Memory.risingFrom 0 m

/-- Every listed address is below a bound. -/
def Memory.below (n : Nat) (m : Memory) : Bool := m.all (fun c => decide (c.1 < n))

/-! ### Group registers (R15) -/

/-- G[r]. -/
def Groups.get (g : Groups) : GroupReg → Group
  | .g0 => g.g0
  | .g1 => g.g1
  | .g2 => g.g2
  | .g3 => g.g3

/-- G[r] <- x. -/
def Groups.set (g : Groups) (r : GroupReg) (x : Group) : Groups :=
  match r with
  | .g0 => { g with g0 := x }
  | .g1 => { g with g1 := x }
  | .g2 => { g with g2 := x }
  | .g3 => { g with g3 := x }

/-- G[r]. -/
def State.group (s : State) (r : GroupReg) : Group := s.groups.get r

/-- G[r] <- x, the value, the width and the tag. -/
def State.setGroup (s : State) (r : GroupReg) (x : Group) : State := { s with groups := s.groups.set r x }

/-- G[r].value <- v, the width and the tag kept. -/
def State.setGroupValue (s : State) (r : GroupReg) (v : Word) : State :=
  s.setGroup r { s.group r with value := v }

/-! ### The other registers -/

/-- RES <- v (R18). -/
def State.setRes (s : State) (v : Word) : State := { s with res := v }

/-- ARG0 <- v, the host's write (R17). -/
def State.setArg0 (s : State) (v : Word) : State := { s with arg0 := v }

/-- ARG1 <- v, the host's write (R17). -/
def State.setArg1 (s : State) (v : Word) : State := { s with arg1 := v }

/-- RD_CUR <- v. -/
def State.setCursor (s : State) (v : Word) : State := { s with rdCur := v }

/-- RDINIT's writes: the reader's configuration, with the cursor at 0 (41_reader.md R106). -/
def State.setReader (s : State) (len off pad : BitVec 32) (e : Endian) : State :=
  { s with rdLen := len, rdOff := off, rdPad := pad, rdEnd := e, rdCur := 0#64 }

/-- CRC8_POLY <- p (R24). -/
def State.setCrc8Poly (s : State) (p : BitVec 8) : State := { s with crc8Poly := p }

/-- CRC16_POLY <- p (R24). -/
def State.setCrc16Poly (s : State) (p : BitVec 16) : State := { s with crc16Poly := p }

/-- OLEN <- n (R26). -/
def State.setOlen (s : State) (n : Nat) : State := { s with olen := BitVec.ofNat 9 n }

/-- The value of a read joins the run's outputs (R154). -/
def State.pushOutput (s : State) (v : Word) : State := { s with outputs := s.outputs ++ [v] }

/-- RD_TOTAL, derived and not stored (R22): an exact integer (R8; log 8). -/
def State.rdTotal (s : State) : Int := 8 * (s.rdLen.toNat : Int) - s.rdOff.toNat - s.rdPad.toNat

/-! ### The buffers -/

/-- IBUF_read(a), the byte the host last wrote at a (20_memory.md R36). A byte never written since reset is a fault or one
free value, by the parameter of I1 (R38); an address at or above IBUF_BYTES is no byte of IBUF (R10, R37). -/
def State.ibufRead (s : State) (a : Nat) : Except Fault Byte :=
  if a < s.params.ibufBytes then
    match s.ibuf.read a with
    | some b => .ok b
    | none =>
      match s.params.unwritten with
      | .fault => .error (.ibufByteNeverWritten a)
      | .anyValue => .ok (Config.freeIbufByte s.draws a)
  else .error (.ibufAddressOutOfRange a)

/-- The host writes IBUF[a] (R36); beyond IBUF_BYTES the write has no effect (R37). -/
def State.ibufWrite (s : State) (a : Nat) (b : Byte) : State :=
  if a < s.params.ibufBytes then { s with ibuf := s.ibuf.write a b } else s

/-- The byte of OBUF at a (R39); one no command has written since reset is a free value (I1). -/
def State.obufByte (s : State) (a : Nat) : Byte :=
  match s.obuf.read a with
  | some b => b
  | none => Config.freeObufByte s.draws a

/-- OBUF_write(a, b) (R10). -/
def State.obufWrite (s : State) (a : Nat) (b : Byte) : State := { s with obuf := s.obuf.write a b }

/-- OBUF_write of a list of bytes at a, a + 1, and so on. -/
def State.obufWriteFrom (s : State) (a : Nat) : List Byte → State
  | [] => s
  | b :: bs => (s.obufWrite a b).obufWriteFrom (a + 1) bs

/-- The end of a byte-producing command: its bytes at OBUF[0 ..] and OLEN their number (R39). -/
def State.putBytes (s : State) (bs : List Byte) : State := (s.obufWriteFrom 0 bs).setOlen bs.length

/-! ### How a command ends

The block has no trap (60_exceptions.md R139): the error report below is the whole of its exception entry, there is no
return from it, and the next command runs as usual. -/

/-- `ok`: STATUS.CODE <- 0; ERRSEEN and ERR_A to ERR_C keep their values (R131). -/
def State.succeed (s : State) : State := { s with code := .success }

/-- `raise Name(a, b, c)` (R132): a negative operand is stored as its 64-bit two's complement pattern. It is applied to the
state before the command, so that every other write of the command is cancelled (R11). -/
def State.raise (s : State) (name : Code) (a b c : Int) : State :=
  { s with
    code := name
    errSeen := true
    errA := BitVec.ofInt 64 a
    errB := BitVec.ofInt 64 b
    errC := BitVec.ofInt 64 c }

/-! ### Reset -/

/-- The platform's reset (70_reset_and_hazards.md R146): every register at its value of R34, IBUF and OBUF unspecified, a new
draw of their bytes (I1; log 6). The host's pending actions and the outputs are not the block's, and the parameters stay. -/
def State.platformReset (s : State) : State :=
  { State.reset with params := s.params, draws := s.draws + 1, pending := s.pending, outputs := s.outputs }

end Sys2Proof.Machine
end

