-- ==== Sys2Proof/Machine/Operands.lean ====
section
/-! DEFINITION. Operand forms: widths and masks (30_encoding.md R57), the octet mapping (40_bitgroup.md R71), the range
algorithm (R74), the wide operands of ARG0 and ARG1 (30_encoding.md R61) and the reader's bit stream (41_reader.md R103, R104).
Group values are 64-bit words here; no step of the spec's exact arithmetic (R8) leaves 64 bits before its mask (log 17). -/

namespace Sys2Proof.Machine

/-! ### Widths (R57) -/

/-- W, the width in bits. -/
def widthBits : Width → Nat
  | .w8 => 8
  | .w16 => 16
  | .w24 => 24
  | .w32 => 32
  | .w64 => 64

/-- N = W/8, the number of octets. -/
def widthOctets : Width → Nat
  | .w8 => 1
  | .w16 => 2
  | .w24 => 3
  | .w32 => 4
  | .w64 => 8

/-- mask(W) = 2^W - 1. -/
def widthMask : Width → Word
  | .w8 => 0xFF#64
  | .w16 => 0xFFFF#64
  | .w24 => 0xFFFFFF#64
  | .w32 => 0xFFFFFFFF#64
  | .w64 => 0xFFFFFFFFFFFFFFFF#64

/-- W(g). -/
def Group.bits (g : Group) : Nat := widthBits g.wcode

/-- N(g). -/
def Group.octets (g : Group) : Nat := widthOctets g.wcode

/-- mask(W(g)). -/
def Group.mask (g : Group) : Word := widthMask g.wcode

/-- The W-bit complement `mask(W) - v`, also written `(~v) & mask(W)` (R8). -/
def complementWithin (m v : Word) : Word := ~~~v &&& m

/-! ### Bits and ranges (R74) -/

/-- mask(k) = 2^k - 1 for k ≤ 64; mask(64) is all ones, never a native shift by 64 (R75). -/
def maskBits (k : Nat) : Word := BitVec.ofNat 64 (2 ^ k - 1)

/-- Bit i of a value, zero-extended (R6). -/
def bitAt (v : Word) (i : Nat) : Word := (v >>> i) &&& 1#64

/-- inv_region(first..last): bits set only inside the range. -/
def invRegion (first last : Nat) : Word := maskBits (last - first + 1) <<< first

/-- region(W, first..last): bits set everywhere in the group except the range. -/
def region (m : Word) (first last : Nat) : Word := complementWithin m (invRegion first last)

/-- get_range(v, first..last): mask and value shifted right together, then ANDed. -/
def getRange (v : Word) (first last : Nat) : Word := (v >>> first) &&& (invRegion first last >>> first)

/-- set_range(v, first..last, x): the input is masked to the range's width before it is shifted. -/
def setRange (m v : Word) (first last : Nat) (x : Word) : Word :=
  (v &&& region m first last) ||| ((x &&& maskBits (last - first + 1)) <<< first)

/-- A legal range of a W-bit group (R73). -/
def rangeLegal (w first last : Nat) : Bool := decide (first ≤ last) && decide (last < w)

/-! ### Octets (R71) -/

/-- pos(g, i): the octet's place counted from the most significant end. -/
def octetPosition (n : Nat) (e : Endian) (i : Nat) : Nat :=
  match e with
  | .msf => i
  | .lsf => n - 1 - i

/-- The right shift W - 8 - shiftAmount(g, i) that brings octet i of the group to bit 0. -/
def Group.octetShift (g : Group) (i : Nat) : Nat := g.bits - 8 - 8 * octetPosition g.octets g.endian i

/-- octet(g, i). -/
def Group.octet (g : Group) (i : Nat) : Byte := (g.value >>> g.octetShift i).setWidth 8

/-- with_octet(g, i, b). -/
def Group.withOctet (g : Group) (i : Nat) (b : Byte) : Word :=
  (g.value &&& complementWithin g.mask (0xFF#64 <<< g.octetShift i)) ||| (b.setWidth 64 <<< g.octetShift i)

/-- One step of REVO: octets i and N-1-i change places (R92). -/
def Group.swapOctets (g : Group) (i : Nat) : Group :=
  let j := g.octets - 1 - i
  let a := g.octet i
  let b := g.octet j
  let g1 : Group := { g with value := g.withOctet i b }
  { g1 with value := g1.withOctet j a }

/-- The swaps of REVO for i = 0 .. k-1. -/
def Group.swapUpTo (g : Group) : Nat → Group
  | 0 => g
  | k + 1 => (g.swapUpTo k).swapOctets k

/-- The group REVO gives: octet i swapped with octet N-1-i for all i up to the midpoint (R92). -/
def Group.reversed (g : Group) : Group := g.swapUpTo (g.octets / 2)

/-- All octets in octet-index order (R91). -/
def Group.octetList (g : Group) : List Byte := (List.range g.octets).map g.octet

/-! ### Wide operands (R61, R9) -/

/-- ARG0[31:0], unsigned. -/
def State.arg0Low (s : State) : BitVec 32 := s.arg0.extractLsb' 0 32

/-- ARG0[63:32], unsigned. -/
def State.arg0High (s : State) : BitVec 32 := s.arg0.extractLsb' 32 32

/-- ARG1[31:0], unsigned. -/
def State.arg1Low (s : State) : BitVec 32 := s.arg1.extractLsb' 0 32

/-- The source of LOAD (R77). -/
def State.loadSource (s : State) : LoadSource → Word
  | .arg0 => s.arg0
  | .res => s.res

/-! ### The reader's bit stream (41_reader.md R103, R104) -/

/-- byte_index(s): from the first octet forward, or from the last octet backward. -/
def byteIndex (len : Nat) (e : Endian) (k : Nat) : Nat :=
  match e with
  | .msf => k / 8
  | .lsf => len - 1 - k / 8

/-- logical_bit(k): inside an octet from bit 7 to bit 0. The byte is read when the command executes (R105). -/
def State.logicalBit (s : State) (k : Nat) : Except Fault Nat :=
  match s.ibufRead (byteIndex s.rdLen.toNat s.rdEnd k) with
  | .error f => .error f
  | .ok b => .ok (b.toNat / 2 ^ (7 - k % 8) % 2)

/-- The n logical bits from bit k on as one number, the first the most significant. -/
def State.logicalBits (s : State) (k : Nat) : Nat → Except Fault Nat
  | 0 => .ok 0
  | n + 1 =>
    match s.logicalBits k n with
    | .error f => .error f
    | .ok x =>
      match s.logicalBit (k + n) with
      | .error f => .error f
      | .ok d => .ok (2 * x + d)

/-- stream_bits(n): the n stream bits from the cursor on (R104). -/
def State.streamBits (s : State) (n : Nat) : Except Fault Nat :=
  s.logicalBits (s.rdOff.toNat + s.rdCur.toNat) n

end Sys2Proof.Machine
end

