-- ==== Sys2Proof/Machine/BitGroup.lean ====
section
/-! DEFINITION. The meanings of the bit-group family (40_bitgroup.md). -/

namespace Sys2Proof.Machine

/-- IndexOutOfBounds(i, 0, n - 1): an index that is not below n (R72). -/
def State.raiseIndex (s : State) (i n : Nat) : State := s.raise .indexOutOfBounds i 0 ((n : Int) - 1)

/-- IndexRangeOutOfBounds(first, last, W - 1) (R73). -/
def State.raiseRange (s : State) (first last w : Nat) : State :=
  s.raise .indexRangeOutOfBounds first last ((w : Int) - 1)

/-- CountOutOfBounds(count, 0, W) (R95, R96). -/
def State.raiseCount (s : State) (count w : Nat) : State := s.raise .countOutOfBounds count 0 w

/-- LOAD (R77). -/
def execLoad (gd : GroupReg) (w : Width) (e : Endian) (src : LoadSource) (s : State) :
    Host.Outcome State Fault Refusal :=
  .next (s.setGroup gd { value := s.loadSource src &&& widthMask w, wcode := w, endian := e }).succeed

/-- COPY (R78). -/
def execCopy (gd gs : GroupReg) (s : State) : Host.Outcome State Fault Refusal :=
  .next (s.setGroup gd (s.group gs)).succeed

/-- EXTR (R79). -/
def execExtr (gd gs : GroupReg) (first last : Nat) (s : State) : Host.Outcome State Fault Refusal :=
  let g := s.group gs
  if rangeLegal g.bits first last then
    .next (s.setGroup gd { g with value := getRange g.value first last }).succeed
  else .next (s.raiseRange first last g.bits)

/-- GETB (R80). -/
def execGetb (gs : GroupReg) (index : Nat) (s : State) : Host.Outcome State Fault Refusal :=
  let g := s.group gs
  if index < g.bits then .next (s.setRes (bitAt g.value index)).succeed
  else .next (s.raiseIndex index g.bits)

/-- SETB (R81). -/
def execSetb (gd : GroupReg) (index : Nat) (bit : Bool) (s : State) : Host.Outcome State Fault Refusal :=
  let g := s.group gd
  if index < g.bits then
    .next (s.setGroupValue gd
      ((g.value &&& complementWithin g.mask (1#64 <<< index)) |||
        ((BitVec.ofBool bit).setWidth 64 <<< index))).succeed
  else .next (s.raiseIndex index g.bits)

/-- FLIP (R82): RES is the bit's new value. -/
def execFlip (gd : GroupReg) (index : Nat) (s : State) : Host.Outcome State Fault Refusal :=
  let g := s.group gd
  if index < g.bits then
    let v := g.value ^^^ (1#64 <<< index)
    .next ((s.setGroupValue gd v).setRes (bitAt v index)).succeed
  else .next (s.raiseIndex index g.bits)

/-- GETR (R85). -/
def execGetr (gs : GroupReg) (first last : Nat) (s : State) : Host.Outcome State Fault Refusal :=
  let g := s.group gs
  if rangeLegal g.bits first last then .next (s.setRes (getRange g.value first last)).succeed
  else .next (s.raiseRange first last g.bits)

/-- SETR (R86): the value is ARG0. -/
def execSetr (gd : GroupReg) (first last : Nat) (s : State) : Host.Outcome State Fault Refusal :=
  let g := s.group gd
  if rangeLegal g.bits first last then
    .next (s.setGroupValue gd (setRange g.mask g.value first last s.arg0)).succeed
  else .next (s.raiseRange first last g.bits)

/-- GETO (R87). -/
def execGeto (gs : GroupReg) (octet : Nat) (s : State) : Host.Outcome State Fault Refusal :=
  let g := s.group gs
  if octet < g.octets then .next (s.setRes ((g.octet octet).setWidth 64)).succeed
  else .next (s.raiseIndex octet g.octets)

/-- SETO (R88). -/
def execSeto (gd : GroupReg) (octet : Nat) (byte : Byte) (s : State) : Host.Outcome State Fault Refusal :=
  let g := s.group gd
  if octet < g.octets then .next (s.setGroupValue gd (g.withOctet octet byte)).succeed
  else .next (s.raiseIndex octet g.octets)

/-- MSB (R83). -/
def execMsb (gs : GroupReg) (s : State) : Host.Outcome State Fault Refusal :=
  let g := s.group gs
  .next (s.setRes (bitAt g.value (g.bits - 1))).succeed

/-- LSB (R84). -/
def execLsb (gs : GroupReg) (s : State) : Host.Outcome State Fault Refusal :=
  .next (s.setRes (bitAt (s.group gs).value 0)).succeed

/-- MSO (R89): octet index 0 of an MSF group, the last octet index of an LSF group. -/
def execMso (gs : GroupReg) (s : State) : Host.Outcome State Fault Refusal :=
  let g := s.group gs
  let i := match g.endian with
    | .msf => 0
    | .lsf => g.octets - 1
  .next (s.setRes ((g.octet i).setWidth 64)).succeed

/-- LSO (R90): the last octet index of an MSF group, octet index 0 of an LSF group. -/
def execLso (gs : GroupReg) (s : State) : Host.Outcome State Fault Refusal :=
  let g := s.group gs
  let i := match g.endian with
    | .msf => g.octets - 1
    | .lsf => 0
  .next (s.setRes ((g.octet i).setWidth 64)).succeed

/-- TOBYTES (R91). -/
def execTobytes (gs : GroupReg) (s : State) : Host.Outcome State Fault Refusal :=
  .next (s.putBytes (s.group gs).octetList).succeed

/-- REVO (R92): the tag and the width stay. -/
def execRevo (gd : GroupReg) (s : State) : Host.Outcome State Fault Refusal :=
  .next (s.setGroupValue gd (s.group gd).reversed.value).succeed

/-- REVC (R93). -/
def execRevc (gd gs : GroupReg) (s : State) : Host.Outcome State Fault Refusal :=
  let g := s.group gs
  .next (s.setGroup gd { g with value := g.reversed.value }).succeed

/-- TWOS (R94): complement plus one, within the width. -/
def execTwos (gd gs : GroupReg) (s : State) : Host.Outcome State Fault Refusal :=
  let g := s.group gs
  .next (s.setGroup gd { g with value := (complementWithin g.mask g.value + 1#64) &&& g.mask }).succeed

/-- SHL (R95). -/
def execShl (gd : GroupReg) (count : Nat) (s : State) : Host.Outcome State Fault Refusal :=
  let g := s.group gd
  if count ≤ g.bits then .next (s.setGroupValue gd ((g.value <<< count) &&& g.mask)).succeed
  else .next (s.raiseCount count g.bits)

/-- SHR (R96): logical, zeros enter at the top. -/
def execShr (gd : GroupReg) (count : Nat) (s : State) : Host.Outcome State Fault Refusal :=
  let g := s.group gd
  if count ≤ g.bits then .next (s.setGroupValue gd (g.value >>> count)).succeed
  else .next (s.raiseCount count g.bits)

/-- AND (R97): Gd keeps its width and tag. -/
def execAnd (gd gs : GroupReg) (s : State) : Host.Outcome State Fault Refusal :=
  let g := s.group gd
  .next (s.setGroupValue gd ((g.value &&& (s.group gs).value) &&& g.mask)).succeed

/-- OR (R98): bits of Gs above Gd's width are dropped. -/
def execOr (gd gs : GroupReg) (s : State) : Host.Outcome State Fault Refusal :=
  let g := s.group gd
  .next (s.setGroupValue gd ((g.value ||| (s.group gs).value) &&& g.mask)).succeed

/-- NOT (R99): the bitwise complement within the width. -/
def execNot (gd : GroupReg) (s : State) : Host.Outcome State Fault Refusal :=
  let g := s.group gd
  .next (s.setGroupValue gd (complementWithin g.mask g.value)).succeed

/-- INC (R100): wraps within the width. -/
def execInc (gd : GroupReg) (s : State) : Host.Outcome State Fault Refusal :=
  let g := s.group gd
  .next (s.setGroupValue gd ((g.value + 1#64) &&& g.mask)).succeed

/-- FMASK (R101). -/
def execFmask (gd : GroupReg) (s : State) : Host.Outcome State Fault Refusal :=
  .next (s.setGroupValue gd (s.group gd).mask).succeed

end Sys2Proof.Machine
end

