-- ==== Sys2Proof/Machine/Control.lean ====
section
/-! DEFINITION. The meaning of NOP (43_control.md). -/

namespace Sys2Proof.Machine

/-- NOP (R126): STATUS.CODE <- 0, nothing else. -/
def execNop (s : State) : Host.Outcome State Fault Refusal := .next s.succeed

end Sys2Proof.Machine
end

