-- ==== Sys2Proof/Machine/Crc.lean ====
section
/-! DEFINITION. The CRC engines (42_crc.md R112 to R116) and the meanings of the CRC family. The tables T8 and T16 are functions
of their polynomial registers and are computed on demand (10_state.md R25; log 9). -/

namespace Sys2Proof.Machine

/-- One round of the table construction (R112): shift left by one, and XOR with the polynomial if a 1 was shifted out. -/
def crcRound (w : Nat) (p c : BitVec w) : BitVec w :=
  if c.msb then (c <<< 1) ^^^ p else c <<< 1

/-- k rounds. -/
def crcRounds (w : Nat) (p : BitVec w) (c : BitVec w) : Nat → BitVec w
  | 0 => c
  | k + 1 => crcRound w p (crcRounds w p c k)

/-- crc_table(P, w)[i]: eight rounds from the leading byte at the top of the register (R112). -/
def crcTableEntry (w : Nat) (p : BitVec w) (i : Byte) : BitVec w :=
  crcRounds w p (i.setWidth w <<< (w - 8)) 8

/-- crc8_step(r, b) = T8[b ^ r] (R113). -/
def crc8Step (p : BitVec 8) (r : BitVec 8) (b : Byte) : BitVec 8 := crcTableEntry 8 p (b ^^^ r)

/-- crc16_step(r, b) = (r << 8) ^ T16[(r >> 8) ^ b] (R114). -/
def crc16Step (p : BitVec 16) (r : BitVec 16) (b : Byte) : BitVec 16 :=
  (r <<< 8) ^^^ crcTableEntry 16 p ((r >>> 8).setWidth 8 ^^^ b)

/-- The fold over len IBUF bytes from address a on (R115), each read when the command executes. -/
def State.crcFold {w : Nat} (s : State) (stepper : BitVec w → Byte → BitVec w) (r : BitVec w) (a : Nat) :
    Nat → Except Fault (BitVec w)
  | 0 => .ok r
  | len + 1 =>
    match s.ibufRead a with
    | .error f => .error f
    | .ok b => s.crcFold stepper (stepper r b) (a + 1) len

/-- The calculate commands over the slice of R116 with start = ARG0[31:0] and len = ARG0[63:32]. -/
def State.crcCalc {w : Nat} (s : State) (stepper : BitVec w → Byte → BitVec w) (init : BitVec w) :
    Host.Outcome State Fault Refusal :=
  let start := s.arg0Low.toNat
  let len := s.arg0High.toNat
  if s.params.ibufBytes < start + len then
    .next (s.raise .bufferRangeOutOfBounds start len s.params.ibufBytes)
  else
    match s.crcFold stepper init start len with
    | .error f => .fault f
    | .ok r => .next (s.setRes (r.setWidth 64)).succeed

/-- C8POLY (R117). -/
def execC8poly (s : State) : Host.Outcome State Fault Refusal :=
  .next (s.setCrc8Poly (s.arg0.extractLsb' 0 8)).succeed

/-- C8CALC (R118). -/
def execC8calc (s : State) : Host.Outcome State Fault Refusal :=
  s.crcCalc (crc8Step s.crc8Poly) (s.arg1.extractLsb' 0 8)

/-- C8UPD (R119). -/
def execC8upd (byte : Byte) (s : State) : Host.Outcome State Fault Refusal :=
  .next (s.setRes ((crc8Step s.crc8Poly (s.res.extractLsb' 0 8) byte).setWidth 64)).succeed

/-- C8TBL (R120). -/
def execC8tbl (index : Byte) (s : State) : Host.Outcome State Fault Refusal :=
  .next (s.setRes ((crcTableEntry 8 s.crc8Poly index).setWidth 64)).succeed

/-- C16POLY (R121). -/
def execC16poly (s : State) : Host.Outcome State Fault Refusal :=
  .next (s.setCrc16Poly (s.arg0.extractLsb' 0 16)).succeed

/-- C16CALC (R122). -/
def execC16calc (s : State) : Host.Outcome State Fault Refusal :=
  s.crcCalc (crc16Step s.crc16Poly) (s.arg1.extractLsb' 0 16)

/-- C16UPD (R123). -/
def execC16upd (byte : Byte) (s : State) : Host.Outcome State Fault Refusal :=
  .next (s.setRes ((crc16Step s.crc16Poly (s.res.extractLsb' 0 16) byte).setWidth 64)).succeed

/-- C16TBL (R124). -/
def execC16tbl (index : Byte) (s : State) : Host.Outcome State Fault Refusal :=
  .next (s.setRes ((crcTableEntry 16 s.crc16Poly index).setWidth 64)).succeed

end Sys2Proof.Machine
end

