-- ==== Sys2Proof/Machine/Reader.lean ====
section
/-! DEFINITION. The meanings of the bit-stream reader family (41_reader.md). -/

namespace Sys2Proof.Machine

/-- RDINIT (R106): it reads no IBUF byte; on an error the previous configuration and cursor are kept. -/
def execRdinit (e : Endian) (s : State) : Host.Outcome State Fault Refusal :=
  let off := s.arg0Low.toInt
  let pad := s.arg0High.toInt
  let len := s.arg1Low.toNat
  if off < 0 ∨ pad < 0 ∨ s.params.ibufBytes < len ∨ (8 * len : Int) < off + pad then
    .next (s.raise .invalidInitialConditions off pad (8 * len))
  else .next (s.setReader s.arg1Low s.arg0Low s.arg0High e).succeed

/-- The check READ and SUBRD share, in the order of 60_exceptions.md R134: the count, then the bounds. -/
def State.bitCountError (s : State) (n : Nat) : Option State :=
  if n < 1 ∨ 64 < n then some (s.raise .invalidBitCount n 1 64)
  else if s.rdTotal < s.rdCur.toNat + n then some (s.raise .bitsCountOutOfBounds s.rdCur.toNat n s.rdTotal)
  else none

/-- RD_CUR <- RD_CUR + n. -/
def State.advance (s : State) (n : Nat) : State := s.setCursor (s.rdCur + BitVec.ofNat 64 n)

/-- READ (R107). -/
def execRead (n : Nat) (s : State) : Host.Outcome State Fault Refusal :=
  match s.bitCountError n with
  | some t => .next t
  | none =>
    match s.streamBits n with
    | .error f => .fault f
    | .ok x => .next ((s.setRes (BitVec.ofNat 64 x)).advance n).succeed

/-- RDBYTES' loop with k bytes read and the given number left (R108): its error keeps the k bytes, their advance and
OLEN = k. -/
def rdbytesLoop (s : State) (k : Nat) : Nat → Host.Outcome State Fault Refusal
  | 0 => .next (s.setOlen k).succeed
  | left + 1 =>
    if s.rdTotal < s.rdCur.toNat + 8 then
      .next ((s.setOlen k).raise .bitsCountOutOfBounds s.rdCur.toNat 8 s.rdTotal)
    else
      match s.streamBits 8 with
      | .error f => .fault f
      | .ok b => rdbytesLoop ((s.obufWrite k (BitVec.ofNat 8 b)).advance 8) (k + 1) left

/-- RDBYTES (R108). -/
def execRdbytes (size : Nat) (s : State) : Host.Outcome State Fault Refusal := rdbytesLoop s 0 size

/-- The cursor's target of SEEK, an exact integer (R109). -/
def State.seekTarget (s : State) (origin : SeekOrigin) : Int :=
  let base : Int := match origin with
    | .set => 0
    | .cur => s.rdCur.toNat
    | .fromEnd => s.rdTotal
  base + s.arg0.toInt

/-- The number of a seek origin in an error report (R59, R133). -/
def originNumber : SeekOrigin → Int
  | .set => 0
  | .cur => 1
  | .fromEnd => 2

/-- SEEK (R109): it reads no IBUF byte. -/
def execSeek (origin : SeekOrigin) (s : State) : Host.Outcome State Fault Refusal :=
  let t := s.seekTarget origin
  if t < 0 ∨ s.rdTotal < t then
    .next (s.raise .invalidBitCount s.arg0.toInt (originNumber origin) s.rdTotal)
  else .next (s.setCursor (BitVec.ofInt 64 t)).succeed

/-- The m bytes of the number x in an endianness: byte j holds the octet at position j from the top, or m-1-j (R110). -/
def numberBytes (m : Nat) (e : Endian) (x : Nat) : List Byte :=
  (List.range m).map (fun j => BitVec.ofNat 8 (x / 2 ^ (8 * (m - 1 - octetPosition m e j))))

/-- m = ceil(n / 8) (R110). -/
def octetsFor (n : Nat) : Nat := (n + 7) / 8

/-- SUBRD (R110): RES holds the offset 8m - n in [31:0] and the padding 0 in [63:32]. -/
def execSubrd (n : Nat) (e : Endian) (s : State) : Host.Outcome State Fault Refusal :=
  match s.bitCountError n with
  | some t => .next t
  | none =>
    match s.streamBits n with
    | .error f => .fault f
    | .ok x =>
      let m := octetsFor n
      .next (((s.putBytes (numberBytes m e x)).setRes (BitVec.ofNat 64 (8 * m - n))).advance n).succeed

end Sys2Proof.Machine
end

