-- ==== Sys2Proof/Machine/Dispatch.lean ====
section
/-! DEFINITION. exec: one arm per command, one direct call of its meaning. -/

namespace Sys2Proof.Machine

/-- What a command does to the state (the rules named in 30_encoding.md R63). -/
def exec (i : Instr) (s : State) : Host.Outcome State Fault Refusal :=
  match i with
  | .nop => Sys2Proof.Machine.execNop s
  | .load gd w e src => Sys2Proof.Machine.execLoad gd w e src s
  | .copy gd gs => Sys2Proof.Machine.execCopy gd gs s
  | .extr gd gs first last => Sys2Proof.Machine.execExtr gd gs first last s
  | .getb gs index => Sys2Proof.Machine.execGetb gs index s
  | .setb gd index bit => Sys2Proof.Machine.execSetb gd index bit s
  | .flip gd index => Sys2Proof.Machine.execFlip gd index s
  | .getr gs first last => Sys2Proof.Machine.execGetr gs first last s
  | .setr gd first last => Sys2Proof.Machine.execSetr gd first last s
  | .geto gs octet => Sys2Proof.Machine.execGeto gs octet s
  | .seto gd octet byte => Sys2Proof.Machine.execSeto gd octet byte s
  | .msb gs => Sys2Proof.Machine.execMsb gs s
  | .lsb gs => Sys2Proof.Machine.execLsb gs s
  | .mso gs => Sys2Proof.Machine.execMso gs s
  | .lso gs => Sys2Proof.Machine.execLso gs s
  | .tobytes gs => Sys2Proof.Machine.execTobytes gs s
  | .revo gd => Sys2Proof.Machine.execRevo gd s
  | .revc gd gs => Sys2Proof.Machine.execRevc gd gs s
  | .twos gd gs => Sys2Proof.Machine.execTwos gd gs s
  | .shl gd count => Sys2Proof.Machine.execShl gd count s
  | .shr gd count => Sys2Proof.Machine.execShr gd count s
  | .and gd gs => Sys2Proof.Machine.execAnd gd gs s
  | .or gd gs => Sys2Proof.Machine.execOr gd gs s
  | .not gd => Sys2Proof.Machine.execNot gd s
  | .inc gd => Sys2Proof.Machine.execInc gd s
  | .fmask gd => Sys2Proof.Machine.execFmask gd s
  | .rdinit e => Sys2Proof.Machine.execRdinit e s
  | .read n => Sys2Proof.Machine.execRead n s
  | .rdbytes size => Sys2Proof.Machine.execRdbytes size s
  | .seek origin => Sys2Proof.Machine.execSeek origin s
  | .subrd n e => Sys2Proof.Machine.execSubrd n e s
  | .c8poly => Sys2Proof.Machine.execC8poly s
  | .c8calc => Sys2Proof.Machine.execC8calc s
  | .c8upd byte => Sys2Proof.Machine.execC8upd byte s
  | .c8tbl index => Sys2Proof.Machine.execC8tbl index s
  | .c16poly => Sys2Proof.Machine.execC16poly s
  | .c16calc => Sys2Proof.Machine.execC16calc s
  | .c16upd byte => Sys2Proof.Machine.execC16upd byte s
  | .c16tbl index => Sys2Proof.Machine.execC16tbl index s

end Sys2Proof.Machine
end

