-- ==== Sys2Proof/WellFormed.lean ====
section
/-! DEFINITION. Which terms of Instr spell a command word: 30_encoding.md R68 "A field value that does not fit its field (an
index above 255, for example) is an assembly error, not a command". -/

namespace Sys2Proof

/-- A number that the 8-bit fields A and B can spell (30_encoding.md R53, R54). -/
def fitsField (n : Nat) : Bool := decide (n < 256)

/-- Every small operand fits its field (R68). -/
def Instr.wellFormed : Instr → Bool
  | .nop => true
  | .load _ _ _ _ => true
  | .copy _ _ => true
  | .extr _ _ first last => fitsField first && fitsField last
  | .getb _ index => fitsField index
  | .setb _ index _ => fitsField index
  | .flip _ index => fitsField index
  | .getr _ first last => fitsField first && fitsField last
  | .setr _ first last => fitsField first && fitsField last
  | .geto _ octet => fitsField octet
  | .seto _ octet _ => fitsField octet
  | .msb _ => true
  | .lsb _ => true
  | .mso _ => true
  | .lso _ => true
  | .tobytes _ => true
  | .revo _ => true
  | .revc _ _ => true
  | .twos _ _ => true
  | .shl _ count => fitsField count
  | .shr _ count => fitsField count
  | .and _ _ => true
  | .or _ _ => true
  | .not _ => true
  | .inc _ => true
  | .fmask _ => true
  | .rdinit _ => true
  | .read n => fitsField n
  | .rdbytes size => fitsField size
  | .seek _ => true
  | .subrd n _ => fitsField n
  | .c8poly => true
  | .c8calc => true
  | .c8upd _ => true
  | .c8tbl _ => true
  | .c16poly => true
  | .c16calc => true
  | .c16upd _ => true
  | .c16tbl _ => true

end Sys2Proof
end

