-- ==== Sys2Proof/Decode.lean ====
section
/-! DEFINITION. The decoder of command words, total on all 32-bit words (30_encoding.md R67), the codes inside fields
(R57 to R60), and the encoder. -/

namespace Sys2Proof

/-! ### Codes inside fields -/

/-- The group register a 2-bit field names (R60). -/
def groupOfBits (b : BitVec 2) : GroupReg :=
  match b with
  | 0b00#2 => .g0
  | 0b01#2 => .g1
  | 0b10#2 => .g2
  | 0b11#2 => .g3

/-- The 2-bit field that names a group register. -/
def groupBits : GroupReg → BitVec 2
  | .g0 => 0b00#2
  | .g1 => 0b01#2
  | .g2 => 0b10#2
  | .g3 => 0b11#2

/-- Width codes (R57): 5, 6 and 7 are reserved (R56). -/
def widthOfCode (b : BitVec 3) : Option Width :=
  match b with
  | 0#3 => some .w8
  | 1#3 => some .w16
  | 2#3 => some .w24
  | 3#3 => some .w32
  | 4#3 => some .w64
  | _ => none

/-- The code of a width (R57). -/
def widthCode : Width → BitVec 3
  | .w8 => 0#3
  | .w16 => 1#3
  | .w24 => 2#3
  | .w32 => 3#3
  | .w64 => 4#3

/-- Endianness code (R58). -/
def endianOfBit (b : BitVec 1) : Endian :=
  match b with
  | 0#1 => .msf
  | 1#1 => .lsf

/-- The bit that spells an endianness (R58). -/
def endianBit : Endian → BitVec 1
  | .msf => 0#1
  | .lsf => 1#1

/-- LOAD's source select in field B: 2 to 255 are reserved (R56). -/
def loadSourceOfField (b : BitVec 8) : Option LoadSource :=
  match b with
  | 0#8 => some .arg0
  | 1#8 => some .res
  | _ => none

/-- The field B of a LOAD source. -/
def loadSourceField : LoadSource → BitVec 8
  | .arg0 => 0#8
  | .res => 1#8

/-- SETB's bit in field B: 2 to 255 are reserved (R56). -/
def bitOfField (b : BitVec 8) : Option Bool :=
  match b with
  | 0#8 => some false
  | 1#8 => some true
  | _ => none

/-- The field B of SETB's bit. -/
def bitField (b : Bool) : BitVec 8 := if b then 1#8 else 0#8

/-- Seek origins (R59): 3 to 15 are reserved (R56). -/
def originOfField (f : BitVec 4) : Option SeekOrigin :=
  match f with
  | 0#4 => some .set
  | 1#4 => some .cur
  | 2#4 => some .fromEnd
  | _ => none

/-- The code of a seek origin (R59). -/
def originField : SeekOrigin → BitVec 4
  | .set => 0#4
  | .cur => 1#4
  | .fromEnd => 2#4

/-! ### The one format -/

/-- The fields of a command word (R53); a field not named is zero (R55). -/
structure Fields where
  opc : BitVec 8
  a : BitVec 8 := 0#8
  b : BitVec 8 := 0#8
  gd : BitVec 2 := 0#2
  gs : BitVec 2 := 0#2
  f : BitVec 4 := 0#4
  deriving DecidableEq, Repr

/-- Field extraction (R54). -/
def fieldsOf (w : CmdWord) : Fields :=
  { opc := w.extractLsb' 24 8
    a := w.extractLsb' 16 8
    b := w.extractLsb' 8 8
    gd := w.extractLsb' 6 2
    gs := w.extractLsb' 4 2
    f := w.extractLsb' 0 4 }

/-- The word that holds the fields at their places (R53). -/
def packFields (x : Fields) : CmdWord :=
  x.opc ++ x.a ++ x.b ++ x.gd ++ x.gs ++ x.f

/-- The low three bits F[2:0]. -/
def lowF (f : BitVec 4) : BitVec 3 := f.extractLsb' 0 3

/-- The bit F[3]. -/
def highF (f : BitVec 4) : BitVec 1 := f.extractLsb' 3 1

/-- F spelt from F[3] and F[2:0]. -/
def packF (hi : BitVec 1) (lo : BitVec 3) : BitVec 4 := hi ++ lo

/-! ### The decoder -/

/-- Which of the fields A, B, GD, GS, F an opcode uses: the column "fields" of R63. -/
structure UsedFields where
  a : Bool := false
  b : Bool := false
  gd : Bool := false
  gs : Bool := false
  f : Bool := false
  deriving DecidableEq, Repr

/-- The opcode map (R63); no other OPC value is an opcode (R64). -/
def usedFields (opc : BitVec 8) : Option UsedFields :=
  match opc with
  | 0x00#8 => some { }
  | 0x10#8 => some { gd := true, b := true, f := true }
  | 0x11#8 => some { gd := true, gs := true }
  | 0x12#8 => some { gd := true, gs := true, a := true, b := true }
  | 0x13#8 => some { gs := true, a := true }
  | 0x14#8 => some { gd := true, a := true, b := true }
  | 0x15#8 => some { gd := true, a := true }
  | 0x16#8 => some { gs := true, a := true, b := true }
  | 0x17#8 => some { gd := true, a := true, b := true }
  | 0x18#8 => some { gs := true, a := true }
  | 0x19#8 => some { gd := true, a := true, b := true }
  | 0x1A#8 => some { gs := true }
  | 0x1B#8 => some { gs := true }
  | 0x1C#8 => some { gs := true }
  | 0x1D#8 => some { gs := true }
  | 0x1E#8 => some { gs := true }
  | 0x1F#8 => some { gd := true }
  | 0x20#8 => some { gd := true, gs := true }
  | 0x21#8 => some { gd := true, gs := true }
  | 0x22#8 => some { gd := true, a := true }
  | 0x23#8 => some { gd := true, a := true }
  | 0x24#8 => some { gd := true, gs := true }
  | 0x25#8 => some { gd := true, gs := true }
  | 0x26#8 => some { gd := true }
  | 0x27#8 => some { gd := true }
  | 0x28#8 => some { gd := true }
  | 0x40#8 => some { f := true }
  | 0x41#8 => some { a := true }
  | 0x42#8 => some { a := true }
  | 0x43#8 => some { f := true }
  | 0x44#8 => some { a := true, f := true }
  | 0x60#8 => some { }
  | 0x61#8 => some { }
  | 0x62#8 => some { a := true }
  | 0x63#8 => some { a := true }
  | 0x68#8 => some { }
  | 0x69#8 => some { }
  | 0x6A#8 => some { a := true }
  | 0x6B#8 => some { a := true }
  | _ => none

/-- Every field the opcode does not use is zero (R55). -/
def unusedZero (u : UsedFields) (x : Fields) : Bool :=
  (u.a || x.a == 0#8) && (u.b || x.b == 0#8) && (u.gd || x.gd == 0#2) && (u.gs || x.gs == 0#2) && (u.f || x.f == 0#4)

/-- A command whose F[2:0] must be zero and whose F[3] is an endianness: RDINIT and SUBRD (R56). -/
def withEndian (f : BitVec 4) (i : Endian → Instr) : Option Instr :=
  if lowF f = 0#3 then some (i (endianOfBit (highF f))) else none

/-- The command of the fields, none where a used field holds a reserved value (R56) or OPC is reserved (R64). -/
def commandOf (x : Fields) : Option Instr :=
  let gd := groupOfBits x.gd
  let gs := groupOfBits x.gs
  match x.opc with
  | 0x00#8 => some .nop
  | 0x10#8 =>
    match widthOfCode (lowF x.f), loadSourceOfField x.b with
    | some w, some src => some (.load gd w (endianOfBit (highF x.f)) src)
    | _, _ => none
  | 0x11#8 => some (.copy gd gs)
  | 0x12#8 => some (.extr gd gs x.a.toNat x.b.toNat)
  | 0x13#8 => some (.getb gs x.a.toNat)
  | 0x14#8 => (bitOfField x.b).map (fun bit => .setb gd x.a.toNat bit)
  | 0x15#8 => some (.flip gd x.a.toNat)
  | 0x16#8 => some (.getr gs x.a.toNat x.b.toNat)
  | 0x17#8 => some (.setr gd x.a.toNat x.b.toNat)
  | 0x18#8 => some (.geto gs x.a.toNat)
  | 0x19#8 => some (.seto gd x.a.toNat x.b)
  | 0x1A#8 => some (.msb gs)
  | 0x1B#8 => some (.lsb gs)
  | 0x1C#8 => some (.mso gs)
  | 0x1D#8 => some (.lso gs)
  | 0x1E#8 => some (.tobytes gs)
  | 0x1F#8 => some (.revo gd)
  | 0x20#8 => some (.revc gd gs)
  | 0x21#8 => some (.twos gd gs)
  | 0x22#8 => some (.shl gd x.a.toNat)
  | 0x23#8 => some (.shr gd x.a.toNat)
  | 0x24#8 => some (.and gd gs)
  | 0x25#8 => some (.or gd gs)
  | 0x26#8 => some (.not gd)
  | 0x27#8 => some (.inc gd)
  | 0x28#8 => some (.fmask gd)
  | 0x40#8 => withEndian x.f (fun e => .rdinit e)
  | 0x41#8 => some (.read x.a.toNat)
  | 0x42#8 => some (.rdbytes x.a.toNat)
  | 0x43#8 => (originOfField x.f).map (fun o => .seek o)
  | 0x44#8 => withEndian x.f (fun e => .subrd x.a.toNat e)
  | 0x60#8 => some .c8poly
  | 0x61#8 => some .c8calc
  | 0x62#8 => some (.c8upd x.a)
  | 0x63#8 => some (.c8tbl x.a)
  | 0x68#8 => some .c16poly
  | 0x69#8 => some .c16calc
  | 0x6A#8 => some (.c16upd x.a)
  | 0x6B#8 => some (.c16tbl x.a)
  | _ => none

/-- Why a word is no command (R55, R56, R64); each is IllegalCommand. -/
inductive IllegalWord where
  /-- OPC is reserved (R64). -/
  | reservedOpcode
  /-- A field the opcode does not use is not zero (R55). -/
  | unusedFieldNotZero
  /-- A used field holds a reserved value (R56). -/
  | reservedFieldValue
  deriving DecidableEq, Repr

/-- The outcome of decoding: a command or IllegalCommand (R67). -/
inductive Decoded where
  | command (i : Instr)
  | illegal (why : IllegalWord)
  deriving DecidableEq, Repr

/-- The decoder, checking in the order of R66: OPC, unused fields, restricted values. -/
def decode (w : CmdWord) : Decoded :=
  let x := fieldsOf w
  match usedFields x.opc with
  | none => .illegal .reservedOpcode
  | some u =>
    if unusedZero u x then
      match commandOf x with
      | some i => .command i
      | none => .illegal .reservedFieldValue
    else .illegal .unusedFieldNotZero

/-- The instruction the decoder reads from the bits w of an opcode-table row: one 32-bit word, bit 0 the least significant
(R53); the bits at and above nbits are 0. -/
def decodeTableWord (nbits w : Nat) : Option Instr :=
  match decode (BitVec.ofNat 32 (w % 2 ^ nbits)) with
  | .command i => some i
  | .illegal _ => none

/-! ### The encoder -/

/-- The fields of a command, from the opcode map R63 and the assembler's field table R68. -/
def encodeFields : Instr → Fields
  | .nop => { opc := 0x00#8 }
  | .load gd w e src =>
    { opc := 0x10#8, gd := groupBits gd, b := loadSourceField src, f := packF (endianBit e) (widthCode w) }
  | .copy gd gs => { opc := 0x11#8, gd := groupBits gd, gs := groupBits gs }
  | .extr gd gs first last =>
    { opc := 0x12#8, gd := groupBits gd, gs := groupBits gs, a := BitVec.ofNat 8 first, b := BitVec.ofNat 8 last }
  | .getb gs index => { opc := 0x13#8, gs := groupBits gs, a := BitVec.ofNat 8 index }
  | .setb gd index bit => { opc := 0x14#8, gd := groupBits gd, a := BitVec.ofNat 8 index, b := bitField bit }
  | .flip gd index => { opc := 0x15#8, gd := groupBits gd, a := BitVec.ofNat 8 index }
  | .getr gs first last => { opc := 0x16#8, gs := groupBits gs, a := BitVec.ofNat 8 first, b := BitVec.ofNat 8 last }
  | .setr gd first last => { opc := 0x17#8, gd := groupBits gd, a := BitVec.ofNat 8 first, b := BitVec.ofNat 8 last }
  | .geto gs octet => { opc := 0x18#8, gs := groupBits gs, a := BitVec.ofNat 8 octet }
  | .seto gd octet byte => { opc := 0x19#8, gd := groupBits gd, a := BitVec.ofNat 8 octet, b := byte }
  | .msb gs => { opc := 0x1A#8, gs := groupBits gs }
  | .lsb gs => { opc := 0x1B#8, gs := groupBits gs }
  | .mso gs => { opc := 0x1C#8, gs := groupBits gs }
  | .lso gs => { opc := 0x1D#8, gs := groupBits gs }
  | .tobytes gs => { opc := 0x1E#8, gs := groupBits gs }
  | .revo gd => { opc := 0x1F#8, gd := groupBits gd }
  | .revc gd gs => { opc := 0x20#8, gd := groupBits gd, gs := groupBits gs }
  | .twos gd gs => { opc := 0x21#8, gd := groupBits gd, gs := groupBits gs }
  | .shl gd count => { opc := 0x22#8, gd := groupBits gd, a := BitVec.ofNat 8 count }
  | .shr gd count => { opc := 0x23#8, gd := groupBits gd, a := BitVec.ofNat 8 count }
  | .and gd gs => { opc := 0x24#8, gd := groupBits gd, gs := groupBits gs }
  | .or gd gs => { opc := 0x25#8, gd := groupBits gd, gs := groupBits gs }
  | .not gd => { opc := 0x26#8, gd := groupBits gd }
  | .inc gd => { opc := 0x27#8, gd := groupBits gd }
  | .fmask gd => { opc := 0x28#8, gd := groupBits gd }
  | .rdinit e => { opc := 0x40#8, f := packF (endianBit e) 0#3 }
  | .read n => { opc := 0x41#8, a := BitVec.ofNat 8 n }
  | .rdbytes size => { opc := 0x42#8, a := BitVec.ofNat 8 size }
  | .seek origin => { opc := 0x43#8, f := originField origin }
  | .subrd n e => { opc := 0x44#8, a := BitVec.ofNat 8 n, f := packF (endianBit e) 0#3 }
  | .c8poly => { opc := 0x60#8 }
  | .c8calc => { opc := 0x61#8 }
  | .c8upd byte => { opc := 0x62#8, a := byte }
  | .c8tbl index => { opc := 0x63#8, a := index }
  | .c16poly => { opc := 0x68#8 }
  | .c16calc => { opc := 0x69#8 }
  | .c16upd byte => { opc := 0x6A#8, a := byte }
  | .c16tbl index => { opc := 0x6B#8, a := index }

/-- The word of a command (R53, R63, R68). -/
def encode (i : Instr) : CmdWord := packFields (encodeFields i)

end Sys2Proof
end

