-- ==== Sys2Proof/Machine/Flags.lean ====
section
/-! DEFINITION. STATUS, the block's only status register (10_state.md R19). The block has no condition flags (R29). -/

namespace Sys2Proof.Machine

/-- The number of a STATUS.CODE value (60_exceptions.md R130). -/
def codeNumber : Code → BitVec 8
  | .success => 0#8
  | .illegalCommand => 1#8
  | .invalidInitialConditions => 2#8
  | .invalidBitCount => 3#8
  | .bitsCountOutOfBounds => 4#8
  | .indexOutOfBounds => 5#8
  | .indexRangeOutOfBounds => 6#8
  | .countOutOfBounds => 7#8
  | .bufferRangeOutOfBounds => 8#8

/-- STATUS.BUSY always reads 0 (20_memory.md R46). -/
def busyBit : BitVec 1 := 0#1

/-- STATUS as the host reads it: CODE [7:0], ERRSEEN [8], BUSY [9], reserved [63:10] zero (R19). -/
def State.statusWord (s : State) : Word :=
  (busyBit ++ BitVec.ofBool s.errSeen ++ codeNumber s.code : BitVec 10).setWidth 64

end Sys2Proof.Machine
end

