-- ==== Sys2Proof/Machine/HostBus.lean ====
section
/-! DEFINITION. The host's side of the block: the register map (10_state.md R31 to R33), access sizes (20_memory.md R40) and what
a read gives and a write does (R36, R37, R43). -/

namespace Sys2Proof.Machine

/-- The registers of the map (R31). -/
inductive HostReg where
  | cmd | status | arg0 | arg1 | res | errA | errB | errC
  | rdLen | rdOff | rdPad | rdCur | rdTotal | rdCfg
  | crc8Poly | crc16Poly | olen | param
  | gv (r : GroupReg)
  | gcfg
  deriving DecidableEq, Repr

/-- Where a permitted access lands. -/
inductive Target where
  /-- A register, as one 8-byte access. -/
  | register (r : HostReg)
  /-- OBUF[a], as one byte. -/
  | obuf (a : Nat)
  /-- The IBUF window at a, as one byte; a may lie beyond IBUF_BYTES. -/
  | ibuf (a : Nat)
  /-- An address the map does not name (R33). -/
  | reserved
  deriving DecidableEq, Repr

/-- The register whose 64-bit slot starts at an address (R31). -/
def registerAt (slot : Nat) : Option HostReg :=
  match slot with
  | 0x00 => some .cmd
  | 0x08 => some .status
  | 0x10 => some .arg0
  | 0x18 => some .arg1
  | 0x20 => some .res
  | 0x28 => some .errA
  | 0x30 => some .errB
  | 0x38 => some .errC
  | 0x40 => some .rdLen
  | 0x48 => some .rdOff
  | 0x50 => some .rdPad
  | 0x58 => some .rdCur
  | 0x60 => some .rdTotal
  | 0x68 => some .rdCfg
  | 0x70 => some .crc8Poly
  | 0x78 => some .crc16Poly
  | 0x80 => some .olen
  | 0x88 => some .param
  | 0xC0 => some (.gv .g0)
  | 0xC8 => some (.gv .g1)
  | 0xD0 => some (.gv .g2)
  | 0xD8 => some (.gv .g3)
  | 0xE0 => some .gcfg
  | _ => none

/-- The first address of the IBUF window (R31). -/
def ibufWindow : Nat := 0x10000

/-- The first address of the OBUF window (R31). -/
def obufWindow : Nat := 0x00800

/-- Where an access of a size at an address lands, none where R40 does not permit it: registers as one 8-byte access at their
8-aligned address, buffers as single bytes. An access to a reserved address is a byte or an aligned 8-byte access (log 3). -/
def target (addr : HostAddr) (size : Nat) : Option Target :=
  let a := addr.toNat
  if ibufWindow ≤ a then
    if size = 1 then some (.ibuf (a - ibufWindow)) else none
  else if obufWindow ≤ a ∧ a < obufWindow + Config.obufBytes then
    if size = 1 then some (.obuf (a - obufWindow)) else none
  else
    match registerAt (8 * (a / 8)) with
    | some r => if size = 8 ∧ a % 8 = 0 then some (.register r) else none
    | none => if size = 1 ∨ (size = 8 ∧ a % 8 = 0) then some .reserved else none

/-- One group's four bits of GCFG: wcode in [2:0], end in [3] (R32). -/
def Group.cfgNibble (g : Group) : BitVec 4 := endianBit g.endian ++ widthCode g.wcode

/-- GCFG (R32). -/
def State.gcfgWord (s : State) : Word :=
  (s.groups.g3.cfgNibble ++ s.groups.g2.cfgNibble ++ s.groups.g1.cfgNibble ++ s.groups.g0.cfgNibble :
    BitVec 16).setWidth 64

/-- What a host read of a register returns (R31). -/
def State.readRegister (s : State) : HostReg → Word
  | .cmd => 0#64
  | .status => s.statusWord
  | .arg0 => s.arg0
  | .arg1 => s.arg1
  | .res => s.res
  | .errA => s.errA
  | .errB => s.errB
  | .errC => s.errC
  | .rdLen => s.rdLen.setWidth 64
  | .rdOff => s.rdOff.setWidth 64
  | .rdPad => s.rdPad.setWidth 64
  | .rdCur => s.rdCur
  | .rdTotal => BitVec.ofInt 64 s.rdTotal
  | .rdCfg => (endianBit s.rdEnd).setWidth 64
  | .crc8Poly => s.crc8Poly.setWidth 64
  | .crc16Poly => s.crc16Poly.setWidth 64
  | .olen => s.olen.setWidth 64
  | .param => (BitVec.ofNat 17 s.params.ibufBytes).setWidth 64
  | .gv r => (s.group r).value
  | .gcfg => s.gcfgWord

/-- The value of a permitted host read. A reserved address and the IBUF window beyond IBUF_BYTES read 0 (R33, R37); a
never-written IBUF byte is treated as for a command (R154; log 11). -/
def State.hostValue (s : State) : Target → Except Fault Word
  | .register r => .ok (s.readRegister r)
  | .obuf a => .ok ((s.obufByte a).setWidth 64)
  | .ibuf a =>
    if a < s.params.ibufBytes then
      match s.ibufRead a with
      | .error f => .error f
      | .ok b => .ok (b.setWidth 64)
    else .ok 0#64
  | .reserved => .ok 0#64

/-- A host read: the value joins the outputs and nothing else changes (R43). -/
def hostRead (addr : HostAddr) (size : Nat) (s : State) : Host.Outcome State Fault Refusal :=
  match target addr size with
  | none => .refused (.unsupportedAccess addr size)
  | some t =>
    match s.hostValue t with
    | .error f => .fault f
    | .ok v => .next (s.pushOutput v)

/-- A permitted host write to anything but CMD: ARG0, ARG1 and IBUF take the value, everything else is unchanged (R33, R37,
R43). -/
def State.hostStore (s : State) (data : Word) : Target → State
  | .register .arg0 => s.setArg0 data
  | .register .arg1 => s.setArg1 data
  | .register _ => s
  | .obuf _ => s
  | .ibuf a => s.ibufWrite a (data.setWidth 8)
  | .reserved => s

end Sys2Proof.Machine
end

