-- ==== Sys2Proof/Machine/Command.lean ====
section
/-! DEFINITION. Running a command word, and one action of the host or the platform. -/

namespace Sys2Proof.Machine

/-- A command word runs as the command it decodes to; a word that is no command raises IllegalCommand(w, 0, 0) and has no
other effect (30_encoding.md R55, R56, R64, R66). -/
def runCommand (w : CmdWord) (s : State) : Host.Outcome State Fault Refusal :=
  match decode w with
  | .command i => exec i s
  | .illegal _ => .next (s.raise .illegalCommand w.toNat 0 0)

/-- A host write (20_memory.md R43): a write to CMD executes bits [31:0] (10_state.md R31), any other permitted write only
stores. -/
def hostWrite (addr : HostAddr) (size : Nat) (data : Word) (s : State) : Host.Outcome State Fault Refusal :=
  match target addr size with
  | none => .refused (.unsupportedAccess addr size)
  | some (.register .cmd) => runCommand (data.setWidth 32) s
  | some t => .next (s.hostStore data t)

/-- One action: it completes before the next one (R46, R47). -/
def perform (act : HostAction) (s : State) : Host.Outcome State Fault Refusal :=
  match act with
  | .write addr size data => hostWrite addr size data s
  | .read addr size => hostRead addr size s
  | .reset => .next s.platformReset

/-- The host write that executes a command word. -/
def cmdWrite (w : CmdWord) : HostAction := .write 0x00000#17 8 (w.setWidth 64)

/-- The next pending action is performed on the state without it; with none pending nothing happens, as the block never acts
on its own (60_exceptions.md R138, R145; log 4). -/
def performNext (s : State) : Host.Outcome State Fault Refusal :=
  match s.pending with
  | [] => .next s
  | act :: rest => perform act { s with pending := rest }

/-- The host's next action is to be the write of a command word. -/
def State.withNextCommand (s : State) (w : CmdWord) : State := { s with pending := cmdWrite w :: s.pending }

end Sys2Proof.Machine
end

