-- ==== Sys2Proof/Machine/Step.lean ====
section
/-! DEFINITION. The step: one host action (70_reset_and_hazards.md R154). -/

namespace Sys2Proof.Machine

/-- One step performs the next pending action. -/
def step (s : State) : Host.Outcome State Fault Refusal := performNext s

/-- The state whose next step executes the command word w: the host's next action writes it to CMD (log 5). -/
def State.withFetchWord (s : State) (nbits w : Nat) : State :=
  s.withNextCommand (BitVec.ofNat 32 (w % 2 ^ nbits))

end Sys2Proof.Machine
end

