-- ==== Sys2Proof/Safety.lean ====
section
/-! DEFINITION. What counts as a good state and a safe run: the invariants the spec states (10_state.md R16, R23; 00_scope.md
R5), the canonical form of the buffers, and runs of a program (70_reset_and_hazards.md R154). -/

namespace Sys2Proof.Machine

/-- The group value invariant of one group register: value ≤ mask(W) (R16). -/
abbrev Group.fits (g : Group) : Prop := g.value.toNat ≤ 2 ^ g.bits - 1

/-- The group value invariant (R16). -/
abbrev State.GroupInv (s : State) : Prop := ∀ r : GroupReg, (s.group r).fits

/-- The reader invariants (R23). -/
abbrev State.ReaderInv (s : State) : Prop :=
  s.rdOff.toNat + s.rdPad.toNat ≤ 8 * s.rdLen.toNat ∧
  s.rdLen.toNat ≤ s.params.ibufBytes ∧
  (s.rdCur.toNat : Int) ≤ s.rdTotal

/-- The buffers are in canonical form and inside their spaces (20_memory.md R35). -/
abbrev State.BufferInv (s : State) : Prop :=
  Memory.wf s.ibuf = true ∧ Memory.below s.params.ibufBytes s.ibuf = true ∧
  Memory.wf s.obuf = true ∧ Memory.below Config.obufBytes s.obuf = true

/-- OLEN is 0 to 256 (10_state.md R26). -/
abbrev State.OlenInv (s : State) : Prop := s.olen.toNat ≤ 256

/-- The invariant of the machine. -/
structure State.Inv (s : State) : Prop where
  params : s.params.legal
  groups : s.GroupInv
  reader : s.ReaderInv
  buffers : s.BufferInv
  olen : s.OlenInv

/-- IBUF byte a can be read: it is a byte of IBUF, and it was written since reset or the treatment of I1 is `anyValue`. -/
abbrev State.Readable (s : State) (a : Nat) : Prop :=
  a < s.params.ibufBytes ∧ (s.ibuf.read a ≠ none ∨ s.params.unwritten = .anyValue)

/-- The launch (S0, P) of R154: the block's state and the program. -/
def launch (s : State) (p : List HostAction) : State := { s with pending := p, outputs := [] }

/-- Perform k actions, stopping at the first fault or refusal. -/
def runFor : Nat → State → Host.Outcome State Fault Refusal
  | 0, s => .next s
  | k + 1, s =>
    match step s with
    | .next t => runFor k t
    | .fault f => .fault f
    | .refused r => .refused r

/-- The end of the run of P from S0 (R154): the state after P's last action, with the outputs in it; a faulted run has
none. -/
def endOfRun (s : State) (p : List HostAction) : Host.Outcome State Fault Refusal := runFor p.length (launch s p)

/-- The run did not fault (R154). -/
def safeRun (s : State) (p : List HostAction) : Prop := ∃ t, endOfRun s p = .next t

end Sys2Proof.Machine
end

