-- ==== Sys2Proof/Certificates/Slice0/Obligations.lean ====
section
/-! DEFINITION. The statements. They are written in the spec's own arithmetic, mathematical integers with explicit truncation
(00_scope.md R8), where the model computes on bit vectors. An equation `exec i s = .next { s with … }` says what the command
writes AND that everything else is unchanged, every byte of both buffers among it, and that the command completes. -/

open Sys2Proof Sys2Proof.Machine

namespace Sys2Proof.Spec

/-! ### The spec's words, in numbers -/

/-- The OPC field of a command's word (30_encoding.md R53). -/
def opc (i : Instr) : Nat := (encode i).toNat / 2 ^ 24

/-- The width code (R57). -/
def codeOfWidth : Width → Nat
  | .w8 => 0
  | .w16 => 1
  | .w24 => 2
  | .w32 => 3
  | .w64 => 4

/-- The endianness code (R58). -/
def codeOfEndian : Endian → Nat
  | .msf => 0
  | .lsf => 1

/-- The seek origin code (R59). -/
def codeOfOrigin : SeekOrigin → Nat
  | .set => 0
  | .cur => 1
  | .fromEnd => 2

/-- The number of a group register (R60). -/
def numberOfGroup : GroupReg → Nat
  | .g0 => 0
  | .g1 => 1
  | .g2 => 2
  | .g3 => 3

/-- The value of B for a source of LOAD (R56, R68). -/
def codeOfSource : LoadSource → Nat
  | .arg0 => 0
  | .res => 1

/-- The fields of a command word, as numbers, and a field not named is 0 (R53, R55). -/
structure WordFields where
  opc : Nat
  a : Nat := 0
  b : Nat := 0
  gd : Nat := 0
  gs : Nat := 0
  f : Nat := 0

/-- The number of a word with given fields: OPC [31:24], A [23:16], B [15:8], GD [7:6], GS [5:4], F [3:0] (R53). -/
def WordFields.number (x : WordFields) : Nat :=
  x.opc * 2 ^ 24 + x.a * 2 ^ 16 + x.b * 2 ^ 8 + x.gd * 2 ^ 6 + x.gs * 2 ^ 4 + x.f

/-- Which field spells each operand of a command: the opcodes of R63 with the syntax table of R68. -/
def spelling : Instr → WordFields
  | .nop => { opc := 0x00 }
  | .load gd w e src =>
    { opc := 0x10, gd := numberOfGroup gd, b := codeOfSource src, f := codeOfEndian e * 2 ^ 3 + codeOfWidth w }
  | .copy gd gs => { opc := 0x11, gd := numberOfGroup gd, gs := numberOfGroup gs }
  | .extr gd gs first last => { opc := 0x12, gd := numberOfGroup gd, gs := numberOfGroup gs, a := first, b := last }
  | .getb gs index => { opc := 0x13, gs := numberOfGroup gs, a := index }
  | .setb gd index bit => { opc := 0x14, gd := numberOfGroup gd, a := index, b := bit.toNat }
  | .flip gd index => { opc := 0x15, gd := numberOfGroup gd, a := index }
  | .getr gs first last => { opc := 0x16, gs := numberOfGroup gs, a := first, b := last }
  | .setr gd first last => { opc := 0x17, gd := numberOfGroup gd, a := first, b := last }
  | .geto gs octet => { opc := 0x18, gs := numberOfGroup gs, a := octet }
  | .seto gd octet byte => { opc := 0x19, gd := numberOfGroup gd, a := octet, b := byte.toNat }
  | .msb gs => { opc := 0x1A, gs := numberOfGroup gs }
  | .lsb gs => { opc := 0x1B, gs := numberOfGroup gs }
  | .mso gs => { opc := 0x1C, gs := numberOfGroup gs }
  | .lso gs => { opc := 0x1D, gs := numberOfGroup gs }
  | .tobytes gs => { opc := 0x1E, gs := numberOfGroup gs }
  | .revo gd => { opc := 0x1F, gd := numberOfGroup gd }
  | .revc gd gs => { opc := 0x20, gd := numberOfGroup gd, gs := numberOfGroup gs }
  | .twos gd gs => { opc := 0x21, gd := numberOfGroup gd, gs := numberOfGroup gs }
  | .shl gd count => { opc := 0x22, gd := numberOfGroup gd, a := count }
  | .shr gd count => { opc := 0x23, gd := numberOfGroup gd, a := count }
  | .and gd gs => { opc := 0x24, gd := numberOfGroup gd, gs := numberOfGroup gs }
  | .or gd gs => { opc := 0x25, gd := numberOfGroup gd, gs := numberOfGroup gs }
  | .not gd => { opc := 0x26, gd := numberOfGroup gd }
  | .inc gd => { opc := 0x27, gd := numberOfGroup gd }
  | .fmask gd => { opc := 0x28, gd := numberOfGroup gd }
  | .rdinit e => { opc := 0x40, f := codeOfEndian e * 2 ^ 3 }
  | .read n => { opc := 0x41, a := n }
  | .rdbytes size => { opc := 0x42, a := size }
  | .seek origin => { opc := 0x43, f := codeOfOrigin origin }
  | .subrd n e => { opc := 0x44, a := n, f := codeOfEndian e * 2 ^ 3 }
  | .c8poly => { opc := 0x60 }
  | .c8calc => { opc := 0x61 }
  | .c8upd byte => { opc := 0x62, a := byte.toNat }
  | .c8tbl index => { opc := 0x63, a := index.toNat }
  | .c16poly => { opc := 0x68 }
  | .c16calc => { opc := 0x69 }
  | .c16upd byte => { opc := 0x6A, a := byte.toNat }
  | .c16tbl index => { opc := 0x6B, a := index.toNat }

/-- W by the table of widths (R57). -/
def bitsOf : Width → Nat
  | .w8 => 8
  | .w16 => 16
  | .w24 => 24
  | .w32 => 32
  | .w64 => 64

/-- W(G[r]). -/
def width (s : State) (r : GroupReg) : Nat := bitsOf (s.group r).wcode

/-- N(G[r]) = W/8. -/
def octets (s : State) (r : GroupReg) : Nat := width s r / 8

/-- G[r].value as a number. -/
def value (s : State) (r : GroupReg) : Nat := (s.group r).value.toNat

/-- G[r] holds no bit above its width (10_state.md R16). -/
def Fits (s : State) (r : GroupReg) : Prop := value s r < 2 ^ width s r

/-- The state with G[r].value <- v, nothing else changed. -/
def withValue (s : State) (r : GroupReg) (v : Nat) : State :=
  { s with groups := s.groups.set r { s.group r with value := BitVec.ofNat 64 v } }

/-- The state with STATUS.CODE <- 0, nothing else changed (60_exceptions.md R131). -/
def succeeded (s : State) : State := { s with code := .success }

/-- The error report of `raise Name(a, b, c)` on a state, nothing else changed (R132). -/
def reported (s : State) (name : Code) (a b c : Int) : State :=
  { s with
    code := name, errSeen := true
    errA := BitVec.ofInt 64 (a % 2 ^ 64), errB := BitVec.ofInt 64 (b % 2 ^ 64), errC := BitVec.ofInt 64 (c % 2 ^ 64) }

/-- The right shift W - 8 - shiftAmount(g, i) of octet i (40_bitgroup.md R71). -/
def octetShift (s : State) (r : GroupReg) (i : Nat) : Nat :=
  let n := octets s r
  let pos := match (s.group r).endian with
    | .msf => i
    | .lsf => n - 1 - i
  width s r - 8 - 8 * pos

/-- octet(G[r], i) (R71). -/
def octet (s : State) (r : GroupReg) (i : Nat) : Nat := (value s r >>> octetShift s r i) &&& 0xFF

/-- with_octet(G[r], i, b) (R71). -/
def withOctet (s : State) (r : GroupReg) (i b : Nat) : Nat :=
  (value s r &&& ((2 ^ width s r - 1) - (0xFF <<< octetShift s r i))) ||| (b <<< octetShift s r i)

/-- The n octets of a number in reverse numeric order (R92). -/
def reverseOctets (n v : Nat) : Nat := ∑ i ∈ Finset.range n, (v / 256 ^ (n - 1 - i) % 256) * 256 ^ i

/-- `sext_32` (00_scope.md R9). -/
def sext32 (v : Nat) : Int := if v < 2 ^ 31 then (v : Int) else (v : Int) - 2 ^ 32

/-- `sext_64` (R9). -/
def sext64 (v : Nat) : Int := if v < 2 ^ 63 then (v : Int) else (v : Int) - 2 ^ 64

/-- The fields of ARG0 and ARG1 (30_encoding.md R61). -/
def arg0Low (s : State) : Nat := s.arg0.toNat % 2 ^ 32
/-- ARG0[63:32]. -/
def arg0High (s : State) : Nat := s.arg0.toNat / 2 ^ 32
/-- ARG1[31:0]. -/
def arg1Low (s : State) : Nat := s.arg1.toNat % 2 ^ 32

/-- RD_TOTAL (10_state.md R22). -/
def total (s : State) : Int := 8 * (s.rdLen.toNat : Int) - s.rdOff.toNat - s.rdPad.toNat

/-- RD_CUR as a number. -/
def cur (s : State) : Nat := s.rdCur.toNat

/-- The byte IBUF holds at a: the one last written, else the drawn one (20_memory.md R36, R38). -/
def ibufByte (s : State) (a : Nat) : Nat := ((s.ibuf.read a).getD (Config.freeIbufByte s.draws a)).toNat

/-- byte_index(k) (41_reader.md R103). -/
def byteIndex (s : State) (k : Nat) : Nat :=
  match s.rdEnd with
  | .msf => k >>> 3
  | .lsf => s.rdLen.toNat - 1 - (k >>> 3)

/-- logical_bit(k) (R103). -/
def logicalBit (s : State) (k : Nat) : Nat := (ibufByte s (byteIndex s k) >>> (7 - (k &&& 7))) &&& 1

/-- The n logical bits from bit k on, the first the most significant: the sum of R104. -/
def bitsFrom (s : State) (k n : Nat) : Nat := ∑ i ∈ Finset.range n, logicalBit s (k + i) * 2 ^ (n - 1 - i)

/-- The first logical bit of the next read: RD_OFF + RD_CUR (R104). -/
def nextBit (s : State) : Nat := s.rdOff.toNat + cur s

/-- Every IBUF byte that the n bits from logical bit k on lie in can be read (70_reset_and_hazards.md R148). -/
def BitsReadable (s : State) (k n : Nat) : Prop := ∀ i, i < n → s.Readable (byteIndex s (k + i))

/-- crc_table(P, w)[i] (42_crc.md R112). -/
def crcTable (w p i : Nat) : Nat :=
  (fun c => if (c >>> (w - 1)) &&& 1 = 1 then ((c <<< 1) ^^^ p) &&& (2 ^ w - 1) else (c <<< 1) &&& (2 ^ w - 1))^[8]
    (i <<< (w - 8))

/-- crc8_step (R113). -/
def crc8Step (p r b : Nat) : Nat := crcTable 8 p (b ^^^ r)

/-- crc16_step (R114). -/
def crc16Step (p r b : Nat) : Nat := ((r <<< 8) &&& 0xFFFF) ^^^ crcTable 16 p ((r >>> 8) ^^^ b)

/-- crc_fold over IBUF[start .. start + len - 1] (R115). -/
def crcFold (s : State) (stepper : Nat → Nat → Nat) (init start len : Nat) : Nat :=
  (List.range len).foldl (fun r j => stepper r (ibufByte s (start + j))) init

/-- One row of the opcode map (30_encoding.md R63). -/
structure OpcodeRow where
  matchWord : CmdWord
  mask : CmdWord

/-- The columns `match` and `mask` of the opcode map, NOP to FMASK (R63). -/
def opcodeMapBitGroup : List OpcodeRow :=
  [⟨0x00000000#32, 0xFFFFFFFF#32⟩, ⟨0x10000000#32, 0xFFFFFE30#32⟩, ⟨0x11000000#32, 0xFFFFFF0F#32⟩,
   ⟨0x12000000#32, 0xFF00000F#32⟩, ⟨0x13000000#32, 0xFF00FFCF#32⟩, ⟨0x14000000#32, 0xFF00FE3F#32⟩,
   ⟨0x15000000#32, 0xFF00FF3F#32⟩, ⟨0x16000000#32, 0xFF0000CF#32⟩, ⟨0x17000000#32, 0xFF00003F#32⟩,
   ⟨0x18000000#32, 0xFF00FFCF#32⟩, ⟨0x19000000#32, 0xFF00003F#32⟩, ⟨0x1A000000#32, 0xFFFFFFCF#32⟩,
   ⟨0x1B000000#32, 0xFFFFFFCF#32⟩, ⟨0x1C000000#32, 0xFFFFFFCF#32⟩, ⟨0x1D000000#32, 0xFFFFFFCF#32⟩,
   ⟨0x1E000000#32, 0xFFFFFFCF#32⟩, ⟨0x1F000000#32, 0xFFFFFF3F#32⟩, ⟨0x20000000#32, 0xFFFFFF0F#32⟩,
   ⟨0x21000000#32, 0xFFFFFF0F#32⟩, ⟨0x22000000#32, 0xFF00FF3F#32⟩, ⟨0x23000000#32, 0xFF00FF3F#32⟩,
   ⟨0x24000000#32, 0xFFFFFF0F#32⟩, ⟨0x25000000#32, 0xFFFFFF0F#32⟩, ⟨0x26000000#32, 0xFFFFFF3F#32⟩,
   ⟨0x27000000#32, 0xFFFFFF3F#32⟩, ⟨0x28000000#32, 0xFFFFFF3F#32⟩]

/-- The columns `match` and `mask` of the opcode map, RDINIT to C16TBL (R63). -/
def opcodeMapReaderCrc : List OpcodeRow :=
  [⟨0x40000000#32, 0xFFFFFFF7#32⟩, ⟨0x41000000#32, 0xFF00FFFF#32⟩, ⟨0x42000000#32, 0xFF00FFFF#32⟩,
   ⟨0x43000000#32, 0xFFFFFFFC#32⟩, ⟨0x44000000#32, 0xFF00FFF7#32⟩, ⟨0x60000000#32, 0xFFFFFFFF#32⟩,
   ⟨0x61000000#32, 0xFFFFFFFF#32⟩, ⟨0x62000000#32, 0xFF00FFFF#32⟩, ⟨0x63000000#32, 0xFF00FFFF#32⟩,
   ⟨0x68000000#32, 0xFFFFFFFF#32⟩, ⟨0x69000000#32, 0xFFFFFFFF#32⟩, ⟨0x6A000000#32, 0xFF00FFFF#32⟩,
   ⟨0x6B000000#32, 0xFF00FFFF#32⟩]

/-- The opcode map (R63). -/
def opcodeMap : List OpcodeRow := opcodeMapBitGroup ++ opcodeMapReaderCrc

/-- The used fields hold no reserved value (R56). -/
def RestrictedLegal (w : CmdWord) : Prop :=
  let op := w.toNat / 2 ^ 24
  let b := w.toNat / 2 ^ 8 % 2 ^ 8
  let f := w.toNat % 2 ^ 4
  (op = 0x10 → f % 2 ^ 3 ≤ 4 ∧ b ≤ 1) ∧ (op = 0x14 → b ≤ 1) ∧ (op = 0x40 ∨ op = 0x44 → f % 2 ^ 3 = 0) ∧
    (op = 0x43 → f ≤ 2)

/-- A command word of R63 with legal field values (R65). -/
def IsCommandWord (w : CmdWord) : Prop :=
  (∃ row ∈ opcodeMap, w &&& row.mask = row.matchWord) ∧ RestrictedLegal w

/-- A word whose execution reports IllegalCommand(w, 0, 0) and has no other effect (R56). -/
def IsIllegal (w : CmdWord) : Prop := ∀ s : State, runCommand w s = .next (reported s .illegalCommand w.toNat 0 0)

/-- The OPC field of a word. -/
def wordOpc (w : CmdWord) : Nat := w.toNat / 2 ^ 24

/-- The field B of a word. -/
def wordB (w : CmdWord) : Nat := w.toNat / 2 ^ 8 % 2 ^ 8

/-- The field F of a word. -/
def wordF (w : CmdWord) : Nat := w.toNat % 2 ^ 4

/-- The number in STATUS.CODE (60_exceptions.md R130). -/
def codeValue : Code → Nat
  | .success => 0
  | .illegalCommand => 1
  | .invalidInitialConditions => 2
  | .invalidBitCount => 3
  | .bitsCountOutOfBounds => 4
  | .indexOutOfBounds => 5
  | .indexRangeOutOfBounds => 6
  | .countOutOfBounds => 7
  | .bufferRangeOutOfBounds => 8

/-- STATUS.CODE as the host reads it: STATUS[7:0] (10_state.md R19). -/
def statusCode (s : State) : Nat := (s.readRegister .status).toNat % 2 ^ 8

/-- An access of `size` bytes at `a` touches a byte of [lo, hi). -/
def Touches (a size lo hi : Nat) : Prop := a < hi ∧ lo < a + size

/-- An address the register map does not name (10_state.md R31, R33). -/
def Reserved (a : Nat) : Prop :=
  0x90 ≤ a ∧ a < 0xC0 ∨ 0xE8 ≤ a ∧ a < 0x800 ∨ 0x900 ≤ a ∧ a < 0x10000

/-- The access sizes the model permits at a reserved address: 1 byte, or 8 bytes at an 8-aligned address. R33 gives none; this
is the model's choice (log 3). -/
def ReservedSize (a size : Nat) : Prop := size = 1 ∨ size = 8 ∧ a % 8 = 0

/-- The commands that return a scalar in RES: those whose rule's "Writes" names RES (R18). -/
def ReturnsScalar : Instr → Prop
  | .getb _ _ | .flip _ _ | .getr _ _ _ | .geto _ _ | .msb _ | .lsb _ | .mso _ | .lso _ => True
  | .read _ | .subrd _ _ | .c8calc | .c8upd _ | .c8tbl _ | .c16calc | .c16upd _ | .c16tbl _ => True
  | _ => False

/-- The group register a command writes: those whose rule's "Writes" names G[GD] or G[GD].value. -/
def destination : Instr → Option GroupReg
  | .load gd _ _ _ | .copy gd _ | .extr gd _ _ _ | .setb gd _ _ | .flip gd _ | .setr gd _ _ | .seto gd _ _ => some gd
  | .revo gd | .revc gd _ | .twos gd _ | .shl gd _ | .shr gd _ | .and gd _ | .or gd _ => some gd
  | .not gd | .inc gd | .fmask gd => some gd
  | _ => none

/-- The commands that write a group's width and tag too: those whose rule's "Writes" names G[GD] whole. -/
def WritesWidthAndTag : Instr → Prop
  | .load _ _ _ _ | .copy _ _ | .extr _ _ _ _ | .revc _ _ | .twos _ _ => True
  | _ => False

/-- The reset value of every register, and nothing written in IBUF and OBUF (10_state.md R34). -/
def HasResetValues (t : State) : Prop :=
  (∀ r, value t r = 0 ∧ codeOfWidth (t.group r).wcode = 4 ∧ codeOfEndian (t.group r).endian = 0) ∧
  t.arg0 = 0#64 ∧ t.arg1 = 0#64 ∧ t.res = 0#64 ∧ t.statusWord = 0#64 ∧
  t.errA = 0#64 ∧ t.errB = 0#64 ∧ t.errC = 0#64 ∧
  t.rdLen = 0#32 ∧ t.rdOff = 0#32 ∧ t.rdPad = 0#32 ∧ t.rdCur = 0#64 ∧ t.rdEnd = .msf ∧ total t = 0 ∧
  t.crc8Poly = 0x07#8 ∧ t.crc16Poly = 0x1021#16 ∧ t.olen = 0#9 ∧
  ∀ a, t.ibuf.read a = none ∧ t.obuf.read a = none

end Sys2Proof.Spec

open Sys2Proof.Spec

/-! ### Encoding -/

/-- Command words of 95_test_vectors.md decode to the commands they spell (R53, R63, R68). -/
def Obligations.WordsOfTheTestVectorsDecode : Prop :=
  decode 0x00000000#32 = .command .nop ∧
  decode 0x10000148#32 = .command (.load .g1 .w8 .lsf .res) ∧
  decode 0x12040B80#32 = .command (.extr .g2 .g0 4 11) ∧
  decode 0x14030100#32 = .command (.setb .g0 3 true) ∧
  decode 0x1900AA40#32 = .command (.seto .g1 0 0xAA#8) ∧
  decode 0x200000E0#32 = .command (.revc .g3 .g2) ∧
  decode 0x40000008#32 = .command (.rdinit .lsf) ∧
  decode 0x43000002#32 = .command (.seek .fromEnd) ∧
  decode 0x440A0008#32 = .command (.subrd 10 .lsf) ∧
  decode 0x62310000#32 = .command (.c8upd 0x31#8) ∧
  decode 0x6BFF0000#32 = .command (.c16tbl 0xFF#8)

/-- For every well-formed command: its word is the one its fields spell, each operand in the field R68 gives it, with the codes
of R57 to R60 and the number an index spells (R54); and decoding the word gives the command back (R53, R63). -/
def Obligations.DecodeOfEncodeIsTheCommand : Prop :=
  ∀ i : Instr, i.wellFormed = true → (encode i).toNat = (spelling i).number ∧ decode (encode i) = .command i

/-- A word that decodes to a command is that command's encoding, and the command is well formed: one word, one command. -/
def Obligations.EncodeOfDecodeIsTheWord : Prop :=
  ∀ (w : CmdWord) (i : Instr), decode w = .command i → encode i = w ∧ i.wellFormed = true

/-- A word decodes to a command exactly when a row of the opcode map matches it and its restricted values are legal (R63,
R65). -/
def Obligations.DecoderAcceptsExactlyTheOpcodeMap : Prop :=
  ∀ w : CmdWord, (∃ i, decode w = .command i) ↔ IsCommandWord w

/-- No two rows of the opcode map match one word, and every word decodes to exactly one outcome (R67). -/
def Obligations.OpcodeRowsNeverOverlap : Prop :=
  List.Pairwise (fun p q : OpcodeRow => ∀ w : CmdWord, ¬ (w &&& p.mask = p.matchWord ∧ w &&& q.mask = q.matchWord))
    opcodeMap ∧
  ∀ w : CmdWord, (∃ i, decode w = .command i ∧ IsCommandWord w) ∨ (∃ why, decode w = .illegal why ∧ ¬ IsCommandWord w)

/-- A word outside the opcode map, with a non-zero unused field, or with a reserved field value, raises IllegalCommand(w, 0, 0)
and has no other effect, as a command word and as the low 32 bits of a host write to CMD (R55, R56, R64; R31). -/
def Obligations.OtherWordsRaiseIllegalCommand : Prop :=
  (∀ (w : CmdWord) (s : State), ¬ IsCommandWord w → runCommand w s = .next (reported s .illegalCommand w.toNat 0 0)) ∧
  (∀ (s : State) (data : Word) (rest : List HostAction), ¬ IsCommandWord (BitVec.ofNat 32 data.toNat) →
    s.pending = .write 0x00000#17 8 data :: rest →
      step s = .next (reported { s with pending := rest } .illegalCommand (data.toNat % 2 ^ 32 : Nat) 0 0))

/-! ### Steps and the host's side -/

/-- A step whose next action is a write to CMD runs the command the low 32 bits decode to, on the state without that action;
bits [63:32] of the value are ignored (R28, R31, R46). The second part is the model's own withFetchWord (log 5). -/
def Obligations.StepRunsTheDecodedCommand : Prop :=
  (∀ (s : State) (data : Word) (rest : List HostAction) (i : Instr),
    s.pending = .write 0x00000#17 8 data :: rest → decode (BitVec.ofNat 32 data.toNat) = .command i →
      step s = exec i { s with pending := rest }) ∧
  (∀ (s : State) (nbits w : Nat) (i : Instr), decode (BitVec.ofNat 32 (w % 2 ^ nbits)) = .command i →
    step (s.withFetchWord nbits w) = exec i s)

/-- What a host read of each register slot gives: the register map's contents with STATUS, PARAM and GCFG laid out as R19, R27
and R32 say, in the codes of R57 and R58; CMD reads 0 (R31, R33). RD_TOTAL reads as its 64-bit pattern; in states outside the
reader invariant R23 that is the model's choice (log 8). Second part: every reserved address reads 0 (R33), by the access
sizes that are the model's choice there (log 3). -/
def Obligations.HostReadsGiveTheRegisterMap : Prop :=
  (∀ (s : State) (rest : List HostAction) (a : HostAddr) (v : Nat), s.params.legal →
    (a.toNat, v) ∈
      ([(0x00, 0), (0x08, codeValue s.code + if s.errSeen then 256 else 0),
        (0x10, s.arg0.toNat), (0x18, s.arg1.toNat), (0x20, s.res.toNat),
        (0x28, s.errA.toNat), (0x30, s.errB.toNat), (0x38, s.errC.toNat),
        (0x40, s.rdLen.toNat), (0x48, s.rdOff.toNat), (0x50, s.rdPad.toNat), (0x58, s.rdCur.toNat),
        (0x60, (total s % 2 ^ 64).toNat), (0x68, codeOfEndian s.rdEnd),
        (0x70, s.crc8Poly.toNat), (0x78, s.crc16Poly.toNat), (0x80, s.olen.toNat), (0x88, s.params.ibufBytes),
        (0xC0, value s .g0), (0xC8, value s .g1), (0xD0, value s .g2), (0xD8, value s .g3),
        (0xE0, ([GroupReg.g0, .g1, .g2, .g3].zipIdx.map fun p =>
            (codeOfWidth (s.group p.1).wcode + codeOfEndian (s.group p.1).endian * 2 ^ 3) * 2 ^ (4 * p.2)).sum)] :
        List (Nat × Nat)) →
    s.pending = .read a 8 :: rest →
    step s = .next { s with pending := rest, outputs := s.outputs ++ [BitVec.ofNat 64 v] }) ∧
  (∀ (s : State) (rest : List HostAction) (a : HostAddr) (size : Nat), Reserved a.toNat → ReservedSize a.toNat size →
    s.pending = .read a size :: rest → step s = .next { s with pending := rest, outputs := s.outputs ++ [0#64] })

/-- What a host read of a buffer byte gives: OBUF's byte (some byte where no command wrote it), IBUF's byte as the host last
wrote it, and 0 in the IBUF window beyond IBUF_BYTES (20_memory.md R36, R37, R39); a never-written IBUF byte faults exactly
under the treatment `fault` of I1. -/
def Obligations.HostReadsOfBufferBytes : Prop :=
  ∀ (s : State) (rest : List HostAction) (a : Nat),
    (a < 256 → s.pending = .read (BitVec.ofNat 17 (0x800 + a)) 1 :: rest →
      ∃ b : Byte, step s = .next { s with pending := rest, outputs := s.outputs ++ [b.setWidth 64] } ∧
        ∀ c, s.obuf.read a = some c → b = c) ∧
    (a < 65536 → s.pending = .read (BitVec.ofNat 17 (0x10000 + a)) 1 :: rest →
      (s.params.ibufBytes ≤ a → step s = .next { s with pending := rest, outputs := s.outputs ++ [0#64] }) ∧
      (a < s.params.ibufBytes → s.Readable a →
        step s = .next { s with pending := rest, outputs := s.outputs ++ [BitVec.ofNat 64 (ibufByte s a)] }) ∧
      (a < s.params.ibufBytes → ¬ s.Readable a → step s = .fault (.ibufByteNeverWritten a)))

/-- A host write changes only the written location, and only ARG0, ARG1 and IBUF take one: a write to a read-only register, a
reserved address, OBUF or the IBUF window beyond IBUF_BYTES has no effect (10_state.md R33; 20_memory.md R36, R37, R43). The access
sizes at a reserved address are the model's choice (log 3); a byte write takes its byte from the low bits of the data
(log 10). -/
def Obligations.HostWritesChangeOnlyTheirLocation : Prop :=
  ∀ (s : State) (rest : List HostAction) (data : Word),
    (s.pending = .write 0x00010#17 8 data :: rest → step s = .next { s with pending := rest, arg0 := data }) ∧
    (s.pending = .write 0x00018#17 8 data :: rest → step s = .next { s with pending := rest, arg1 := data }) ∧
    (∀ slot : HostAddr, slot.toNat < 0x800 → slot.toNat % 8 = 0 → slot.toNat ∉ [0x00, 0x10, 0x18] →
      s.pending = .write slot 8 data :: rest → step s = .next { s with pending := rest }) ∧
    (∀ (a : HostAddr) (size : Nat), Reserved a.toNat → ReservedSize a.toNat size →
      s.pending = .write a size data :: rest → step s = .next { s with pending := rest }) ∧
    (∀ a, a < 256 → s.pending = .write (BitVec.ofNat 17 (0x800 + a)) 1 data :: rest →
      step s = .next { s with pending := rest }) ∧
    (∀ a, a < 65536 → s.pending = .write (BitVec.ofNat 17 (0x10000 + a)) 1 data :: rest →
      (s.params.ibufBytes ≤ a → step s = .next { s with pending := rest }) ∧
      (a < s.params.ibufBytes → ∃ m : Memory, step s = .next { s with pending := rest, ibuf := m } ∧
        ∀ x, m.read x = if x = a then some (BitVec.ofNat 8 data.toNat) else s.ibuf.read x))

/-- A host read changes no state but the run's list of outputs (R43, R154): whatever it reads, if it gives a next state. -/
def Obligations.HostReadsHaveNoSideEffect : Prop :=
  ∀ (s t : State) (rest : List HostAction) (a : HostAddr) (size : Nat),
    s.pending = .read a size :: rest → step s = .next t →
      ∃ v, t = { s with pending := rest, outputs := s.outputs ++ [v] }

/-- The accesses R40 does not permit are refused, read and write: a register touched in any way but one 8-byte access at its
8-aligned address, and a buffer touched by more than one byte (I2). -/
def Obligations.UnpermittedAccessesAreRefused : Prop :=
  ∀ (s : State) (rest : List HostAction) (a : HostAddr) (size : Nat) (data : Word),
    ((Touches a.toNat size 0x00 0x90 ∨ Touches a.toNat size 0xC0 0xE8) ∧ ¬ (size = 8 ∧ a.toNat % 8 = 0)) ∨
      ((Touches a.toNat size 0x800 0x900 ∨ Touches a.toNat size 0x10000 0x20000) ∧ size ≠ 1) →
    (s.pending = .read a size :: rest → step s = .refused (.unsupportedAccess a size)) ∧
    (s.pending = .write a size data :: rest → step s = .refused (.unsupportedAccess a size))

/-! ### Reset -/

/-- The model's reset state, and the state a reset gives from whatever state, hold the values of R34 in every register, and no
byte of IBUF and OBUF is written (R146); the parameters stay, and so do the pending actions and outputs, which are the host's
(log 6). -/
def Obligations.ResetSetsEveryRegister : Prop :=
  HasResetValues State.reset ∧
  ∀ (s : State) (rest : List HostAction), s.pending = .reset :: rest →
    ∃ t, step s = .next t ∧ HasResetValues t ∧ t.params = s.params ∧ t.pending = rest ∧ t.outputs = s.outputs

/-- After reset, whatever the host then wrote to ARG0, ARG1 and IBUF: READ and SUBRD fail with InvalidBitCount for a bad count
and with BitsCountOutOfBounds else, RDBYTES of at least one byte fails with BitsCountOutOfBounds, SEEK succeeds only with
target 0, each group register is a 64-bit MSF group of value 0, and C8CALC and C16CALC over a legal, readable slice of whatever
length use the polynomials 0x07 and 0x1021 (R147). -/
def Obligations.ReaderIsEmptyAfterReset : Prop :=
  ∀ (s0 : State) (x y : Word) (m : Memory) (n : Nat) (e : Endian) (o : SeekOrigin),
    let s : State := { s0.platformReset with arg0 := x, arg1 := y, ibuf := m }
    let start := arg0Low s
    let len := arg0High s
    ((n < 1 ∨ 64 < n) → exec (.read n) s = .next (reported s .invalidBitCount n 1 64) ∧
      exec (.subrd n e) s = .next (reported s .invalidBitCount n 1 64)) ∧
    (1 ≤ n ∧ n ≤ 64 → exec (.read n) s = .next (reported s .bitsCountOutOfBounds 0 n 0) ∧
      exec (.subrd n e) s = .next (reported s .bitsCountOutOfBounds 0 n 0)) ∧
    (1 ≤ n → exec (.rdbytes n) s = .next (reported s .bitsCountOutOfBounds 0 8 0)) ∧
    ((∃ t, exec (.seek o) s = .next t ∧ t.code = .success) ↔ x = 0#64) ∧
    (∀ r, s.group r = { value := 0#64, wcode := .w64, endian := .msf }) ∧
    s.crc8Poly = 0x07#8 ∧ s.crc16Poly = 0x1021#16 ∧
    (start + len ≤ s.params.ibufBytes → (∀ j, j < len → s.Readable (start + j)) →
      exec .c8calc s = .next (succeeded { s with
        res := BitVec.ofNat 64 (crcFold s (Spec.crc8Step 0x07) (y.toNat % 2 ^ 8) start len) }) ∧
      exec .c16calc s = .next (succeeded { s with
        res := BitVec.ofNat 64 (crcFold s (Spec.crc16Step 0x1021) (y.toNat % 2 ^ 16) start len) }))

/-! ### Invariants and whole-machine rules -/

/-- The reset state meets the invariant. -/
def Obligations.ResetStateMeetsTheInvariant : Prop := State.reset.Inv

/-- Every step, from every state that meets it, keeps the invariant: group values within their widths (10_state.md R16), the
reader's relations (R23), the buffers in canonical form and inside their spaces, OLEN at most 256 (R26). -/
def Obligations.EveryStepKeepsTheInvariant : Prop :=
  ∀ s t : State, s.Inv → step s = .next t → t.Inv

/-- IBUF_BYTES and the treatment of I1 are configuration: no step changes them (R30). -/
def Obligations.NoStepChangesTheParameters : Prop :=
  ∀ s t : State, step s = .next t → t.params = s.params

/-- Every command completes with a next state, from every state that meets the invariant, under the treatment `anyValue`
(20_memory.md R46; 70_reset_and_hazards.md R153), and so does every command word. -/
def Obligations.EveryCommandCompletes : Prop :=
  ∀ s : State, s.Inv → s.params.unwritten = .anyValue →
    (∀ i, ∃ t, exec i s = .next t) ∧ (∀ w, ∃ t, runCommand w s = .next t)

/-- A command stops only at an IBUF byte that was never written, under the treatment `fault`, and only READ, RDBYTES, SUBRD,
C8CALC and C16CALC can; no command reads at or beyond IBUF_BYTES, and none is refused (R37, R38; I1). -/
def Obligations.CommandsStopOnlyAtNeverWrittenBytes : Prop :=
  ∀ (s : State) (i : Instr), s.Inv →
    (∀ f, exec i s = .fault f → ∃ a, f = .ibufByteNeverWritten a ∧ a < s.params.ibufBytes ∧ s.ibuf.read a = none ∧
      s.params.unwritten = .fault ∧
      ((∃ n, i = .read n) ∨ (∃ n, i = .rdbytes n) ∨ (∃ n e, i = .subrd n e) ∨ i = .c8calc ∨ i = .c16calc)) ∧
    (∀ r, exec i s ≠ .refused r)

/-- A command that ends with STATUS.CODE 0 does not change ERRSEEN, ERR_A, ERR_B or ERR_C (60_exceptions.md R131). -/
def Obligations.SuccessKeepsTheErrorReport : Prop :=
  ∀ (s t : State) (i : Instr), exec i s = .next t → t.code = .success →
    t.errSeen = s.errSeen ∧ t.errA = s.errA ∧ t.errB = s.errB ∧ t.errC = s.errC

/-- A command that ends with an error changes STATUS and ERR_A to ERR_C and nothing else, but for the partial progress of
RDBYTES in OBUF, OLEN and RD_CUR (R132, R136). -/
def Obligations.ErrorsChangeNothingElse : Prop :=
  ∀ (s t : State) (i : Instr), exec i s = .next t → t.code ≠ .success →
    t.errSeen = true ∧
    ((∀ size, i ≠ .rdbytes size) →
      t = { s with code := t.code, errSeen := true, errA := t.errA, errB := t.errB, errC := t.errC }) ∧
    t = { s with
          code := t.code, errSeen := true, errA := t.errA, errB := t.errB, errC := t.errC
          obuf := t.obuf, olen := t.olen, rdCur := t.rdCur }

/-- ERRSEEN becomes 1 with the first error and stays 1 until reset, whatever later steps do (R135). -/
def Obligations.ErrseenIsSticky : Prop :=
  (∀ s t : State, step s = .next t → (∀ rest, s.pending ≠ .reset :: rest) → s.errSeen = true → t.errSeen = true) ∧
  (∀ (s t : State) (w : CmdWord), runCommand w s = .next t →
    t.errSeen = (s.errSeen || decide (t.code ≠ .success)))

/-- STATUS.CODE takes the numbers of R130 and no others, and each is raised only by its commands (the column "raised by"). -/
def Obligations.EachCodeIsRaisedByItsCommands : Prop :=
  ∀ (s t : State) (w : CmdWord), runCommand w s = .next t →
    (statusCode t = 1 → ∃ why, decode w = .illegal why) ∧
    (statusCode t = 2 → ∃ e, decode w = .command (.rdinit e)) ∧
    (statusCode t = 3 → ∃ i, decode w = .command i ∧
      ((∃ n, i = .read n) ∨ (∃ n e, i = .subrd n e) ∨ ∃ o, i = .seek o)) ∧
    (statusCode t = 4 → ∃ i, decode w = .command i ∧
      ((∃ n, i = .read n) ∨ (∃ n e, i = .subrd n e) ∨ ∃ n, i = .rdbytes n)) ∧
    (statusCode t = 5 → ∃ i, decode w = .command i ∧
      ((∃ g x, i = .getb g x) ∨ (∃ g x b, i = .setb g x b) ∨ (∃ g x, i = .flip g x) ∨ (∃ g x, i = .geto g x) ∨
        ∃ g x b, i = .seto g x b)) ∧
    (statusCode t = 6 → ∃ i, decode w = .command i ∧
      ((∃ g h x y, i = .extr g h x y) ∨ (∃ g x y, i = .getr g x y) ∨ ∃ g x y, i = .setr g x y)) ∧
    (statusCode t = 7 → ∃ i, decode w = .command i ∧ ((∃ g x, i = .shl g x) ∨ ∃ g x, i = .shr g x)) ∧
    (statusCode t = 8 → decode w = .command .c8calc ∨ decode w = .command .c16calc) ∧
    statusCode t ≤ 8 ∧ statusCode t = codeValue t.code

/-- Which commands write which state: none writes ARG0 and ARG1 (R17), none IBUF (20_memory.md R36); only the commands that
return a scalar write RES (R18); a group register is written only by a command that names it as its destination (R15, R70), and
its width and tag only by LOAD, COPY, EXTR, REVC and TWOS; only RDINIT writes RD_LEN, RD_OFF, RD_PAD and RD_END, only the
reader's commands RD_CUR (R21); only C8POLY and C16POLY write the polynomials (R24); only TOBYTES, RDBYTES and SUBRD write OLEN
(R26) and OBUF (R35). STATUS and ERR_A to ERR_C are not among them: every command writes STATUS. -/
def Obligations.StateIsWrittenOnlyByItsCommands : Prop :=
  ∀ (s t : State) (i : Instr), exec i s = .next t →
    t.arg0 = s.arg0 ∧ t.arg1 = s.arg1 ∧ t.ibuf = s.ibuf ∧
    (t.res ≠ s.res → ReturnsScalar i) ∧
    (∀ r, t.group r ≠ s.group r → destination i = some r) ∧
    (∀ r, (t.group r).wcode ≠ (s.group r).wcode ∨ (t.group r).endian ≠ (s.group r).endian → WritesWidthAndTag i) ∧
    ((∀ e, i ≠ .rdinit e) → t.rdLen = s.rdLen ∧ t.rdOff = s.rdOff ∧ t.rdPad = s.rdPad ∧ t.rdEnd = s.rdEnd) ∧
    (t.rdCur ≠ s.rdCur → (∃ e, i = .rdinit e) ∨ (∃ n, i = .read n) ∨ (∃ n, i = .rdbytes n) ∨ (∃ o, i = .seek o) ∨
      ∃ n e, i = .subrd n e) ∧
    (i ≠ .c8poly → t.crc8Poly = s.crc8Poly) ∧ (i ≠ .c16poly → t.crc16Poly = s.crc16Poly) ∧
    (t.olen ≠ s.olen ∨ t.obuf ≠ s.obuf → (∃ g, i = .tobytes g) ∨ (∃ n, i = .rdbytes n) ∨ ∃ n e, i = .subrd n e) ∧
    t.pending = s.pending ∧ t.outputs = s.outputs ∧ t.params = s.params ∧ t.draws = s.draws

/-- Under the treatment `fault`, READ, SUBRD, RDBYTES and the calculate commands fault when a byte they read was never written
since reset (20_memory.md R38; I1). -/
def Obligations.ReadingANeverWrittenByteFaults : Prop :=
  ∀ (s : State) (n : Nat) (e : Endian), s.Inv → s.params.unwritten = .fault →
    (1 ≤ n → n ≤ 64 → (cur s : Int) + n ≤ total s → ¬ BitsReadable s (nextBit s) n →
      ∃ a, exec (.read n) s = .fault (.ibufByteNeverWritten a) ∧ exec (.subrd n e) s = .fault (.ibufByteNeverWritten a) ∧
        s.ibuf.read a = none) ∧
    (¬ BitsReadable s (nextBit s) (8 * min n ((total s - cur s) / 8).toNat) →
      ∃ a, exec (.rdbytes n) s = .fault (.ibufByteNeverWritten a) ∧ s.ibuf.read a = none) ∧
    (arg0Low s + arg0High s ≤ s.params.ibufBytes → ¬ (∀ j, j < arg0High s → s.Readable (arg0Low s + j)) →
      ∃ a, exec .c8calc s = .fault (.ibufByteNeverWritten a) ∧ exec .c16calc s = .fault (.ibufByteNeverWritten a) ∧
        s.ibuf.read a = none)

/-! ### The commands, one by one -/

/-- NOP (43_control.md R126): its word is 0, and every other word with OPC 0x00 is IllegalCommand. -/
def Obligations.NopOnlyClearsTheCode : Prop :=
  encode .nop = 0x00000000#32 ∧ (∀ w, wordOpc w = 0x00 → w ≠ 0x00000000#32 → IsIllegal w) ∧
  ∀ s : State, exec .nop s = .next (succeeded s)

/-- LOAD (40_bitgroup.md R77): the source's bits above W are dropped; a width code 5 to 7 or B above 1 is IllegalCommand. -/
def Obligations.LoadMasksTheSource : Prop :=
  (∀ w, wordOpc w = 0x10 → 4 < wordF w % 2 ^ 3 ∨ 1 < wordB w → IsIllegal w) ∧
  ∀ (gd : GroupReg) (w : Width) (e : Endian) (s : State) (src : LoadSource),
    opc (.load gd w e src) = 0x10 ∧
    exec (.load gd w e src) s = .next (succeeded { s with
      groups := s.groups.set gd
        { value := BitVec.ofNat 64 ((match src with | .arg0 => s.arg0.toNat | .res => s.res.toNat) % 2 ^ bitsOf w)
          wcode := w, endian := e } })

/-- COPY (R78): value, width and tag; the source register is unchanged. -/
def Obligations.CopyCopiesTheGroup : Prop :=
  ∀ (gd gs : GroupReg) (s : State),
    opc (.copy gd gs) = 0x11 ∧ exec (.copy gd gs) s = .next (succeeded { s with groups := s.groups.set gd (s.group gs) }) ∧
    ∀ r, (s.groups.set gd (s.group gs)).get r = if r = gd then s.group gs else s.group r

/-- EXTR (R79): the range right-aligned, the source's width and tag; an illegal range raises IndexRangeOutOfBounds (R73). -/
def Obligations.ExtrExtractsTheRange : Prop :=
  ∀ (gd gs : GroupReg) (a b : Nat) (s : State),
    opc (.extr gd gs a b) = 0x12 ∧
    (a ≤ b ∧ b < width s gs → exec (.extr gd gs a b) s = .next (succeeded { s with
      groups := s.groups.set gd { s.group gs with value := BitVec.ofNat 64 (value s gs / 2 ^ a % 2 ^ (b - a + 1)) } })) ∧
    (¬ (a ≤ b ∧ b < width s gs) →
      exec (.extr gd gs a b) s = .next (reported s .indexRangeOutOfBounds a b (width s gs - 1)))

/-- GETB (R80): the bit, whatever the tag; an index not below W raises IndexOutOfBounds (R72). -/
def Obligations.GetbReadsTheBit : Prop :=
  ∀ (gs : GroupReg) (a : Nat) (s : State),
    opc (.getb gs a) = 0x13 ∧
    (a < width s gs →
      exec (.getb gs a) s = .next (succeeded { s with res := BitVec.ofNat 64 ((value s gs >>> a) &&& 1) })) ∧
    (width s gs ≤ a → exec (.getb gs a) s = .next (reported s .indexOutOfBounds a 0 (width s gs - 1)))

/-- SETB (R81); B above 1 is IllegalCommand. -/
def Obligations.SetbWritesTheBit : Prop :=
  (∀ w, wordOpc w = 0x14 → 1 < wordB w → IsIllegal w) ∧
  ∀ (gd : GroupReg) (a : Nat) (bit : Bool) (s : State),
    opc (.setb gd a bit) = 0x14 ∧
    (a < width s gd → exec (.setb gd a bit) s = .next (succeeded (withValue s gd
      ((value s gd &&& ((2 ^ width s gd - 1) - (1 <<< a))) ||| (bit.toNat <<< a))))) ∧
    (width s gd ≤ a → exec (.setb gd a bit) s = .next (reported s .indexOutOfBounds a 0 (width s gd - 1)))

/-- FLIP (R82): RES is the bit's new value. -/
def Obligations.FlipTogglesTheBit : Prop :=
  ∀ (gd : GroupReg) (a : Nat) (s : State),
    opc (.flip gd a) = 0x15 ∧
    (a < width s gd → exec (.flip gd a) s = .next (succeeded { withValue s gd (value s gd ^^^ (1 <<< a)) with
      res := BitVec.ofNat 64 (((value s gd ^^^ (1 <<< a)) >>> a) &&& 1) })) ∧
    (width s gd ≤ a → exec (.flip gd a) s = .next (reported s .indexOutOfBounds a 0 (width s gd - 1)))

/-- MSB and LSB (R83, R84). -/
def Obligations.MsbAndLsbReadTheEndBits : Prop :=
  ∀ (gs : GroupReg) (s : State),
    opc (.msb gs) = 0x1A ∧ opc (.lsb gs) = 0x1B ∧
    exec (.msb gs) s = .next (succeeded { s with
      res := BitVec.ofNat 64 ((value s gs >>> (width s gs - 1)) &&& 1) }) ∧
    exec (.lsb gs) s = .next (succeeded { s with res := BitVec.ofNat 64 (value s gs &&& 1) })

/-- GETR (R85): the range right-aligned; an illegal range raises IndexRangeOutOfBounds (R73). -/
def Obligations.GetrReadsTheRange : Prop :=
  ∀ (gs : GroupReg) (a b : Nat) (s : State),
    opc (.getr gs a b) = 0x16 ∧
    (a ≤ b ∧ b < width s gs → exec (.getr gs a b) s = .next (succeeded { s with
      res := BitVec.ofNat 64 (value s gs / 2 ^ a % 2 ^ (b - a + 1)) })) ∧
    (¬ (a ≤ b ∧ b < width s gs) → exec (.getr gs a b) s = .next (reported s .indexRangeOutOfBounds a b (width s gs - 1)))

/-- SETR (R86, R74): the range's bits become the low bits of ARG0, every other bit of the value is kept. -/
def Obligations.SetrWritesTheRange : Prop :=
  ∀ (gd : GroupReg) (a b : Nat) (s : State),
    opc (.setr gd a b) = 0x17 ∧
    (a ≤ b ∧ b < width s gd → exec (.setr gd a b) s = .next (succeeded (withValue s gd
      ((value s gd &&& ((2 ^ width s gd - 1) - ((2 ^ (b - a + 1) - 1) <<< a))) |||
        ((s.arg0.toNat &&& (2 ^ (b - a + 1) - 1)) <<< a))))) ∧
    (¬ (a ≤ b ∧ b < width s gd) → exec (.setr gd a b) s = .next (reported s .indexRangeOutOfBounds a b (width s gd - 1)))

/-- GETO (R87, R71). -/
def Obligations.GetoReadsTheOctet : Prop :=
  ∀ (gs : GroupReg) (a : Nat) (s : State),
    opc (.geto gs a) = 0x18 ∧
    (a < octets s gs → exec (.geto gs a) s = .next (succeeded { s with res := BitVec.ofNat 64 (octet s gs a) })) ∧
    (octets s gs ≤ a → exec (.geto gs a) s = .next (reported s .indexOutOfBounds a 0 (octets s gs - 1)))

/-- SETO (R88, R71). -/
def Obligations.SetoWritesTheOctet : Prop :=
  ∀ (gd : GroupReg) (a : Nat) (b : Byte) (s : State),
    opc (.seto gd a b) = 0x19 ∧
    (a < octets s gd → exec (.seto gd a b) s = .next (succeeded (withValue s gd (withOctet s gd a b.toNat)))) ∧
    (octets s gd ≤ a → exec (.seto gd a b) s = .next (reported s .indexOutOfBounds a 0 (octets s gd - 1)))

/-- MSO and LSO (R89, R90): the numerically most and least significant octet, for both endiannesses. -/
def Obligations.MsoAndLsoReadTheEndOctets : Prop :=
  ∀ (gs : GroupReg) (s : State), Fits s gs →
    opc (.mso gs) = 0x1C ∧ opc (.lso gs) = 0x1D ∧
    exec (.mso gs) s = .next (succeeded { s with res := BitVec.ofNat 64 (value s gs >>> (width s gs - 8)) }) ∧
    exec (.lso gs) s = .next (succeeded { s with res := BitVec.ofNat 64 (value s gs &&& 0xFF) })

/-- TOBYTES (R91): octet i at OBUF[i] for i < N, every other byte of OBUF unchanged, OLEN = N (20_memory.md R39). -/
def Obligations.TobytesWritesTheOctets : Prop :=
  ∀ (gs : GroupReg) (s : State),
    opc (.tobytes gs) = 0x1E ∧
    ∃ m : Memory,
      exec (.tobytes gs) s = .next (succeeded { s with obuf := m, olen := BitVec.ofNat 9 (octets s gs) }) ∧
      ∀ a, m.read a = if a < octets s gs then some (BitVec.ofNat 8 (octet s gs a)) else s.obuf.read a

/-- REVO and REVC (R92, R93): the octets in reverse numeric order, for either endianness; width and tag are the source's. -/
def Obligations.RevoAndRevcReverseTheOctets : Prop :=
  ∀ (gd gs : GroupReg) (s : State),
    opc (.revo gd) = 0x1F ∧ opc (.revc gd gs) = 0x20 ∧
    (Fits s gd → exec (.revo gd) s = .next (succeeded (withValue s gd (reverseOctets (octets s gd) (value s gd))))) ∧
    (Fits s gs → exec (.revc gd gs) s = .next (succeeded { s with
      groups := s.groups.set gd
        { s.group gs with value := BitVec.ofNat 64 (reverseOctets (octets s gs) (value s gs)) } }))

/-- TWOS (R94): `((mask(W) - value) + 1) mod 2^W`. -/
def Obligations.TwosNegatesWithinTheWidth : Prop :=
  ∀ (gd gs : GroupReg) (s : State), Fits s gs →
    opc (.twos gd gs) = 0x21 ∧
    exec (.twos gd gs) s = .next (succeeded { s with
      groups := s.groups.set gd { s.group gs with
        value := BitVec.ofNat 64 (((2 ^ width s gs - 1 - value s gs) + 1) % 2 ^ width s gs) } })

/-- SHL and SHR (R95, R96): a count above W raises CountOutOfBounds, count W gives 0. -/
def Obligations.ShlAndShrShiftWithinTheWidth : Prop :=
  ∀ (gd : GroupReg) (a : Nat) (s : State),
    opc (.shl gd a) = 0x22 ∧ opc (.shr gd a) = 0x23 ∧
    (a ≤ width s gd →
      exec (.shl gd a) s = .next (succeeded (withValue s gd (value s gd * 2 ^ a % 2 ^ width s gd))) ∧
      exec (.shr gd a) s = .next (succeeded (withValue s gd (value s gd / 2 ^ a)))) ∧
    (width s gd < a →
      exec (.shl gd a) s = .next (reported s .countOutOfBounds a 0 (width s gd)) ∧
      exec (.shr gd a) s = .next (reported s .countOutOfBounds a 0 (width s gd)))

/-- AND and OR (R97, R98): operands of any two widths as numbers, the result masked to Gd's width. -/
def Obligations.AndAndOrCombineTheValues : Prop :=
  ∀ (gd gs : GroupReg) (s : State),
    opc (.and gd gs) = 0x24 ∧ opc (.or gd gs) = 0x25 ∧
    exec (.and gd gs) s = .next (succeeded (withValue s gd ((value s gd &&& value s gs) % 2 ^ width s gd))) ∧
    exec (.or gd gs) s = .next (succeeded (withValue s gd ((value s gd ||| value s gs) % 2 ^ width s gd)))

/-- NOT, INC and FMASK (R99, R100, R101). -/
def Obligations.NotIncAndFmask : Prop :=
  ∀ (gd : GroupReg) (s : State), Fits s gd →
    opc (.not gd) = 0x26 ∧ opc (.inc gd) = 0x27 ∧ opc (.fmask gd) = 0x28 ∧
    exec (.not gd) s = .next (succeeded (withValue s gd (2 ^ width s gd - 1 - value s gd))) ∧
    exec (.inc gd) s = .next (succeeded (withValue s gd ((value s gd + 1) % 2 ^ width s gd))) ∧
    exec (.fmask gd) s = .next (succeeded (withValue s gd (2 ^ width s gd - 1)))

/-- RDINIT (41_reader.md R106); F[2:0] not 0 is IllegalCommand. -/
def Obligations.RdinitConfiguresTheReader : Prop :=
  (∀ w, wordOpc w = 0x40 → wordF w % 2 ^ 3 ≠ 0 → IsIllegal w) ∧
  ∀ (e : Endian) (s : State),
    let off := sext32 (arg0Low s)
    let pad := sext32 (arg0High s)
    let len := arg1Low s
    opc (.rdinit e) = 0x40 ∧
    (off < 0 ∨ pad < 0 ∨ s.params.ibufBytes < len ∨ 8 * len < off + pad →
      exec (.rdinit e) s = .next (reported s .invalidInitialConditions off pad (8 * len))) ∧
    (¬ (off < 0 ∨ pad < 0 ∨ s.params.ibufBytes < len ∨ 8 * len < off + pad) →
      exec (.rdinit e) s = .next (succeeded { s with
        rdLen := BitVec.ofNat 32 len, rdOff := BitVec.ofInt 32 off, rdPad := BitVec.ofInt 32 pad
        rdEnd := e, rdCur := 0#64 }))

/-- READ (R107, R104): the count is checked before the bounds; RES is the sum of the stream bits, the first the most
significant, and the cursor advances by n. -/
def Obligations.ReadReturnsTheStreamBits : Prop :=
  ∀ (n : Nat) (s : State),
    opc (.read n) = 0x41 ∧
    (n < 1 ∨ 64 < n → exec (.read n) s = .next (reported s .invalidBitCount n 1 64)) ∧
    (1 ≤ n ∧ n ≤ 64 → total s < (cur s : Int) + n →
      exec (.read n) s = .next (reported s .bitsCountOutOfBounds (cur s) n (total s))) ∧
    (1 ≤ n ∧ n ≤ 64 → (cur s : Int) + n ≤ total s → BitsReadable s (nextBit s) n →
      exec (.read n) s = .next (succeeded { s with
        res := BitVec.ofNat 64 (bitsFrom s (nextBit s) n), rdCur := BitVec.ofNat 64 (cur s + n) }))

/-- RDBYTES (R108): m bytes are read, all A of them or those that lie before the end of the stream; they are written to
OBUF[0 .. m-1], every other byte of OBUF is unchanged, OLEN = m and the cursor is advanced by 8m; where m < A the command
raises BitsCountOutOfBounds and keeps all of that. -/
def Obligations.RdbytesReadsTheBytes : Prop :=
  ∀ (a : Nat) (s : State),
    let avail := ((total s - cur s) / 8).toNat
    let m := min a avail
    opc (.rdbytes a) = 0x42 ∧
    (BitsReadable s (nextBit s) (8 * m) →
      ∃ o : Memory,
        (∀ x, o.read x =
          if x < m then some (BitVec.ofNat 8 (bitsFrom s (nextBit s + 8 * x) 8)) else s.obuf.read x) ∧
        exec (.rdbytes a) s = .next
          (let t : State := { s with
            obuf := o, olen := BitVec.ofNat 9 m, rdCur := BitVec.ofNat 64 (cur s + 8 * m) }
           if a ≤ avail then succeeded t else reported t .bitsCountOutOfBounds (cur s + 8 * m : Nat) 8 (total s)))

/-- SEEK (R109): the target is an exact integer; F above 2 is IllegalCommand. -/
def Obligations.SeekMovesTheCursor : Prop :=
  (∀ w, wordOpc w = 0x43 → 2 < wordF w → IsIllegal w) ∧
  ∀ (o : SeekOrigin) (s : State),
    let count := sext64 s.arg0.toNat
    let f : Int := match o with | .set => 0 | .cur => 1 | .fromEnd => 2
    let base : Int := match o with | .set => 0 | .cur => cur s | .fromEnd => total s
    let t := base + count
    opc (.seek o) = 0x43 ∧
    (t < 0 ∨ total s < t → exec (.seek o) s = .next (reported s .invalidBitCount count f (total s))) ∧
    (¬ (t < 0 ∨ total s < t) → exec (.seek o) s = .next (succeeded { s with rdCur := BitVec.ofNat 64 t.toNat }))

/-- SUBRD (R110): READ's checks; the number x of the n stream bits is written to OBUF as m = ceil(n/8) bytes, big-endian for
e = msf and little-endian for e = lsf, every other byte of OBUF is unchanged, OLEN = m, RES[31:0] = 8m - n and
RES[63:32] = 0, and the cursor advances by n; F[2:0] not 0 is IllegalCommand. -/
def Obligations.SubrdMaterialisesTheBits : Prop :=
  (∀ w, wordOpc w = 0x44 → wordF w % 2 ^ 3 ≠ 0 → IsIllegal w) ∧
  ∀ (n : Nat) (e : Endian) (s : State),
    let x := bitsFrom s (nextBit s) n
    let m := (n + 7) / 8
    opc (.subrd n e) = 0x44 ∧
    (n < 1 ∨ 64 < n → exec (.subrd n e) s = .next (reported s .invalidBitCount n 1 64)) ∧
    (1 ≤ n ∧ n ≤ 64 → total s < (cur s : Int) + n →
      exec (.subrd n e) s = .next (reported s .bitsCountOutOfBounds (cur s) n (total s))) ∧
    (1 ≤ n ∧ n ≤ 64 → (cur s : Int) + n ≤ total s → BitsReadable s (nextBit s) n →
      ∃ o : Memory,
        (∀ j, o.read j =
          if j < m then
            some (BitVec.ofNat 8 ((x >>> (8 * (m - 1 - (match e with | .msf => j | .lsf => m - 1 - j)))) &&& 0xFF))
          else s.obuf.read j) ∧
        exec (.subrd n e) s = .next (succeeded { s with
          obuf := o, olen := BitVec.ofNat 9 m, res := BitVec.ofNat 64 (8 * m - n)
          rdCur := BitVec.ofNat 64 (cur s + n) }))

/-- C8POLY and C16POLY (42_crc.md R117, R121). -/
def Obligations.PolyCommandsSetThePolynomials : Prop :=
  ∀ s : State,
    opc .c8poly = 0x60 ∧ opc .c16poly = 0x68 ∧
    exec .c8poly s = .next (succeeded { s with crc8Poly := BitVec.ofNat 8 s.arg0.toNat }) ∧
    exec .c16poly s = .next (succeeded { s with crc16Poly := BitVec.ofNat 16 s.arg0.toNat })

/-- C8CALC and C16CALC (R118, R122, with R112 to R116): the fold over the slice, or BufferRangeOutOfBounds where the slice ends
past IBUF_BYTES. -/
def Obligations.CalcCommandsFoldTheSlice : Prop :=
  ∀ s : State,
    let start := arg0Low s
    let len := arg0High s
    opc .c8calc = 0x61 ∧ opc .c16calc = 0x69 ∧
    (s.params.ibufBytes < start + len →
      exec .c8calc s = .next (reported s .bufferRangeOutOfBounds start len s.params.ibufBytes) ∧
      exec .c16calc s = .next (reported s .bufferRangeOutOfBounds start len s.params.ibufBytes)) ∧
    (start + len ≤ s.params.ibufBytes → (∀ j, j < len → s.Readable (start + j)) →
      exec .c8calc s = .next (succeeded { s with
        res := BitVec.ofNat 64 (crcFold s (Spec.crc8Step s.crc8Poly.toNat) (s.arg1.toNat % 2 ^ 8) start len) }) ∧
      exec .c16calc s = .next (succeeded { s with
        res := BitVec.ofNat 64 (crcFold s (Spec.crc16Step s.crc16Poly.toNat) (s.arg1.toNat % 2 ^ 16) start len) }))

/-- C8UPD and C16UPD (R119, R123): one fold step on the low bits of RES. -/
def Obligations.UpdCommandsFoldOneByte : Prop :=
  ∀ (b : Byte) (s : State),
    opc (.c8upd b) = 0x62 ∧ opc (.c16upd b) = 0x6A ∧
    exec (.c8upd b) s = .next (succeeded { s with
      res := BitVec.ofNat 64 (Spec.crc8Step s.crc8Poly.toNat (s.res.toNat % 2 ^ 8) b.toNat) }) ∧
    exec (.c16upd b) s = .next (succeeded { s with
      res := BitVec.ofNat 64 (Spec.crc16Step s.crc16Poly.toNat (s.res.toNat % 2 ^ 16) b.toNat) })

/-- C8TBL and C16TBL (R120, R124): the table entry of R112. -/
def Obligations.TblCommandsReadTheTable : Prop :=
  ∀ (i : Byte) (s : State),
    opc (.c8tbl i) = 0x63 ∧ opc (.c16tbl i) = 0x6B ∧
    exec (.c8tbl i) s = .next (succeeded { s with res := BitVec.ofNat 64 (crcTable 8 s.crc8Poly.toNat i.toNat) }) ∧
    exec (.c16tbl i) s = .next (succeeded { s with res := BitVec.ofNat 64 (crcTable 16 s.crc16Poly.toNat i.toNat) })

/-! ### Laws -/

/-- SETR of a value that fits the range, then GETR of the range, gives the value, and the bits outside the range are those
before the SETR (R102, item 1). -/
def Obligations.SetrThenGetrReturnsTheValue : Prop :=
  ∀ (gd : GroupReg) (a b : Nat) (s t : State), Fits s gd → a ≤ b → b < width s gd → s.arg0.toNat < 2 ^ (b - a + 1) →
    exec (.setr gd a b) s = .next t →
      (∃ u, exec (.getr gd a b) t = .next u ∧ u.res = s.arg0) ∧
      ∀ k, k < a ∨ b < k → (value t gd).testBit k = (value s gd).testBit k

/-- TWOS twice and REVO twice restore the group, and REVC into another register twice over gives the group (R102, items 2 and
3). -/
def Obligations.TwosAndRevoAreInvolutions : Prop :=
  ∀ (g h : GroupReg) (s : State), Fits s g →
    (∃ t u, exec (.twos g g) s = .next t ∧ exec (.twos g g) t = .next u ∧ u.group g = s.group g) ∧
    (∃ t u, exec (.revo g) s = .next t ∧ exec (.revo g) t = .next u ∧ u.group g = s.group g) ∧
    (∃ t u, exec (.revc h g) s = .next t ∧ exec (.revc h h) t = .next u ∧ u.group h = s.group g)

/-- The round trip (R111 item 1; R102 item 4): the bytes TOBYTES writes, copied by the host to IBUF[0 ..] and read by READ W
with a reader of the group's endianness over those bytes, give the value. -/
def Obligations.TobytesThenReadReturnsTheValue : Prop :=
  ∀ (g : GroupReg) (s t u : State), Fits s g → exec (.tobytes g) s = .next t →
    (∀ j, j < octets s g → u.ibuf.read j = t.obuf.read j) → octets s g ≤ u.params.ibufBytes →
    u.rdLen.toNat = octets s g → u.rdOff = 0#32 → u.rdPad = 0#32 → u.rdCur = 0#64 → u.rdEnd = (s.group g).endian →
      ∃ v, exec (.read (width s g)) u = .next v ∧ v.res = (s.group g).value ∧ v.code = .success

/-- SUBRD's bytes, copied by the host to IBUF[0 ..] and read by a reader of SUBRD's endianness over them with offset RES[31:0]
and padding RES[63:32], give back with READ n the bits that READ n would have given (R110). -/
def Obligations.SubrdThenReadReproducesTheBits : Prop :=
  ∀ (n : Nat) (e : Endian) (s t u : State), 1 ≤ n → n ≤ 64 → (cur s : Int) + n ≤ total s →
    BitsReadable s (nextBit s) n → exec (.subrd n e) s = .next t →
    (∀ j, j < (n + 7) / 8 → u.ibuf.read j = t.obuf.read j) → (n + 7) / 8 ≤ u.params.ibufBytes →
    u.rdLen.toNat = (n + 7) / 8 → u.rdOff.toNat = t.res.toNat % 2 ^ 32 → u.rdPad.toNat = t.res.toNat / 2 ^ 32 →
    u.rdCur = 0#64 → u.rdEnd = e →
      ∃ v w, exec (.read n) s = .next v ∧ exec (.read n) u = .next w ∧ w.res = v.res

/-- Chained calculation (R115, R122): C16CALC over a slice, its result as the initial value of C16CALC over the next slice,
gives the C16CALC of the whole; the same for C8CALC. -/
def Obligations.CalcChainsOverConsecutiveSlices : Prop :=
  ∀ (i : Instr) (s t s2 s3 : State) (k l : Nat), i = .c8calc ∨ i = .c16calc →
    arg0High s = k → arg0Low s + k + l ≤ s.params.ibufBytes →
    (∀ j, j < k + l → s.Readable (arg0Low s + j)) → exec i s = .next t →
    s2 = { t with arg0 := BitVec.ofNat 64 (l * 2 ^ 32 + (arg0Low s + k)), arg1 := t.res } →
    s3 = { s with arg0 := BitVec.ofNat 64 ((k + l) * 2 ^ 32 + arg0Low s) } →
    arg0Low s + k < 2 ^ 32 → k + l < 2 ^ 32 →
      ∃ u v, exec i s2 = .next u ∧ exec i s3 = .next v ∧ u.res = v.res

/-- The tables of R112: entry 0 is 0 and entry 1 is the polynomial, for every polynomial of both widths; with polynomial 0
every entry is 0. -/
def Obligations.TableEntriesZeroAndOne : Prop :=
  (∀ p : BitVec 8, crcTableEntry 8 p 0#8 = 0#8 ∧ crcTableEntry 8 p 1#8 = p) ∧
  (∀ p : BitVec 16, crcTableEntry 16 p 0#8 = 0#16 ∧ crcTableEntry 16 p 1#8 = p) ∧
  (∀ i, crcTableEntry 8 0#8 i = 0#8 ∧ crcTableEntry 16 0#16 i = 0#16)

/-- The check values over the bytes 0x31 to 0x39 (R125 item 3): CRC-8 0xF4; CRC-16 0x29B1, 0x31C3 and 0xE5CC by initial
value. -/
def Obligations.CrcCheckValues : Prop :=
  let digits : Memory := (List.range 9).map fun j => (j, BitVec.ofNat 8 (0x31 + j))
  let s : State := { State.reset with ibuf := digits, arg0 := 0x0000000900000000#64 }
  let res (o : Host.Outcome State Fault Refusal) : Option Word := match o with
    | .next t => some t.res
    | _ => none
  res (exec .c8calc s) = some 0xF4#64 ∧
  res (exec .c16calc { s with arg1 := 0xFFFF#64 }) = some 0x29B1#64 ∧
  res (exec .c16calc s) = some 0x31C3#64 ∧
  res (exec .c16calc { s with arg1 := 0x1D0F#64 }) = some 0xE5CC#64
end

