-- ==== Sys2Proof/Laws/State.lean ====
section
/-! SUPPORT. One lemma per field per update of State, each true by computation: what an update writes and what it keeps. -/

namespace Sys2Proof.Machine

/-! ### setGroup -/

@[simp] theorem State.setGroup_groups (s : State) (r : GroupReg) (x : Group) : (s.setGroup r x).groups = s.groups.set r x := rfl
@[simp] theorem State.setGroup_arg0 (s : State) (r : GroupReg) (x : Group) : (s.setGroup r x).arg0 = s.arg0 := rfl
@[simp] theorem State.setGroup_arg1 (s : State) (r : GroupReg) (x : Group) : (s.setGroup r x).arg1 = s.arg1 := rfl
@[simp] theorem State.setGroup_res (s : State) (r : GroupReg) (x : Group) : (s.setGroup r x).res = s.res := rfl
@[simp] theorem State.setGroup_code (s : State) (r : GroupReg) (x : Group) : (s.setGroup r x).code = s.code := rfl
@[simp] theorem State.setGroup_errSeen (s : State) (r : GroupReg) (x : Group) : (s.setGroup r x).errSeen = s.errSeen := rfl
@[simp] theorem State.setGroup_errA (s : State) (r : GroupReg) (x : Group) : (s.setGroup r x).errA = s.errA := rfl
@[simp] theorem State.setGroup_errB (s : State) (r : GroupReg) (x : Group) : (s.setGroup r x).errB = s.errB := rfl
@[simp] theorem State.setGroup_errC (s : State) (r : GroupReg) (x : Group) : (s.setGroup r x).errC = s.errC := rfl
@[simp] theorem State.setGroup_rdLen (s : State) (r : GroupReg) (x : Group) : (s.setGroup r x).rdLen = s.rdLen := rfl
@[simp] theorem State.setGroup_rdOff (s : State) (r : GroupReg) (x : Group) : (s.setGroup r x).rdOff = s.rdOff := rfl
@[simp] theorem State.setGroup_rdPad (s : State) (r : GroupReg) (x : Group) : (s.setGroup r x).rdPad = s.rdPad := rfl
@[simp] theorem State.setGroup_rdEnd (s : State) (r : GroupReg) (x : Group) : (s.setGroup r x).rdEnd = s.rdEnd := rfl
@[simp] theorem State.setGroup_rdCur (s : State) (r : GroupReg) (x : Group) : (s.setGroup r x).rdCur = s.rdCur := rfl
@[simp] theorem State.setGroup_crc8Poly (s : State) (r : GroupReg) (x : Group) : (s.setGroup r x).crc8Poly = s.crc8Poly := rfl
@[simp] theorem State.setGroup_crc16Poly (s : State) (r : GroupReg) (x : Group) : (s.setGroup r x).crc16Poly = s.crc16Poly := rfl
@[simp] theorem State.setGroup_olen (s : State) (r : GroupReg) (x : Group) : (s.setGroup r x).olen = s.olen := rfl
@[simp] theorem State.setGroup_ibuf (s : State) (r : GroupReg) (x : Group) : (s.setGroup r x).ibuf = s.ibuf := rfl
@[simp] theorem State.setGroup_obuf (s : State) (r : GroupReg) (x : Group) : (s.setGroup r x).obuf = s.obuf := rfl
@[simp] theorem State.setGroup_params (s : State) (r : GroupReg) (x : Group) : (s.setGroup r x).params = s.params := rfl
@[simp] theorem State.setGroup_draws (s : State) (r : GroupReg) (x : Group) : (s.setGroup r x).draws = s.draws := rfl
@[simp] theorem State.setGroup_pending (s : State) (r : GroupReg) (x : Group) : (s.setGroup r x).pending = s.pending := rfl
@[simp] theorem State.setGroup_outputs (s : State) (r : GroupReg) (x : Group) : (s.setGroup r x).outputs = s.outputs := rfl

/-! ### setGroupValue -/

@[simp] theorem State.setGroupValue_groups (s : State) (r : GroupReg) (v : Word) : (s.setGroupValue r v).groups = s.groups.set r (Group.mk v (s.group r).wcode (s.group r).endian) := rfl
@[simp] theorem State.setGroupValue_arg0 (s : State) (r : GroupReg) (v : Word) : (s.setGroupValue r v).arg0 = s.arg0 := rfl
@[simp] theorem State.setGroupValue_arg1 (s : State) (r : GroupReg) (v : Word) : (s.setGroupValue r v).arg1 = s.arg1 := rfl
@[simp] theorem State.setGroupValue_res (s : State) (r : GroupReg) (v : Word) : (s.setGroupValue r v).res = s.res := rfl
@[simp] theorem State.setGroupValue_code (s : State) (r : GroupReg) (v : Word) : (s.setGroupValue r v).code = s.code := rfl
@[simp] theorem State.setGroupValue_errSeen (s : State) (r : GroupReg) (v : Word) : (s.setGroupValue r v).errSeen = s.errSeen := rfl
@[simp] theorem State.setGroupValue_errA (s : State) (r : GroupReg) (v : Word) : (s.setGroupValue r v).errA = s.errA := rfl
@[simp] theorem State.setGroupValue_errB (s : State) (r : GroupReg) (v : Word) : (s.setGroupValue r v).errB = s.errB := rfl
@[simp] theorem State.setGroupValue_errC (s : State) (r : GroupReg) (v : Word) : (s.setGroupValue r v).errC = s.errC := rfl
@[simp] theorem State.setGroupValue_rdLen (s : State) (r : GroupReg) (v : Word) : (s.setGroupValue r v).rdLen = s.rdLen := rfl
@[simp] theorem State.setGroupValue_rdOff (s : State) (r : GroupReg) (v : Word) : (s.setGroupValue r v).rdOff = s.rdOff := rfl
@[simp] theorem State.setGroupValue_rdPad (s : State) (r : GroupReg) (v : Word) : (s.setGroupValue r v).rdPad = s.rdPad := rfl
@[simp] theorem State.setGroupValue_rdEnd (s : State) (r : GroupReg) (v : Word) : (s.setGroupValue r v).rdEnd = s.rdEnd := rfl
@[simp] theorem State.setGroupValue_rdCur (s : State) (r : GroupReg) (v : Word) : (s.setGroupValue r v).rdCur = s.rdCur := rfl
@[simp] theorem State.setGroupValue_crc8Poly (s : State) (r : GroupReg) (v : Word) : (s.setGroupValue r v).crc8Poly = s.crc8Poly := rfl
@[simp] theorem State.setGroupValue_crc16Poly (s : State) (r : GroupReg) (v : Word) : (s.setGroupValue r v).crc16Poly = s.crc16Poly := rfl
@[simp] theorem State.setGroupValue_olen (s : State) (r : GroupReg) (v : Word) : (s.setGroupValue r v).olen = s.olen := rfl
@[simp] theorem State.setGroupValue_ibuf (s : State) (r : GroupReg) (v : Word) : (s.setGroupValue r v).ibuf = s.ibuf := rfl
@[simp] theorem State.setGroupValue_obuf (s : State) (r : GroupReg) (v : Word) : (s.setGroupValue r v).obuf = s.obuf := rfl
@[simp] theorem State.setGroupValue_params (s : State) (r : GroupReg) (v : Word) : (s.setGroupValue r v).params = s.params := rfl
@[simp] theorem State.setGroupValue_draws (s : State) (r : GroupReg) (v : Word) : (s.setGroupValue r v).draws = s.draws := rfl
@[simp] theorem State.setGroupValue_pending (s : State) (r : GroupReg) (v : Word) : (s.setGroupValue r v).pending = s.pending := rfl
@[simp] theorem State.setGroupValue_outputs (s : State) (r : GroupReg) (v : Word) : (s.setGroupValue r v).outputs = s.outputs := rfl

/-! ### setRes -/

@[simp] theorem State.setRes_groups (s : State) (v : Word) : (s.setRes v).groups = s.groups := rfl
@[simp] theorem State.setRes_arg0 (s : State) (v : Word) : (s.setRes v).arg0 = s.arg0 := rfl
@[simp] theorem State.setRes_arg1 (s : State) (v : Word) : (s.setRes v).arg1 = s.arg1 := rfl
@[simp] theorem State.setRes_res (s : State) (v : Word) : (s.setRes v).res = v := rfl
@[simp] theorem State.setRes_code (s : State) (v : Word) : (s.setRes v).code = s.code := rfl
@[simp] theorem State.setRes_errSeen (s : State) (v : Word) : (s.setRes v).errSeen = s.errSeen := rfl
@[simp] theorem State.setRes_errA (s : State) (v : Word) : (s.setRes v).errA = s.errA := rfl
@[simp] theorem State.setRes_errB (s : State) (v : Word) : (s.setRes v).errB = s.errB := rfl
@[simp] theorem State.setRes_errC (s : State) (v : Word) : (s.setRes v).errC = s.errC := rfl
@[simp] theorem State.setRes_rdLen (s : State) (v : Word) : (s.setRes v).rdLen = s.rdLen := rfl
@[simp] theorem State.setRes_rdOff (s : State) (v : Word) : (s.setRes v).rdOff = s.rdOff := rfl
@[simp] theorem State.setRes_rdPad (s : State) (v : Word) : (s.setRes v).rdPad = s.rdPad := rfl
@[simp] theorem State.setRes_rdEnd (s : State) (v : Word) : (s.setRes v).rdEnd = s.rdEnd := rfl
@[simp] theorem State.setRes_rdCur (s : State) (v : Word) : (s.setRes v).rdCur = s.rdCur := rfl
@[simp] theorem State.setRes_crc8Poly (s : State) (v : Word) : (s.setRes v).crc8Poly = s.crc8Poly := rfl
@[simp] theorem State.setRes_crc16Poly (s : State) (v : Word) : (s.setRes v).crc16Poly = s.crc16Poly := rfl
@[simp] theorem State.setRes_olen (s : State) (v : Word) : (s.setRes v).olen = s.olen := rfl
@[simp] theorem State.setRes_ibuf (s : State) (v : Word) : (s.setRes v).ibuf = s.ibuf := rfl
@[simp] theorem State.setRes_obuf (s : State) (v : Word) : (s.setRes v).obuf = s.obuf := rfl
@[simp] theorem State.setRes_params (s : State) (v : Word) : (s.setRes v).params = s.params := rfl
@[simp] theorem State.setRes_draws (s : State) (v : Word) : (s.setRes v).draws = s.draws := rfl
@[simp] theorem State.setRes_pending (s : State) (v : Word) : (s.setRes v).pending = s.pending := rfl
@[simp] theorem State.setRes_outputs (s : State) (v : Word) : (s.setRes v).outputs = s.outputs := rfl

/-! ### setArg0 -/

@[simp] theorem State.setArg0_groups (s : State) (v : Word) : (s.setArg0 v).groups = s.groups := rfl
@[simp] theorem State.setArg0_arg0 (s : State) (v : Word) : (s.setArg0 v).arg0 = v := rfl
@[simp] theorem State.setArg0_arg1 (s : State) (v : Word) : (s.setArg0 v).arg1 = s.arg1 := rfl
@[simp] theorem State.setArg0_res (s : State) (v : Word) : (s.setArg0 v).res = s.res := rfl
@[simp] theorem State.setArg0_code (s : State) (v : Word) : (s.setArg0 v).code = s.code := rfl
@[simp] theorem State.setArg0_errSeen (s : State) (v : Word) : (s.setArg0 v).errSeen = s.errSeen := rfl
@[simp] theorem State.setArg0_errA (s : State) (v : Word) : (s.setArg0 v).errA = s.errA := rfl
@[simp] theorem State.setArg0_errB (s : State) (v : Word) : (s.setArg0 v).errB = s.errB := rfl
@[simp] theorem State.setArg0_errC (s : State) (v : Word) : (s.setArg0 v).errC = s.errC := rfl
@[simp] theorem State.setArg0_rdLen (s : State) (v : Word) : (s.setArg0 v).rdLen = s.rdLen := rfl
@[simp] theorem State.setArg0_rdOff (s : State) (v : Word) : (s.setArg0 v).rdOff = s.rdOff := rfl
@[simp] theorem State.setArg0_rdPad (s : State) (v : Word) : (s.setArg0 v).rdPad = s.rdPad := rfl
@[simp] theorem State.setArg0_rdEnd (s : State) (v : Word) : (s.setArg0 v).rdEnd = s.rdEnd := rfl
@[simp] theorem State.setArg0_rdCur (s : State) (v : Word) : (s.setArg0 v).rdCur = s.rdCur := rfl
@[simp] theorem State.setArg0_crc8Poly (s : State) (v : Word) : (s.setArg0 v).crc8Poly = s.crc8Poly := rfl
@[simp] theorem State.setArg0_crc16Poly (s : State) (v : Word) : (s.setArg0 v).crc16Poly = s.crc16Poly := rfl
@[simp] theorem State.setArg0_olen (s : State) (v : Word) : (s.setArg0 v).olen = s.olen := rfl
@[simp] theorem State.setArg0_ibuf (s : State) (v : Word) : (s.setArg0 v).ibuf = s.ibuf := rfl
@[simp] theorem State.setArg0_obuf (s : State) (v : Word) : (s.setArg0 v).obuf = s.obuf := rfl
@[simp] theorem State.setArg0_params (s : State) (v : Word) : (s.setArg0 v).params = s.params := rfl
@[simp] theorem State.setArg0_draws (s : State) (v : Word) : (s.setArg0 v).draws = s.draws := rfl
@[simp] theorem State.setArg0_pending (s : State) (v : Word) : (s.setArg0 v).pending = s.pending := rfl
@[simp] theorem State.setArg0_outputs (s : State) (v : Word) : (s.setArg0 v).outputs = s.outputs := rfl

/-! ### setArg1 -/

@[simp] theorem State.setArg1_groups (s : State) (v : Word) : (s.setArg1 v).groups = s.groups := rfl
@[simp] theorem State.setArg1_arg0 (s : State) (v : Word) : (s.setArg1 v).arg0 = s.arg0 := rfl
@[simp] theorem State.setArg1_arg1 (s : State) (v : Word) : (s.setArg1 v).arg1 = v := rfl
@[simp] theorem State.setArg1_res (s : State) (v : Word) : (s.setArg1 v).res = s.res := rfl
@[simp] theorem State.setArg1_code (s : State) (v : Word) : (s.setArg1 v).code = s.code := rfl
@[simp] theorem State.setArg1_errSeen (s : State) (v : Word) : (s.setArg1 v).errSeen = s.errSeen := rfl
@[simp] theorem State.setArg1_errA (s : State) (v : Word) : (s.setArg1 v).errA = s.errA := rfl
@[simp] theorem State.setArg1_errB (s : State) (v : Word) : (s.setArg1 v).errB = s.errB := rfl
@[simp] theorem State.setArg1_errC (s : State) (v : Word) : (s.setArg1 v).errC = s.errC := rfl
@[simp] theorem State.setArg1_rdLen (s : State) (v : Word) : (s.setArg1 v).rdLen = s.rdLen := rfl
@[simp] theorem State.setArg1_rdOff (s : State) (v : Word) : (s.setArg1 v).rdOff = s.rdOff := rfl
@[simp] theorem State.setArg1_rdPad (s : State) (v : Word) : (s.setArg1 v).rdPad = s.rdPad := rfl
@[simp] theorem State.setArg1_rdEnd (s : State) (v : Word) : (s.setArg1 v).rdEnd = s.rdEnd := rfl
@[simp] theorem State.setArg1_rdCur (s : State) (v : Word) : (s.setArg1 v).rdCur = s.rdCur := rfl
@[simp] theorem State.setArg1_crc8Poly (s : State) (v : Word) : (s.setArg1 v).crc8Poly = s.crc8Poly := rfl
@[simp] theorem State.setArg1_crc16Poly (s : State) (v : Word) : (s.setArg1 v).crc16Poly = s.crc16Poly := rfl
@[simp] theorem State.setArg1_olen (s : State) (v : Word) : (s.setArg1 v).olen = s.olen := rfl
@[simp] theorem State.setArg1_ibuf (s : State) (v : Word) : (s.setArg1 v).ibuf = s.ibuf := rfl
@[simp] theorem State.setArg1_obuf (s : State) (v : Word) : (s.setArg1 v).obuf = s.obuf := rfl
@[simp] theorem State.setArg1_params (s : State) (v : Word) : (s.setArg1 v).params = s.params := rfl
@[simp] theorem State.setArg1_draws (s : State) (v : Word) : (s.setArg1 v).draws = s.draws := rfl
@[simp] theorem State.setArg1_pending (s : State) (v : Word) : (s.setArg1 v).pending = s.pending := rfl
@[simp] theorem State.setArg1_outputs (s : State) (v : Word) : (s.setArg1 v).outputs = s.outputs := rfl

/-! ### setCursor -/

@[simp] theorem State.setCursor_groups (s : State) (v : Word) : (s.setCursor v).groups = s.groups := rfl
@[simp] theorem State.setCursor_arg0 (s : State) (v : Word) : (s.setCursor v).arg0 = s.arg0 := rfl
@[simp] theorem State.setCursor_arg1 (s : State) (v : Word) : (s.setCursor v).arg1 = s.arg1 := rfl
@[simp] theorem State.setCursor_res (s : State) (v : Word) : (s.setCursor v).res = s.res := rfl
@[simp] theorem State.setCursor_code (s : State) (v : Word) : (s.setCursor v).code = s.code := rfl
@[simp] theorem State.setCursor_errSeen (s : State) (v : Word) : (s.setCursor v).errSeen = s.errSeen := rfl
@[simp] theorem State.setCursor_errA (s : State) (v : Word) : (s.setCursor v).errA = s.errA := rfl
@[simp] theorem State.setCursor_errB (s : State) (v : Word) : (s.setCursor v).errB = s.errB := rfl
@[simp] theorem State.setCursor_errC (s : State) (v : Word) : (s.setCursor v).errC = s.errC := rfl
@[simp] theorem State.setCursor_rdLen (s : State) (v : Word) : (s.setCursor v).rdLen = s.rdLen := rfl
@[simp] theorem State.setCursor_rdOff (s : State) (v : Word) : (s.setCursor v).rdOff = s.rdOff := rfl
@[simp] theorem State.setCursor_rdPad (s : State) (v : Word) : (s.setCursor v).rdPad = s.rdPad := rfl
@[simp] theorem State.setCursor_rdEnd (s : State) (v : Word) : (s.setCursor v).rdEnd = s.rdEnd := rfl
@[simp] theorem State.setCursor_rdCur (s : State) (v : Word) : (s.setCursor v).rdCur = v := rfl
@[simp] theorem State.setCursor_crc8Poly (s : State) (v : Word) : (s.setCursor v).crc8Poly = s.crc8Poly := rfl
@[simp] theorem State.setCursor_crc16Poly (s : State) (v : Word) : (s.setCursor v).crc16Poly = s.crc16Poly := rfl
@[simp] theorem State.setCursor_olen (s : State) (v : Word) : (s.setCursor v).olen = s.olen := rfl
@[simp] theorem State.setCursor_ibuf (s : State) (v : Word) : (s.setCursor v).ibuf = s.ibuf := rfl
@[simp] theorem State.setCursor_obuf (s : State) (v : Word) : (s.setCursor v).obuf = s.obuf := rfl
@[simp] theorem State.setCursor_params (s : State) (v : Word) : (s.setCursor v).params = s.params := rfl
@[simp] theorem State.setCursor_draws (s : State) (v : Word) : (s.setCursor v).draws = s.draws := rfl
@[simp] theorem State.setCursor_pending (s : State) (v : Word) : (s.setCursor v).pending = s.pending := rfl
@[simp] theorem State.setCursor_outputs (s : State) (v : Word) : (s.setCursor v).outputs = s.outputs := rfl

/-! ### setReader -/

@[simp] theorem State.setReader_groups (s : State) (len off pad : BitVec 32) (e : Endian) : (s.setReader len off pad e).groups = s.groups := rfl
@[simp] theorem State.setReader_arg0 (s : State) (len off pad : BitVec 32) (e : Endian) : (s.setReader len off pad e).arg0 = s.arg0 := rfl
@[simp] theorem State.setReader_arg1 (s : State) (len off pad : BitVec 32) (e : Endian) : (s.setReader len off pad e).arg1 = s.arg1 := rfl
@[simp] theorem State.setReader_res (s : State) (len off pad : BitVec 32) (e : Endian) : (s.setReader len off pad e).res = s.res := rfl
@[simp] theorem State.setReader_code (s : State) (len off pad : BitVec 32) (e : Endian) : (s.setReader len off pad e).code = s.code := rfl
@[simp] theorem State.setReader_errSeen (s : State) (len off pad : BitVec 32) (e : Endian) : (s.setReader len off pad e).errSeen = s.errSeen := rfl
@[simp] theorem State.setReader_errA (s : State) (len off pad : BitVec 32) (e : Endian) : (s.setReader len off pad e).errA = s.errA := rfl
@[simp] theorem State.setReader_errB (s : State) (len off pad : BitVec 32) (e : Endian) : (s.setReader len off pad e).errB = s.errB := rfl
@[simp] theorem State.setReader_errC (s : State) (len off pad : BitVec 32) (e : Endian) : (s.setReader len off pad e).errC = s.errC := rfl
@[simp] theorem State.setReader_rdLen (s : State) (len off pad : BitVec 32) (e : Endian) : (s.setReader len off pad e).rdLen = len := rfl
@[simp] theorem State.setReader_rdOff (s : State) (len off pad : BitVec 32) (e : Endian) : (s.setReader len off pad e).rdOff = off := rfl
@[simp] theorem State.setReader_rdPad (s : State) (len off pad : BitVec 32) (e : Endian) : (s.setReader len off pad e).rdPad = pad := rfl
@[simp] theorem State.setReader_rdEnd (s : State) (len off pad : BitVec 32) (e : Endian) : (s.setReader len off pad e).rdEnd = e := rfl
@[simp] theorem State.setReader_rdCur (s : State) (len off pad : BitVec 32) (e : Endian) : (s.setReader len off pad e).rdCur = 0#64 := rfl
@[simp] theorem State.setReader_crc8Poly (s : State) (len off pad : BitVec 32) (e : Endian) : (s.setReader len off pad e).crc8Poly = s.crc8Poly := rfl
@[simp] theorem State.setReader_crc16Poly (s : State) (len off pad : BitVec 32) (e : Endian) : (s.setReader len off pad e).crc16Poly = s.crc16Poly := rfl
@[simp] theorem State.setReader_olen (s : State) (len off pad : BitVec 32) (e : Endian) : (s.setReader len off pad e).olen = s.olen := rfl
@[simp] theorem State.setReader_ibuf (s : State) (len off pad : BitVec 32) (e : Endian) : (s.setReader len off pad e).ibuf = s.ibuf := rfl
@[simp] theorem State.setReader_obuf (s : State) (len off pad : BitVec 32) (e : Endian) : (s.setReader len off pad e).obuf = s.obuf := rfl
@[simp] theorem State.setReader_params (s : State) (len off pad : BitVec 32) (e : Endian) : (s.setReader len off pad e).params = s.params := rfl
@[simp] theorem State.setReader_draws (s : State) (len off pad : BitVec 32) (e : Endian) : (s.setReader len off pad e).draws = s.draws := rfl
@[simp] theorem State.setReader_pending (s : State) (len off pad : BitVec 32) (e : Endian) : (s.setReader len off pad e).pending = s.pending := rfl
@[simp] theorem State.setReader_outputs (s : State) (len off pad : BitVec 32) (e : Endian) : (s.setReader len off pad e).outputs = s.outputs := rfl

/-! ### setCrc8Poly -/

@[simp] theorem State.setCrc8Poly_groups (s : State) (p : BitVec 8) : (s.setCrc8Poly p).groups = s.groups := rfl
@[simp] theorem State.setCrc8Poly_arg0 (s : State) (p : BitVec 8) : (s.setCrc8Poly p).arg0 = s.arg0 := rfl
@[simp] theorem State.setCrc8Poly_arg1 (s : State) (p : BitVec 8) : (s.setCrc8Poly p).arg1 = s.arg1 := rfl
@[simp] theorem State.setCrc8Poly_res (s : State) (p : BitVec 8) : (s.setCrc8Poly p).res = s.res := rfl
@[simp] theorem State.setCrc8Poly_code (s : State) (p : BitVec 8) : (s.setCrc8Poly p).code = s.code := rfl
@[simp] theorem State.setCrc8Poly_errSeen (s : State) (p : BitVec 8) : (s.setCrc8Poly p).errSeen = s.errSeen := rfl
@[simp] theorem State.setCrc8Poly_errA (s : State) (p : BitVec 8) : (s.setCrc8Poly p).errA = s.errA := rfl
@[simp] theorem State.setCrc8Poly_errB (s : State) (p : BitVec 8) : (s.setCrc8Poly p).errB = s.errB := rfl
@[simp] theorem State.setCrc8Poly_errC (s : State) (p : BitVec 8) : (s.setCrc8Poly p).errC = s.errC := rfl
@[simp] theorem State.setCrc8Poly_rdLen (s : State) (p : BitVec 8) : (s.setCrc8Poly p).rdLen = s.rdLen := rfl
@[simp] theorem State.setCrc8Poly_rdOff (s : State) (p : BitVec 8) : (s.setCrc8Poly p).rdOff = s.rdOff := rfl
@[simp] theorem State.setCrc8Poly_rdPad (s : State) (p : BitVec 8) : (s.setCrc8Poly p).rdPad = s.rdPad := rfl
@[simp] theorem State.setCrc8Poly_rdEnd (s : State) (p : BitVec 8) : (s.setCrc8Poly p).rdEnd = s.rdEnd := rfl
@[simp] theorem State.setCrc8Poly_rdCur (s : State) (p : BitVec 8) : (s.setCrc8Poly p).rdCur = s.rdCur := rfl
@[simp] theorem State.setCrc8Poly_crc8Poly (s : State) (p : BitVec 8) : (s.setCrc8Poly p).crc8Poly = p := rfl
@[simp] theorem State.setCrc8Poly_crc16Poly (s : State) (p : BitVec 8) : (s.setCrc8Poly p).crc16Poly = s.crc16Poly := rfl
@[simp] theorem State.setCrc8Poly_olen (s : State) (p : BitVec 8) : (s.setCrc8Poly p).olen = s.olen := rfl
@[simp] theorem State.setCrc8Poly_ibuf (s : State) (p : BitVec 8) : (s.setCrc8Poly p).ibuf = s.ibuf := rfl
@[simp] theorem State.setCrc8Poly_obuf (s : State) (p : BitVec 8) : (s.setCrc8Poly p).obuf = s.obuf := rfl
@[simp] theorem State.setCrc8Poly_params (s : State) (p : BitVec 8) : (s.setCrc8Poly p).params = s.params := rfl
@[simp] theorem State.setCrc8Poly_draws (s : State) (p : BitVec 8) : (s.setCrc8Poly p).draws = s.draws := rfl
@[simp] theorem State.setCrc8Poly_pending (s : State) (p : BitVec 8) : (s.setCrc8Poly p).pending = s.pending := rfl
@[simp] theorem State.setCrc8Poly_outputs (s : State) (p : BitVec 8) : (s.setCrc8Poly p).outputs = s.outputs := rfl

/-! ### setCrc16Poly -/

@[simp] theorem State.setCrc16Poly_groups (s : State) (p : BitVec 16) : (s.setCrc16Poly p).groups = s.groups := rfl
@[simp] theorem State.setCrc16Poly_arg0 (s : State) (p : BitVec 16) : (s.setCrc16Poly p).arg0 = s.arg0 := rfl
@[simp] theorem State.setCrc16Poly_arg1 (s : State) (p : BitVec 16) : (s.setCrc16Poly p).arg1 = s.arg1 := rfl
@[simp] theorem State.setCrc16Poly_res (s : State) (p : BitVec 16) : (s.setCrc16Poly p).res = s.res := rfl
@[simp] theorem State.setCrc16Poly_code (s : State) (p : BitVec 16) : (s.setCrc16Poly p).code = s.code := rfl
@[simp] theorem State.setCrc16Poly_errSeen (s : State) (p : BitVec 16) : (s.setCrc16Poly p).errSeen = s.errSeen := rfl
@[simp] theorem State.setCrc16Poly_errA (s : State) (p : BitVec 16) : (s.setCrc16Poly p).errA = s.errA := rfl
@[simp] theorem State.setCrc16Poly_errB (s : State) (p : BitVec 16) : (s.setCrc16Poly p).errB = s.errB := rfl
@[simp] theorem State.setCrc16Poly_errC (s : State) (p : BitVec 16) : (s.setCrc16Poly p).errC = s.errC := rfl
@[simp] theorem State.setCrc16Poly_rdLen (s : State) (p : BitVec 16) : (s.setCrc16Poly p).rdLen = s.rdLen := rfl
@[simp] theorem State.setCrc16Poly_rdOff (s : State) (p : BitVec 16) : (s.setCrc16Poly p).rdOff = s.rdOff := rfl
@[simp] theorem State.setCrc16Poly_rdPad (s : State) (p : BitVec 16) : (s.setCrc16Poly p).rdPad = s.rdPad := rfl
@[simp] theorem State.setCrc16Poly_rdEnd (s : State) (p : BitVec 16) : (s.setCrc16Poly p).rdEnd = s.rdEnd := rfl
@[simp] theorem State.setCrc16Poly_rdCur (s : State) (p : BitVec 16) : (s.setCrc16Poly p).rdCur = s.rdCur := rfl
@[simp] theorem State.setCrc16Poly_crc8Poly (s : State) (p : BitVec 16) : (s.setCrc16Poly p).crc8Poly = s.crc8Poly := rfl
@[simp] theorem State.setCrc16Poly_crc16Poly (s : State) (p : BitVec 16) : (s.setCrc16Poly p).crc16Poly = p := rfl
@[simp] theorem State.setCrc16Poly_olen (s : State) (p : BitVec 16) : (s.setCrc16Poly p).olen = s.olen := rfl
@[simp] theorem State.setCrc16Poly_ibuf (s : State) (p : BitVec 16) : (s.setCrc16Poly p).ibuf = s.ibuf := rfl
@[simp] theorem State.setCrc16Poly_obuf (s : State) (p : BitVec 16) : (s.setCrc16Poly p).obuf = s.obuf := rfl
@[simp] theorem State.setCrc16Poly_params (s : State) (p : BitVec 16) : (s.setCrc16Poly p).params = s.params := rfl
@[simp] theorem State.setCrc16Poly_draws (s : State) (p : BitVec 16) : (s.setCrc16Poly p).draws = s.draws := rfl
@[simp] theorem State.setCrc16Poly_pending (s : State) (p : BitVec 16) : (s.setCrc16Poly p).pending = s.pending := rfl
@[simp] theorem State.setCrc16Poly_outputs (s : State) (p : BitVec 16) : (s.setCrc16Poly p).outputs = s.outputs := rfl

/-! ### setOlen -/

@[simp] theorem State.setOlen_groups (s : State) (n : Nat) : (s.setOlen n).groups = s.groups := rfl
@[simp] theorem State.setOlen_arg0 (s : State) (n : Nat) : (s.setOlen n).arg0 = s.arg0 := rfl
@[simp] theorem State.setOlen_arg1 (s : State) (n : Nat) : (s.setOlen n).arg1 = s.arg1 := rfl
@[simp] theorem State.setOlen_res (s : State) (n : Nat) : (s.setOlen n).res = s.res := rfl
@[simp] theorem State.setOlen_code (s : State) (n : Nat) : (s.setOlen n).code = s.code := rfl
@[simp] theorem State.setOlen_errSeen (s : State) (n : Nat) : (s.setOlen n).errSeen = s.errSeen := rfl
@[simp] theorem State.setOlen_errA (s : State) (n : Nat) : (s.setOlen n).errA = s.errA := rfl
@[simp] theorem State.setOlen_errB (s : State) (n : Nat) : (s.setOlen n).errB = s.errB := rfl
@[simp] theorem State.setOlen_errC (s : State) (n : Nat) : (s.setOlen n).errC = s.errC := rfl
@[simp] theorem State.setOlen_rdLen (s : State) (n : Nat) : (s.setOlen n).rdLen = s.rdLen := rfl
@[simp] theorem State.setOlen_rdOff (s : State) (n : Nat) : (s.setOlen n).rdOff = s.rdOff := rfl
@[simp] theorem State.setOlen_rdPad (s : State) (n : Nat) : (s.setOlen n).rdPad = s.rdPad := rfl
@[simp] theorem State.setOlen_rdEnd (s : State) (n : Nat) : (s.setOlen n).rdEnd = s.rdEnd := rfl
@[simp] theorem State.setOlen_rdCur (s : State) (n : Nat) : (s.setOlen n).rdCur = s.rdCur := rfl
@[simp] theorem State.setOlen_crc8Poly (s : State) (n : Nat) : (s.setOlen n).crc8Poly = s.crc8Poly := rfl
@[simp] theorem State.setOlen_crc16Poly (s : State) (n : Nat) : (s.setOlen n).crc16Poly = s.crc16Poly := rfl
@[simp] theorem State.setOlen_olen (s : State) (n : Nat) : (s.setOlen n).olen = BitVec.ofNat 9 n := rfl
@[simp] theorem State.setOlen_ibuf (s : State) (n : Nat) : (s.setOlen n).ibuf = s.ibuf := rfl
@[simp] theorem State.setOlen_obuf (s : State) (n : Nat) : (s.setOlen n).obuf = s.obuf := rfl
@[simp] theorem State.setOlen_params (s : State) (n : Nat) : (s.setOlen n).params = s.params := rfl
@[simp] theorem State.setOlen_draws (s : State) (n : Nat) : (s.setOlen n).draws = s.draws := rfl
@[simp] theorem State.setOlen_pending (s : State) (n : Nat) : (s.setOlen n).pending = s.pending := rfl
@[simp] theorem State.setOlen_outputs (s : State) (n : Nat) : (s.setOlen n).outputs = s.outputs := rfl

/-! ### pushOutput -/

@[simp] theorem State.pushOutput_groups (s : State) (v : Word) : (s.pushOutput v).groups = s.groups := rfl
@[simp] theorem State.pushOutput_arg0 (s : State) (v : Word) : (s.pushOutput v).arg0 = s.arg0 := rfl
@[simp] theorem State.pushOutput_arg1 (s : State) (v : Word) : (s.pushOutput v).arg1 = s.arg1 := rfl
@[simp] theorem State.pushOutput_res (s : State) (v : Word) : (s.pushOutput v).res = s.res := rfl
@[simp] theorem State.pushOutput_code (s : State) (v : Word) : (s.pushOutput v).code = s.code := rfl
@[simp] theorem State.pushOutput_errSeen (s : State) (v : Word) : (s.pushOutput v).errSeen = s.errSeen := rfl
@[simp] theorem State.pushOutput_errA (s : State) (v : Word) : (s.pushOutput v).errA = s.errA := rfl
@[simp] theorem State.pushOutput_errB (s : State) (v : Word) : (s.pushOutput v).errB = s.errB := rfl
@[simp] theorem State.pushOutput_errC (s : State) (v : Word) : (s.pushOutput v).errC = s.errC := rfl
@[simp] theorem State.pushOutput_rdLen (s : State) (v : Word) : (s.pushOutput v).rdLen = s.rdLen := rfl
@[simp] theorem State.pushOutput_rdOff (s : State) (v : Word) : (s.pushOutput v).rdOff = s.rdOff := rfl
@[simp] theorem State.pushOutput_rdPad (s : State) (v : Word) : (s.pushOutput v).rdPad = s.rdPad := rfl
@[simp] theorem State.pushOutput_rdEnd (s : State) (v : Word) : (s.pushOutput v).rdEnd = s.rdEnd := rfl
@[simp] theorem State.pushOutput_rdCur (s : State) (v : Word) : (s.pushOutput v).rdCur = s.rdCur := rfl
@[simp] theorem State.pushOutput_crc8Poly (s : State) (v : Word) : (s.pushOutput v).crc8Poly = s.crc8Poly := rfl
@[simp] theorem State.pushOutput_crc16Poly (s : State) (v : Word) : (s.pushOutput v).crc16Poly = s.crc16Poly := rfl
@[simp] theorem State.pushOutput_olen (s : State) (v : Word) : (s.pushOutput v).olen = s.olen := rfl
@[simp] theorem State.pushOutput_ibuf (s : State) (v : Word) : (s.pushOutput v).ibuf = s.ibuf := rfl
@[simp] theorem State.pushOutput_obuf (s : State) (v : Word) : (s.pushOutput v).obuf = s.obuf := rfl
@[simp] theorem State.pushOutput_params (s : State) (v : Word) : (s.pushOutput v).params = s.params := rfl
@[simp] theorem State.pushOutput_draws (s : State) (v : Word) : (s.pushOutput v).draws = s.draws := rfl
@[simp] theorem State.pushOutput_pending (s : State) (v : Word) : (s.pushOutput v).pending = s.pending := rfl
@[simp] theorem State.pushOutput_outputs (s : State) (v : Word) : (s.pushOutput v).outputs = s.outputs ++ [v] := rfl

/-! ### obufWrite -/

@[simp] theorem State.obufWrite_groups (s : State) (a : Nat) (b : Byte) : (s.obufWrite a b).groups = s.groups := rfl
@[simp] theorem State.obufWrite_arg0 (s : State) (a : Nat) (b : Byte) : (s.obufWrite a b).arg0 = s.arg0 := rfl
@[simp] theorem State.obufWrite_arg1 (s : State) (a : Nat) (b : Byte) : (s.obufWrite a b).arg1 = s.arg1 := rfl
@[simp] theorem State.obufWrite_res (s : State) (a : Nat) (b : Byte) : (s.obufWrite a b).res = s.res := rfl
@[simp] theorem State.obufWrite_code (s : State) (a : Nat) (b : Byte) : (s.obufWrite a b).code = s.code := rfl
@[simp] theorem State.obufWrite_errSeen (s : State) (a : Nat) (b : Byte) : (s.obufWrite a b).errSeen = s.errSeen := rfl
@[simp] theorem State.obufWrite_errA (s : State) (a : Nat) (b : Byte) : (s.obufWrite a b).errA = s.errA := rfl
@[simp] theorem State.obufWrite_errB (s : State) (a : Nat) (b : Byte) : (s.obufWrite a b).errB = s.errB := rfl
@[simp] theorem State.obufWrite_errC (s : State) (a : Nat) (b : Byte) : (s.obufWrite a b).errC = s.errC := rfl
@[simp] theorem State.obufWrite_rdLen (s : State) (a : Nat) (b : Byte) : (s.obufWrite a b).rdLen = s.rdLen := rfl
@[simp] theorem State.obufWrite_rdOff (s : State) (a : Nat) (b : Byte) : (s.obufWrite a b).rdOff = s.rdOff := rfl
@[simp] theorem State.obufWrite_rdPad (s : State) (a : Nat) (b : Byte) : (s.obufWrite a b).rdPad = s.rdPad := rfl
@[simp] theorem State.obufWrite_rdEnd (s : State) (a : Nat) (b : Byte) : (s.obufWrite a b).rdEnd = s.rdEnd := rfl
@[simp] theorem State.obufWrite_rdCur (s : State) (a : Nat) (b : Byte) : (s.obufWrite a b).rdCur = s.rdCur := rfl
@[simp] theorem State.obufWrite_crc8Poly (s : State) (a : Nat) (b : Byte) : (s.obufWrite a b).crc8Poly = s.crc8Poly := rfl
@[simp] theorem State.obufWrite_crc16Poly (s : State) (a : Nat) (b : Byte) : (s.obufWrite a b).crc16Poly = s.crc16Poly := rfl
@[simp] theorem State.obufWrite_olen (s : State) (a : Nat) (b : Byte) : (s.obufWrite a b).olen = s.olen := rfl
@[simp] theorem State.obufWrite_ibuf (s : State) (a : Nat) (b : Byte) : (s.obufWrite a b).ibuf = s.ibuf := rfl
@[simp] theorem State.obufWrite_obuf (s : State) (a : Nat) (b : Byte) : (s.obufWrite a b).obuf = Memory.write s.obuf a b := rfl
@[simp] theorem State.obufWrite_params (s : State) (a : Nat) (b : Byte) : (s.obufWrite a b).params = s.params := rfl
@[simp] theorem State.obufWrite_draws (s : State) (a : Nat) (b : Byte) : (s.obufWrite a b).draws = s.draws := rfl
@[simp] theorem State.obufWrite_pending (s : State) (a : Nat) (b : Byte) : (s.obufWrite a b).pending = s.pending := rfl
@[simp] theorem State.obufWrite_outputs (s : State) (a : Nat) (b : Byte) : (s.obufWrite a b).outputs = s.outputs := rfl

/-! ### succeed -/

@[simp] theorem State.succeed_groups (s : State) : (s.succeed).groups = s.groups := rfl
@[simp] theorem State.succeed_arg0 (s : State) : (s.succeed).arg0 = s.arg0 := rfl
@[simp] theorem State.succeed_arg1 (s : State) : (s.succeed).arg1 = s.arg1 := rfl
@[simp] theorem State.succeed_res (s : State) : (s.succeed).res = s.res := rfl
@[simp] theorem State.succeed_code (s : State) : (s.succeed).code = .success := rfl
@[simp] theorem State.succeed_errSeen (s : State) : (s.succeed).errSeen = s.errSeen := rfl
@[simp] theorem State.succeed_errA (s : State) : (s.succeed).errA = s.errA := rfl
@[simp] theorem State.succeed_errB (s : State) : (s.succeed).errB = s.errB := rfl
@[simp] theorem State.succeed_errC (s : State) : (s.succeed).errC = s.errC := rfl
@[simp] theorem State.succeed_rdLen (s : State) : (s.succeed).rdLen = s.rdLen := rfl
@[simp] theorem State.succeed_rdOff (s : State) : (s.succeed).rdOff = s.rdOff := rfl
@[simp] theorem State.succeed_rdPad (s : State) : (s.succeed).rdPad = s.rdPad := rfl
@[simp] theorem State.succeed_rdEnd (s : State) : (s.succeed).rdEnd = s.rdEnd := rfl
@[simp] theorem State.succeed_rdCur (s : State) : (s.succeed).rdCur = s.rdCur := rfl
@[simp] theorem State.succeed_crc8Poly (s : State) : (s.succeed).crc8Poly = s.crc8Poly := rfl
@[simp] theorem State.succeed_crc16Poly (s : State) : (s.succeed).crc16Poly = s.crc16Poly := rfl
@[simp] theorem State.succeed_olen (s : State) : (s.succeed).olen = s.olen := rfl
@[simp] theorem State.succeed_ibuf (s : State) : (s.succeed).ibuf = s.ibuf := rfl
@[simp] theorem State.succeed_obuf (s : State) : (s.succeed).obuf = s.obuf := rfl
@[simp] theorem State.succeed_params (s : State) : (s.succeed).params = s.params := rfl
@[simp] theorem State.succeed_draws (s : State) : (s.succeed).draws = s.draws := rfl
@[simp] theorem State.succeed_pending (s : State) : (s.succeed).pending = s.pending := rfl
@[simp] theorem State.succeed_outputs (s : State) : (s.succeed).outputs = s.outputs := rfl

/-! ### raise -/

@[simp] theorem State.raise_groups (s : State) (n : Code) (a b c : Int) : (s.raise n a b c).groups = s.groups := rfl
@[simp] theorem State.raise_arg0 (s : State) (n : Code) (a b c : Int) : (s.raise n a b c).arg0 = s.arg0 := rfl
@[simp] theorem State.raise_arg1 (s : State) (n : Code) (a b c : Int) : (s.raise n a b c).arg1 = s.arg1 := rfl
@[simp] theorem State.raise_res (s : State) (n : Code) (a b c : Int) : (s.raise n a b c).res = s.res := rfl
@[simp] theorem State.raise_code (s : State) (n : Code) (a b c : Int) : (s.raise n a b c).code = n := rfl
@[simp] theorem State.raise_errSeen (s : State) (n : Code) (a b c : Int) : (s.raise n a b c).errSeen = true := rfl
@[simp] theorem State.raise_errA (s : State) (n : Code) (a b c : Int) : (s.raise n a b c).errA = BitVec.ofInt 64 a := rfl
@[simp] theorem State.raise_errB (s : State) (n : Code) (a b c : Int) : (s.raise n a b c).errB = BitVec.ofInt 64 b := rfl
@[simp] theorem State.raise_errC (s : State) (n : Code) (a b c : Int) : (s.raise n a b c).errC = BitVec.ofInt 64 c := rfl
@[simp] theorem State.raise_rdLen (s : State) (n : Code) (a b c : Int) : (s.raise n a b c).rdLen = s.rdLen := rfl
@[simp] theorem State.raise_rdOff (s : State) (n : Code) (a b c : Int) : (s.raise n a b c).rdOff = s.rdOff := rfl
@[simp] theorem State.raise_rdPad (s : State) (n : Code) (a b c : Int) : (s.raise n a b c).rdPad = s.rdPad := rfl
@[simp] theorem State.raise_rdEnd (s : State) (n : Code) (a b c : Int) : (s.raise n a b c).rdEnd = s.rdEnd := rfl
@[simp] theorem State.raise_rdCur (s : State) (n : Code) (a b c : Int) : (s.raise n a b c).rdCur = s.rdCur := rfl
@[simp] theorem State.raise_crc8Poly (s : State) (n : Code) (a b c : Int) : (s.raise n a b c).crc8Poly = s.crc8Poly := rfl
@[simp] theorem State.raise_crc16Poly (s : State) (n : Code) (a b c : Int) : (s.raise n a b c).crc16Poly = s.crc16Poly := rfl
@[simp] theorem State.raise_olen (s : State) (n : Code) (a b c : Int) : (s.raise n a b c).olen = s.olen := rfl
@[simp] theorem State.raise_ibuf (s : State) (n : Code) (a b c : Int) : (s.raise n a b c).ibuf = s.ibuf := rfl
@[simp] theorem State.raise_obuf (s : State) (n : Code) (a b c : Int) : (s.raise n a b c).obuf = s.obuf := rfl
@[simp] theorem State.raise_params (s : State) (n : Code) (a b c : Int) : (s.raise n a b c).params = s.params := rfl
@[simp] theorem State.raise_draws (s : State) (n : Code) (a b c : Int) : (s.raise n a b c).draws = s.draws := rfl
@[simp] theorem State.raise_pending (s : State) (n : Code) (a b c : Int) : (s.raise n a b c).pending = s.pending := rfl
@[simp] theorem State.raise_outputs (s : State) (n : Code) (a b c : Int) : (s.raise n a b c).outputs = s.outputs := rfl

/-! ### Reads of the group registers -/

@[simp] theorem Groups.get_set_same (g : Groups) (r : GroupReg) (x : Group) : (g.set r x).get r = x := by
  cases r <;> rfl

theorem Groups.get_set (g : Groups) (r q : GroupReg) (x : Group) :
    (g.set r x).get q = if q = r then x else g.get q := by
  cases r <;> cases q <;> rfl

@[simp] theorem Groups.set_get (g : Groups) (r : GroupReg) : g.set r (g.get r) = g := by
  cases r <;> rfl

@[simp] theorem Groups.set_set (g : Groups) (r : GroupReg) (x y : Group) : (g.set r x).set r y = g.set r y := by
  cases r <;> rfl

theorem State.group_setGroup (s : State) (r q : GroupReg) (x : Group) :
    (s.setGroup r x).group q = if q = r then x else s.group q :=
  Groups.get_set s.groups r q x

/-! ### Reset keeps what is not the block's -/

@[simp] theorem State.platformReset_params (s : State) : s.platformReset.params = s.params := rfl
@[simp] theorem State.platformReset_pending (s : State) : s.platformReset.pending = s.pending := rfl
@[simp] theorem State.platformReset_outputs (s : State) : s.platformReset.outputs = s.outputs := rfl
@[simp] theorem State.platformReset_draws (s : State) : s.platformReset.draws = s.draws + 1 := rfl
@[simp] theorem State.platformReset_ibuf (s : State) : s.platformReset.ibuf = [] := rfl
@[simp] theorem State.platformReset_obuf (s : State) : s.platformReset.obuf = [] := rfl

end Sys2Proof.Machine
end

