-- ==== Sys2Proof/Laws/Memory.lean ====
section
/-! SUPPORT. The laws of memory: a read after a write, the canonical form, and writing a list of bytes. -/

namespace Sys2Proof.Machine

@[simp] theorem Memory.read_nil (a : Nat) : Memory.read [] a = none := rfl

/-- A read after a write gives the byte written there and the old byte elsewhere. -/
@[simp] theorem Memory.read_write (m : Memory) (a x : Nat) (b : Byte) :
    Memory.read (Memory.write m a b) x = if x = a then some b else Memory.read m x := by
  induction m with
  | nil => simp [Memory.write, Memory.read]
  | cons c m ih =>
    obtain ⟨y, v⟩ := c
    simp only [Memory.write]
    split
    · simp [Memory.read]
    · split
      · rename_i h h'; subst h'
        simp only [Memory.read]
        split <;> simp_all
      · simp only [Memory.read, ih]
        split <;> split <;> simp_all

theorem Memory.risingFrom_mono (m : Memory) {lo lo' : Nat} (h : lo' ≤ lo) (hm : Memory.risingFrom lo m = true) :
    Memory.risingFrom lo' m = true := by
  cases m with
  | nil => rfl
  | cons c m =>
    simp only [Memory.risingFrom, Bool.and_eq_true, decide_eq_true_eq] at hm ⊢
    exact ⟨h.trans hm.1, hm.2⟩

theorem Memory.risingFrom_write (m : Memory) (lo a : Nat) (b : Byte) (hlo : lo ≤ a)
    (hm : Memory.risingFrom lo m = true) : Memory.risingFrom lo (Memory.write m a b) = true := by
  induction m generalizing lo with
  | nil => simp [Memory.write, Memory.risingFrom, hlo]
  | cons c m ih =>
    obtain ⟨y, v⟩ := c
    simp only [Memory.risingFrom, Bool.and_eq_true, decide_eq_true_eq] at hm
    simp only [Memory.write]
    split
    · simp only [Memory.risingFrom, Bool.and_eq_true, decide_eq_true_eq]
      exact ⟨hlo, by omega, hm.2⟩
    · split
      · rename_i h; subst h
        simp [Memory.risingFrom, hlo, hm.2]
      · simp only [Memory.risingFrom, Bool.and_eq_true, decide_eq_true_eq]
        exact ⟨hm.1, ih (y + 1) (by omega) hm.2⟩

/-- A write keeps the canonical form. -/
theorem Memory.wf_write (m : Memory) (a : Nat) (b : Byte) (hm : Memory.wf m = true) :
    Memory.wf (Memory.write m a b) = true :=
  Memory.risingFrom_write m 0 a b (Nat.zero_le a) hm

/-- A write below a bound keeps every address below it. -/
theorem Memory.below_write (m : Memory) (n a : Nat) (b : Byte) (ha : a < n) (hm : Memory.below n m = true) :
    Memory.below n (Memory.write m a b) = true := by
  induction m with
  | nil => simp [Memory.write, Memory.below, ha]
  | cons c m ih =>
    obtain ⟨y, v⟩ := c
    simp only [Memory.below, List.all_cons, Bool.and_eq_true, decide_eq_true_eq] at hm ih ⊢
    simp only [Memory.write]
    split
    · simp [ha, hm.1, hm.2]
    · split
      · simp [ha, hm.2]
      · simp [hm.1, ih hm.2]

/-- An address at or above the bound lists no byte. -/
theorem Memory.read_of_below (m : Memory) (n a : Nat) (ha : n ≤ a) (hm : Memory.below n m = true) :
    Memory.read m a = none := by
  induction m with
  | nil => rfl
  | cons c m ih =>
    obtain ⟨y, v⟩ := c
    simp only [Memory.below, List.all_cons, Bool.and_eq_true, decide_eq_true_eq] at hm ih
    simp only [Memory.read]
    rw [if_neg (by omega), ih hm.2]

/-! ### Writing a list of bytes to OBUF -/

/-- Writing bytes to OBUF changes OBUF alone. -/
theorem State.obufWriteFrom_eq (s : State) (a : Nat) (bs : List Byte) :
    s.obufWriteFrom a bs = { s with obuf := (s.obufWriteFrom a bs).obuf } := by
  induction bs generalizing s a with
  | nil => rfl
  | cons b bs ih =>
    simp only [State.obufWriteFrom]
    rw [ih]
    rfl

/-- What OBUF lists after a list of bytes was written from a on. -/
theorem State.obufWriteFrom_read (s : State) (a x : Nat) (bs : List Byte) :
    (s.obufWriteFrom a bs).obuf.read x =
      if a ≤ x ∧ x < a + bs.length then bs[x - a]? else s.obuf.read x := by
  induction bs generalizing s a with
  | nil => simp [State.obufWriteFrom]
  | cons b bs ih =>
    simp only [State.obufWriteFrom, ih, State.obufWrite_obuf, Memory.read_write, List.length_cons]
    by_cases hx : x = a
    · subst hx; simp
    · by_cases hr : a + 1 ≤ x ∧ x < a + 1 + bs.length
      · rw [if_pos hr, if_pos (by omega)]
        obtain ⟨k, rfl⟩ : ∃ k, x = a + 1 + k := ⟨x - (a + 1), by omega⟩
        have h1 : a + 1 + k - (a + 1) = k := by omega
        have h2 : a + 1 + k - a = k + 1 := by omega
        rw [h1, h2, List.getElem?_cons_succ]
      · rw [if_neg hr, if_neg hx, if_neg (by omega)]

theorem State.obufWriteFrom_wf (s : State) (a : Nat) (bs : List Byte) (h : Memory.wf s.obuf = true) :
    Memory.wf (s.obufWriteFrom a bs).obuf = true := by
  induction bs generalizing s a with
  | nil => exact h
  | cons b bs ih => exact ih _ _ (by simpa using Memory.wf_write _ _ _ h)

theorem State.obufWriteFrom_below (s : State) (a n : Nat) (bs : List Byte) (hn : a + bs.length ≤ n)
    (h : Memory.below n s.obuf = true) : Memory.below n (s.obufWriteFrom a bs).obuf = true := by
  induction bs generalizing s a with
  | nil => exact h
  | cons b bs ih =>
    simp only [List.length_cons] at hn
    exact ih _ _ (by omega) (by simpa using Memory.below_write _ _ _ _ (by omega) h)

/-- putBytes writes OBUF and OLEN alone. -/
theorem State.putBytes_eq (s : State) (bs : List Byte) :
    s.putBytes bs = { s with obuf := (s.putBytes bs).obuf, olen := BitVec.ofNat 9 bs.length } := by
  unfold State.putBytes State.setOlen
  rw [State.obufWriteFrom_eq]

/-- What OBUF lists after putBytes. -/
theorem State.putBytes_read (s : State) (bs : List Byte) (x : Nat) :
    (s.putBytes bs).obuf.read x = if x < bs.length then bs[x]? else s.obuf.read x := by
  have h := State.obufWriteFrom_read s 0 x bs
  simpa [State.putBytes] using h

end Sys2Proof.Machine
end

