-- ==== Sys2Proof/Laws/Stream.lean ====
section
/-! SUPPORT. Reads of IBUF and of the reader's bit stream: when they succeed, what they give, and how they fail. -/

namespace Sys2Proof.Machine

/-! ### One byte -/

/-- The byte IBUF holds: the one last written, else the drawn one. -/
def State.ibufContent (s : State) (a : Nat) : Byte := (s.ibuf.read a).getD (Config.freeIbufByte s.draws a)

/-- A readable byte is read. -/
theorem State.ibufRead_of_readable (s : State) (a : Nat) (h : s.Readable a) : s.ibufRead a = .ok (s.ibufContent a) := by
  obtain ⟨ha, hw⟩ := h
  simp only [State.ibufRead, State.ibufContent, ha, if_true]
  cases hr : Memory.read s.ibuf a with
  | some b => rfl
  | none =>
    cases hu : s.params.unwritten with
    | anyValue => rfl
    | fault => simp [hr, hu] at hw

/-- A byte inside IBUF that is not readable faults. -/
theorem State.ibufRead_of_not_readable (s : State) (a : Nat) (ha : a < s.params.ibufBytes) (h : ¬ s.Readable a) :
    s.ibufRead a = .error (.ibufByteNeverWritten a) := by
  have hn : s.ibuf.read a = none ∧ s.params.unwritten = .fault := by
    constructor
    · by_contra hc; exact h ⟨ha, .inl hc⟩
    · cases hu : s.params.unwritten with
      | fault => rfl
      | anyValue => exact absurd ⟨ha, .inr hu⟩ h
  simp [State.ibufRead, ha, hn.1, hn.2]

/-- A read of IBUF fails in two ways. -/
theorem State.ibufRead_error (s : State) (a : Nat) (f : Fault) (h : s.ibufRead a = .error f) :
    (f = .ibufByteNeverWritten a ∧ a < s.params.ibufBytes ∧ s.ibuf.read a = none ∧ s.params.unwritten = .fault) ∨
      (f = .ibufAddressOutOfRange a ∧ s.params.ibufBytes ≤ a) := by
  simp only [State.ibufRead] at h
  split at h
  · rename_i ha
    split at h
    · cases h
    · rename_i hr
      split at h
      · rename_i hu; cases h; exact .inl ⟨rfl, ha, hr, hu⟩
      · cases h
  · rename_i ha; cases h; exact .inr ⟨rfl, by omega⟩

/-! ### Bits -/

/-- The number that logical bit k is. -/
def State.bitValue (s : State) (k : Nat) : Nat :=
  (s.ibufContent (byteIndex s.rdLen.toNat s.rdEnd k)).toNat / 2 ^ (7 - k % 8) % 2

/-- The number that n logical bits from bit k on are, the first the most significant. -/
def State.bitsValue (s : State) (k : Nat) : Nat → Nat
  | 0 => 0
  | n + 1 => 2 * s.bitsValue k n + s.bitValue (k + n)

theorem State.bitValue_lt (s : State) (k : Nat) : s.bitValue k < 2 := Nat.mod_lt _ (by decide)

theorem State.bitsValue_lt (s : State) (k n : Nat) : s.bitsValue k n < 2 ^ n := by
  induction n with
  | zero => simp [State.bitsValue]
  | succ n ih =>
    have := s.bitValue_lt (k + n)
    rw [State.bitsValue, Nat.pow_succ]; omega

/-- n + m bits are n bits and then m bits. -/
theorem State.bitsValue_add (s : State) (k n m : Nat) :
    s.bitsValue k (n + m) = s.bitsValue k n * 2 ^ m + s.bitsValue (k + n) m := by
  induction m with
  | zero => simp [State.bitsValue]
  | succ m ih =>
    rw [← Nat.add_assoc, State.bitsValue, State.bitsValue, ih, Nat.pow_succ, Nat.add_assoc k n m]
    ring

/-- The bits' number is the sum of R104. -/
theorem State.bitsValue_eq_sum (s : State) (k n : Nat) :
    s.bitsValue k n = ∑ i ∈ Finset.range n, s.bitValue (k + i) * 2 ^ (n - 1 - i) := by
  induction n with
  | zero => rfl
  | succ n ih =>
    rw [State.bitsValue, ih, Finset.sum_range_succ, Finset.mul_sum]
    congr 1
    · refine Finset.sum_congr rfl fun i hi => ?_
      have hi := Finset.mem_range.mp hi
      rw [show n + 1 - 1 - i = n - 1 - i + 1 by omega, Nat.pow_succ]; ring
    · simp

/-- Readable bits are read. -/
theorem State.logicalBits_of_readable (s : State) (k n : Nat)
    (h : ∀ i, i < n → s.Readable (byteIndex s.rdLen.toNat s.rdEnd (k + i))) :
    s.logicalBits k n = .ok (s.bitsValue k n) := by
  induction n with
  | zero => rfl
  | succ n ih =>
    simp only [State.logicalBits, ih fun i hi => h i (by omega), State.logicalBit,
      s.ibufRead_of_readable _ (h n (by omega)), State.bitsValue, State.bitValue]

/-- Bits fail only at a byte among theirs. -/
theorem State.logicalBits_error (s : State) (k n : Nat) (f : Fault) (h : s.logicalBits k n = .error f) :
    ∃ i, i < n ∧ s.ibufRead (byteIndex s.rdLen.toNat s.rdEnd (k + i)) = .error f := by
  induction n with
  | zero => cases h
  | succ n ih =>
    simp only [State.logicalBits] at h
    split at h
    · rename_i g hg
      cases h
      obtain ⟨i, hi, he⟩ := ih hg
      exact ⟨i, by omega, he⟩
    · split at h
      · rename_i g hg
        cases h
        simp only [State.logicalBit] at hg
        split at hg
        · rename_i g' hg'; cases hg; exact ⟨n, by omega, hg'⟩
        · cases hg
      · cases h

/-- Bits that are read are readable. -/
theorem State.readable_of_logicalBits (s : State) (k n x : Nat) (h : s.logicalBits k n = .ok x) (i : Nat) (hi : i < n) :
    ∃ b, s.ibufRead (byteIndex s.rdLen.toNat s.rdEnd (k + i)) = .ok b := by
  induction n generalizing x with
  | zero => omega
  | succ n ih =>
    simp only [State.logicalBits] at h
    split at h
    · cases h
    · rename_i y hy
      split at h
      · cases h
      · rename_i d hd
        by_cases hin : i = n
        · subst hin
          simp only [State.logicalBit] at hd
          split at hd
          · cases hd
          · rename_i b hb; exact ⟨b, hb⟩
        · exact ih y hy (by omega)

/-- A byte that is read is readable. -/
theorem State.readable_of_ibufRead (s : State) (a : Nat) (b : Byte) (h : s.ibufRead a = .ok b) : s.Readable a := by
  by_contra hc
  by_cases ha : a < s.params.ibufBytes
  · rw [s.ibufRead_of_not_readable a ha hc] at h; cases h
  · simp [State.ibufRead, ha] at h

/-- What the bits of a state depend on. -/
theorem State.logicalBits_congr (s t : State) (h1 : t.ibuf = s.ibuf) (h2 : t.params = s.params) (h3 : t.draws = s.draws)
    (h4 : t.rdLen = s.rdLen) (h5 : t.rdEnd = s.rdEnd) (k n : Nat) : t.logicalBits k n = s.logicalBits k n := by
  induction n with
  | zero => rfl
  | succ n ih => simp only [State.logicalBits, State.logicalBit, State.ibufRead, h1, h2, h3, h4, h5, ih]

/-- The bytes of the stream lie inside the reader's buffer. -/
theorem byteIndex_lt (len : Nat) (e : Endian) (k : Nat) (h : k < 8 * len) : byteIndex len e k < len := by
  cases e <;> simp only [byteIndex] <;> omega

/-! ### The cursor -/

/-- The cursor after an advance that stays inside 64 bits. -/
theorem State.advance_eq (s : State) (n : Nat) : s.advance n = { s with rdCur := BitVec.ofNat 64 (s.rdCur.toNat + n) } := by
  have h : s.rdCur + BitVec.ofNat 64 n = BitVec.ofNat 64 (s.rdCur.toNat + n) := by
    apply BitVec.eq_of_toNat_eq; simp
  simp only [State.advance, State.setCursor, h]

/-- RD_TOTAL is far below 2^64. -/
theorem State.rdTotal_lt (s : State) : s.rdTotal < 2 ^ 36 := by
  have := s.rdLen.isLt
  simp only [State.rdTotal]; omega

/-! ### RDBYTES (R108) -/

/-- What the loop of RDBYTES does from a state with k bytes read: with `avail` whole bytes before the end of the stream, it reads
m = min left avail of them if they are readable. -/
theorem rdbytesLoop_spec (left : Nat) : ∀ (s : State) (k m : Nat),
    m = min left ((s.rdTotal - s.rdCur.toNat) / 8).toNat →
    (∀ i, i < 8 * m → s.Readable (byteIndex s.rdLen.toNat s.rdEnd (s.rdOff.toNat + s.rdCur.toNat + i))) →
    ∃ o : Memory,
      (∀ x, o.read x = if k ≤ x ∧ x < k + m then
          some (BitVec.ofNat 8 (s.bitsValue (s.rdOff.toNat + s.rdCur.toNat + 8 * (x - k)) 8)) else s.obuf.read x) ∧
      rdbytesLoop s k left = .next
        (let t : State := { s with
          obuf := o, olen := BitVec.ofNat 9 (k + m), rdCur := BitVec.ofNat 64 (s.rdCur.toNat + 8 * m) }
         if m = left then t.succeed else t.raise .bitsCountOutOfBounds (s.rdCur.toNat + 8 * m : Nat) 8 s.rdTotal) := by
  induction left with
  | zero =>
    intro s k m hm _
    obtain rfl : m = 0 := by omega
    refine ⟨s.obuf, fun x => by rw [if_neg (by omega)], ?_⟩
    simp [rdbytesLoop, State.setOlen]
  | succ left ih =>
    intro s k m hm hread
    by_cases hlt : s.rdTotal < s.rdCur.toNat + 8
    · obtain rfl : m = 0 := by omega
      refine ⟨s.obuf, fun x => by rw [if_neg (by omega)], ?_⟩
      simp [rdbytesLoop, hlt, State.setOlen]
    · have hb : s.streamBits 8 = .ok (s.bitsValue (s.rdOff.toNat + s.rdCur.toNat) 8) :=
        s.logicalBits_of_readable _ _ fun i hi => hread i (by omega)
      have hT := s.rdTotal_lt
      simp only [rdbytesLoop, hlt, if_false, hb]
      set t := (s.obufWrite k (BitVec.ofNat 8 (s.bitsValue (s.rdOff.toNat + s.rdCur.toNat) 8))).advance 8 with ht
      have hcur : t.rdCur.toNat = s.rdCur.toNat + 8 := by
        rw [ht, State.advance_eq]
        simp only [State.obufWrite_rdCur, BitVec.toNat_ofNat]
        exact Nat.mod_eq_of_lt (by omega)
      have htot : t.rdTotal = s.rdTotal := rfl
      have hval : ∀ j n, t.bitsValue j n = s.bitsValue j n := by
        intro j n
        induction n with
        | zero => rfl
        | succ n ih2 => simp only [State.bitsValue, ih2]; rfl
      obtain ⟨o, ho, hrun⟩ := ih t (k + 1) (m - 1) (by rw [htot, hcur]; omega) (by
        intro i hi
        have := hread (i + 8) (by omega)
        rw [hcur]
        have he : s.rdOff.toNat + s.rdCur.toNat + (i + 8) = t.rdOff.toNat + (s.rdCur.toNat + 8) + i := by
          show _ = s.rdOff.toNat + _ + i; omega
        rw [he] at this; exact this)
      refine ⟨o, fun x => ?_, ?_⟩
      · rw [ho x, hcur]
        show _ = if _ then _ else s.obuf.read x
        by_cases hx : x = k
        · subst hx
          rw [if_neg (by omega), if_pos (by omega)]
          have : t.obuf.read x = some (BitVec.ofNat 8 (s.bitsValue (s.rdOff.toNat + s.rdCur.toNat) 8)) := by
            show (Memory.write s.obuf x _).read x = _
            rw [Memory.read_write, if_pos rfl]
          rw [this]; simp
        · by_cases hin : k + 1 ≤ x ∧ x < k + 1 + (m - 1)
          · rw [if_pos hin, if_pos (by omega), hval]
            show some (BitVec.ofNat 8 (s.bitsValue (s.rdOff.toNat + (s.rdCur.toNat + 8) + 8 * (x - (k + 1))) 8)) = _
            rw [show s.rdOff.toNat + (s.rdCur.toNat + 8) + 8 * (x - (k + 1)) =
              s.rdOff.toNat + s.rdCur.toNat + 8 * (x - k) by omega]
          · rw [if_neg hin, if_neg (by omega)]
            show (Memory.write s.obuf k _).read x = _
            rw [Memory.read_write, if_neg hx]
      · rw [hrun, hcur, htot]
        have h1 : k + 1 + (m - 1) = k + m := by omega
        have h2 : s.rdCur.toNat + 8 + 8 * (m - 1) = s.rdCur.toNat + 8 * m := by omega
        have h3 : (m - 1 = left) ↔ (m = left + 1) := by omega
        simp only [h1, h2, h3]
        rfl

end Sys2Proof.Machine
end

