-- ==== Sys2Proof/Laws/Crc.lean ====
section
/-! SUPPORT. The CRC engines: the table's rounds as numbers, the fold over readable bytes, and how a calculate command ends. -/

namespace Sys2Proof.Machine

/-- One round as numbers (R112). -/
theorem crcRound_toNat (w : Nat) (hw : 1 ≤ w) (p c : BitVec w) :
    (crcRound w p c).toNat =
      if (c.toNat >>> (w - 1)) &&& 1 = 1 then ((c.toNat <<< 1) ^^^ p.toNat) &&& (2 ^ w - 1)
      else (c.toNat <<< 1) &&& (2 ^ w - 1) := by
  have hm : c.msb = true ↔ (c.toNat >>> (w - 1)) &&& 1 = 1 := by
    have hc : c.toNat < 2 * 2 ^ (w - 1) := by
      have hp : 2 ^ w = 2 ^ (w - 1) * 2 := by rw [← Nat.pow_succ]; congr 1; omega
      have h := c.isLt
      omega
    rw [BitVec.msb_eq_decide, decide_eq_true_eq, Nat.and_one_is_mod, Nat.shiftRight_eq_div_pow]
    have hd : c.toNat / 2 ^ (w - 1) < 2 := Nat.div_lt_of_lt_mul (by rw [Nat.mul_comm]; exact hc)
    rw [Nat.mod_eq_of_lt hd]
    constructor
    · intro h
      have := Nat.div_pos h (Nat.two_pow_pos (w - 1)); omega
    · intro h
      have := Nat.div_mul_le_self c.toNat (2 ^ (w - 1))
      rw [h] at this; omega
  simp only [crcRound, hm]
  split
  · rw [Nat.and_two_pow_sub_one_eq_mod, BitVec.toNat_xor, BitVec.toNat_shiftLeft,
      Nat.xor_mod_two_pow, Nat.mod_eq_of_lt p.isLt]
  · rw [Nat.and_two_pow_sub_one_eq_mod, BitVec.toNat_shiftLeft]

/-- k rounds as numbers. -/
theorem crcRounds_toNat (w : Nat) (hw : 1 ≤ w) (p c : BitVec w) (k : Nat) :
    (crcRounds w p c k).toNat =
      (fun x => if (x >>> (w - 1)) &&& 1 = 1 then ((x <<< 1) ^^^ p.toNat) &&& (2 ^ w - 1)
        else (x <<< 1) &&& (2 ^ w - 1))^[k] c.toNat := by
  induction k with
  | zero => rfl
  | succ k ih => rw [crcRounds, crcRound_toNat w hw, ih, Function.iterate_succ_apply']

/-- The fold over bytes, once they are read. -/
def foldBytes {w : Nat} (stepper : BitVec w → Byte → BitVec w) (r : BitVec w) : List Byte → BitVec w
  | [] => r
  | b :: bs => foldBytes stepper (stepper r b) bs

theorem foldBytes_eq_foldl {w : Nat} (stepper : BitVec w → Byte → BitVec w) (r : BitVec w) (bs : List Byte) :
    foldBytes stepper r bs = bs.foldl stepper r := by
  induction bs generalizing r with
  | nil => rfl
  | cons b bs ih => exact ih (stepper r b)

/-- Folding is associative over concatenation (R115). -/
theorem foldBytes_append {w : Nat} (stepper : BitVec w → Byte → BitVec w) (r : BitVec w) (xs ys : List Byte) :
    foldBytes stepper r (xs ++ ys) = foldBytes stepper (foldBytes stepper r xs) ys := by
  simp only [foldBytes_eq_foldl, List.foldl_append]

/-- The bytes of a slice. -/
def State.slice (s : State) (a len : Nat) : List Byte := (List.range len).map fun j => s.ibufContent (a + j)

theorem State.slice_succ (s : State) (a len : Nat) : s.slice a (len + 1) = s.ibufContent a :: s.slice (a + 1) len := by
  simp only [State.slice, List.range_succ_eq_map, List.map_cons, List.map_map, Nat.add_zero, List.cons.injEq, true_and]
  refine List.map_congr_left fun j _ => ?_
  show s.ibufContent (a + (j + 1)) = s.ibufContent (a + 1 + j)
  congr 1; omega

theorem State.slice_add (s : State) (a k l : Nat) : s.slice a (k + l) = s.slice a k ++ s.slice (a + k) l := by
  simp only [State.slice, List.range_add, List.map_append, List.map_map]
  congr 1
  refine List.map_congr_left fun j _ => ?_
  show s.ibufContent (a + (k + j)) = _
  congr 1; omega

/-- A readable slice is folded. -/
theorem State.crcFold_of_readable {w : Nat} (s : State) (stepper : BitVec w → Byte → BitVec w) (len : Nat) :
    ∀ (r : BitVec w) (a : Nat), (∀ j, j < len → s.Readable (a + j)) →
      s.crcFold stepper r a len = .ok (foldBytes stepper r (s.slice a len)) := by
  induction len with
  | zero => intro r a _; rfl
  | succ len ih =>
    intro r a h
    rw [State.crcFold, s.ibufRead_of_readable a (h 0 (by omega)), State.slice_succ]
    refine ih _ _ fun j hj => ?_
    have := h (j + 1) (by omega)
    rwa [show a + (j + 1) = a + 1 + j by omega] at this

/-- A fold fails only at a byte of its slice. -/
theorem State.crcFold_error {w : Nat} (s : State) (stepper : BitVec w → Byte → BitVec w) (len : Nat) (f : Fault) :
    ∀ (r : BitVec w) (a : Nat), s.crcFold stepper r a len = .error f →
      ∃ j, j < len ∧ s.ibufRead (a + j) = .error f := by
  induction len with
  | zero => intro r a h; cases h
  | succ len ih =>
    intro r a h
    simp only [State.crcFold] at h
    split at h
    · rename_i g hg; cases h; exact ⟨0, by omega, hg⟩
    · obtain ⟨j, hj, he⟩ := ih _ _ h
      exact ⟨j + 1, by omega, by rwa [show a + (j + 1) = a + 1 + j by omega]⟩

/-- How a calculate command ends: an error report, a fault at a byte of the slice, or RES written. -/
theorem State.crcCalc_cases {w : Nat} (s : State) (stepper : BitVec w → Byte → BitVec w) (init : BitVec w) :
    (s.params.ibufBytes < s.arg0Low.toNat + s.arg0High.toNat ∧
      s.crcCalc stepper init =
        .next (s.raise .bufferRangeOutOfBounds s.arg0Low.toNat s.arg0High.toNat s.params.ibufBytes)) ∨
    (s.arg0Low.toNat + s.arg0High.toNat ≤ s.params.ibufBytes ∧
      ((∃ f j, j < s.arg0High.toNat ∧ s.ibufRead (s.arg0Low.toNat + j) = .error f ∧
          s.crcCalc stepper init = .fault f) ∨
        ∃ r : BitVec w, s.crcFold stepper init s.arg0Low.toNat s.arg0High.toNat = .ok r ∧
          s.crcCalc stepper init = .next (s.setRes (r.setWidth 64)).succeed)) := by
  by_cases h : s.params.ibufBytes < s.arg0Low.toNat + s.arg0High.toNat
  · exact .inl ⟨h, by simp [State.crcCalc, h]⟩
  · refine .inr ⟨by omega, ?_⟩
    cases hf : s.crcFold stepper init s.arg0Low.toNat s.arg0High.toNat with
    | error f =>
      obtain ⟨j, hj, he⟩ := s.crcFold_error stepper _ f _ _ hf
      exact .inl ⟨f, j, hj, he, by simp only [State.crcCalc, h, if_false, hf]⟩
    | ok r => exact .inr ⟨r, rfl, by simp only [State.crcCalc, h, if_false, hf]⟩

end Sys2Proof.Machine
end

