-- ==== Sys2Proof/Laws/Encoding.lean ====
section
/-! SUPPORT. The fields of a packed word, and that decoding and encoding undo each other field by field. -/

namespace Sys2Proof

/-- Packing and then extracting gives the fields back (R53, R54). -/
@[simp] theorem fieldsOf_packFields (x : Fields) : fieldsOf (packFields x) = x := by
  obtain ⟨opc, a, b, gd, gs, f⟩ := x
  simp only [fieldsOf, packFields, Fields.mk.injEq]
  refine ⟨?_, ?_, ?_, ?_, ?_, ?_⟩ <;>
    (apply BitVec.eq_of_getLsbD_eq; intro i hi
     simp only [BitVec.getLsbD_extractLsb', BitVec.getLsbD_append, hi, decide_true, Bool.true_and]
     repeat (first | rw [if_pos (by omega)] | rw [if_neg (by omega)])
     congr 1; try omega)

/-- Extracting and then packing gives the word back (R53, R54). -/
@[simp] theorem packFields_fieldsOf (w : CmdWord) : packFields (fieldsOf w) = w := by
  apply BitVec.eq_of_getLsbD_eq
  intro i hi
  simp only [fieldsOf, packFields, BitVec.getLsbD_extractLsb', BitVec.getLsbD_append]
  repeat' split
  all_goals (rw [decide_eq_true (by omega), Bool.true_and]; congr 1; omega)

@[simp] theorem groupOfBits_groupBits (r : GroupReg) : groupOfBits (groupBits r) = r := by cases r <;> rfl

@[simp] theorem groupBits_groupOfBits (b : BitVec 2) : groupBits (groupOfBits b) = b := by
  revert b; decide

@[simp] theorem widthOfCode_widthCode (w : Width) : widthOfCode (widthCode w) = some w := by cases w <;> rfl

theorem widthCode_of_widthOfCode (b : BitVec 3) (w : Width) (h : widthOfCode b = some w) : widthCode w = b := by
  revert b w; decide

@[simp] theorem endianOfBit_endianBit (e : Endian) : endianOfBit (endianBit e) = e := by cases e <;> rfl

@[simp] theorem endianBit_endianOfBit (b : BitVec 1) : endianBit (endianOfBit b) = b := by
  revert b; decide

@[simp] theorem loadSourceOfField_loadSourceField (l : LoadSource) :
    loadSourceOfField (loadSourceField l) = some l := by cases l <;> rfl

theorem loadSourceField_of_loadSourceOfField (b : BitVec 8) (l : LoadSource) (h : loadSourceOfField b = some l) :
    loadSourceField l = b := by
  revert b l; decide

@[simp] theorem bitOfField_bitField (b : Bool) : bitOfField (bitField b) = some b := by cases b <;> rfl

theorem bitField_of_bitOfField (b : BitVec 8) (l : Bool) (h : bitOfField b = some l) : bitField l = b := by
  revert b l; decide

@[simp] theorem originOfField_originField (o : SeekOrigin) : originOfField (originField o) = some o := by
  cases o <;> rfl

theorem originField_of_originOfField (f : BitVec 4) (o : SeekOrigin) (h : originOfField f = some o) :
    originField o = f := by
  revert f o; decide

@[simp] theorem lowF_packF (hi : BitVec 1) (lo : BitVec 3) : lowF (packF hi lo) = lo := by
  revert hi lo; decide

@[simp] theorem highF_packF (hi : BitVec 1) (lo : BitVec 3) : highF (packF hi lo) = hi := by
  revert hi lo; decide

@[simp] theorem packF_highF_lowF (f : BitVec 4) : packF (highF f) (lowF f) = f := by
  revert f; decide

/-- A number that fits its field is spelt exactly (R54, R68). -/
theorem toNat_ofNat_of_fits (n : Nat) (h : fitsField n = true) : (BitVec.ofNat 8 n).toNat = n := by
  simp only [fitsField, decide_eq_true_eq] at h
  simp [BitVec.toNat_ofNat, Nat.mod_eq_of_lt h]

/-- A word as a number: each field times the weight of its lowest bit (R53). -/
theorem packFields_toNat (x : Fields) :
    (packFields x).toNat =
      x.opc.toNat * 2 ^ 24 + x.a.toNat * 2 ^ 16 + x.b.toNat * 2 ^ 8 + x.gd.toNat * 2 ^ 6 + x.gs.toNat * 2 ^ 4 +
        x.f.toNat := by
  have hf := x.f.isLt
  have hgs := x.gs.isLt
  have hgd := x.gd.isLt
  have hb := x.b.isLt
  have ha := x.a.isLt
  simp only [packFields, BitVec.toNat_append, Nat.shiftLeft_eq]
  rw [← Nat.shiftLeft_eq, ← Nat.shiftLeft_eq, ← Nat.shiftLeft_eq, ← Nat.shiftLeft_eq, ← Nat.shiftLeft_eq,
    ← Nat.shiftLeft_add_eq_or_of_lt ha, ← Nat.shiftLeft_add_eq_or_of_lt hb, ← Nat.shiftLeft_add_eq_or_of_lt hgd,
    ← Nat.shiftLeft_add_eq_or_of_lt hgs, ← Nat.shiftLeft_add_eq_or_of_lt hf]
  simp only [Nat.shiftLeft_eq]
  ring

/-- The word of a command holds the fields the encoder gives it. -/
@[simp] theorem fieldsOf_encode (i : Instr) : fieldsOf (encode i) = encodeFields i := by simp [encode]

/-- A command read from fields whose unused ones are zero is encoded by those fields, and it is well formed. -/
theorem encodeFields_of_commandOf (x : Fields) (u : UsedFields) (i : Instr) (hu : usedFields x.opc = some u)
    (hz : unusedZero u x = true) (hj : commandOf x = some i) : encodeFields i = x ∧ i.wellFormed = true := by
  obtain ⟨opc, a, b, gd, gs, f⟩ := x
  have ha := a.isLt
  have hb := b.isLt
  dsimp only [commandOf] at hj
  split at hj
  all_goals (simp only [usedFields, Option.some.injEq, reduceCtorEq] at hu; try subst hu)
  all_goals simp only [unusedZero, Bool.false_or, Bool.true_or, Bool.and_true, Bool.true_and, Bool.and_eq_true,
    beq_iff_eq] at hz
  case h_2 =>
    split at hj
    · rename_i w src hw hl
      simp only [Option.some.injEq] at hj; subst hj
      simp [encodeFields, Instr.wellFormed, hz, widthCode_of_widthOfCode _ _ hw,
        loadSourceField_of_loadSourceOfField _ _ hl]
    · cases hj
  case h_6 =>
    obtain ⟨l, hl, rfl⟩ := Option.map_eq_some_iff.mp hj
    simp [encodeFields, Instr.wellFormed, fitsField, hz, ha, bitField_of_bitOfField _ _ hl]
  case h_27 =>
    simp only [withEndian] at hj
    split at hj
    · rename_i h0
      simp only [Option.some.injEq] at hj; subst hj
      simp [encodeFields, Instr.wellFormed, hz, ← h0]
    · cases hj
  case h_30 =>
    obtain ⟨o, ho, rfl⟩ := Option.map_eq_some_iff.mp hj
    simp [encodeFields, Instr.wellFormed, hz, originField_of_originOfField _ _ ho]
  case h_31 =>
    simp only [withEndian] at hj
    split at hj
    · rename_i h0
      simp only [Option.some.injEq] at hj; subst hj
      simp [encodeFields, Instr.wellFormed, fitsField, hz, ha, ← h0]
    · cases hj
  all_goals
    simp only [Option.some.injEq] at hj
    subst hj
    simp [encodeFields, Instr.wellFormed, fitsField, hz, ha, hb]

end Sys2Proof
end

