-- ==== Sys2Proof/Laws/Operands.lean ====
section
/-! SUPPORT. What the operand forms are as numbers: widths and masks, the range algorithm and octets (00_scope.md R8). -/

namespace Sys2Proof.Machine

/-! ### Widths -/

theorem widthBits_eq (w : Width) : widthBits w = 8 * widthOctets w := by cases w <;> rfl

theorem widthBits_le (w : Width) : widthBits w ≤ 64 := by cases w <;> decide

theorem widthBits_pos (w : Width) : 8 ≤ widthBits w := by cases w <;> decide

theorem widthOctets_le (w : Width) : widthOctets w ≤ 8 := by cases w <;> decide

theorem widthOctets_pos (w : Width) : 1 ≤ widthOctets w := by cases w <;> decide

@[simp] theorem widthMask_toNat (w : Width) : (widthMask w).toNat = 2 ^ widthBits w - 1 := by cases w <;> rfl

/-- Masking to a width is the remainder by 2^W. -/
@[simp] theorem and_widthMask_toNat (v : Word) (w : Width) : (v &&& widthMask w).toNat = v.toNat % 2 ^ widthBits w := by
  rw [BitVec.toNat_and, widthMask_toNat, Nat.and_two_pow_sub_one_eq_mod]

/-- Two numbers modulo 2^W agree once they agree modulo 2^64. -/
theorem mod_widthBits (n : Nat) (w : Width) : n % 2 ^ 64 % 2 ^ widthBits w = n % 2 ^ widthBits w :=
  Nat.mod_mod_of_dvd n (Nat.pow_dvd_pow 2 (widthBits_le w))

theorem two_pow_widthBits_le (w : Width) : 2 ^ widthBits w ≤ 2 ^ 64 :=
  Nat.pow_le_pow_right (by decide) (widthBits_le w)

/-! ### The complement within a mask -/

theorem complementWithin_toNat (m v : Word) : (complementWithin m v).toNat = m.toNat - (v &&& m).toNat := by
  have h0 : complementWithin m v &&& (v &&& m) = 0#64 := by
    apply BitVec.eq_of_getLsbD_eq; intro i hi
    simp only [complementWithin, BitVec.getLsbD_and, BitVec.getLsbD_not, hi, decide_true, Bool.true_and,
      BitVec.getLsbD_zero]
    cases v.getLsbD i <;> simp
  have h1 : complementWithin m v ||| (v &&& m) = m := by
    apply BitVec.eq_of_getLsbD_eq; intro i hi
    simp only [complementWithin, BitVec.getLsbD_or, BitVec.getLsbD_and, BitVec.getLsbD_not, hi, decide_true,
      Bool.true_and]
    cases v.getLsbD i <;> simp
  have h2 := BitVec.toNat_add_of_and_eq_zero h0
  rw [BitVec.add_eq_or_of_and_eq_zero _ _ h0, h1] at h2
  omega

/-- For a value inside the mask the complement is `mask - v` (R8). -/
theorem complementWithin_toNat_of_le (w : Width) (v : Word) (h : v.toNat < 2 ^ widthBits w) :
    (complementWithin (widthMask w) v).toNat = 2 ^ widthBits w - 1 - v.toNat := by
  rw [complementWithin_toNat, and_widthMask_toNat, widthMask_toNat, Nat.mod_eq_of_lt h]

/-- Complements lie inside the mask. -/
theorem complementWithin_lt (w : Width) (v : Word) : (complementWithin (widthMask w) v).toNat < 2 ^ widthBits w := by
  rw [complementWithin_toNat, widthMask_toNat]
  have := Nat.two_pow_pos (widthBits w)
  omega

/-! ### Ranges (R74) -/

theorem maskBits_toNat (k : Nat) (hk : k ≤ 64) : (maskBits k).toNat = 2 ^ k - 1 := by
  have h : 2 ^ k ≤ 2 ^ 64 := Nat.pow_le_pow_right (by decide) hk
  rw [maskBits, BitVec.toNat_ofNat, Nat.mod_eq_of_lt (by omega)]

/-- A mask of k bits moved up by first stays below 2^(first + k). -/
theorem mask_mul_lt (k first : Nat) : (2 ^ k - 1) * 2 ^ first < 2 ^ (first + k) := by
  rw [Nat.pow_add, Nat.mul_comm]
  exact Nat.mul_lt_mul_of_pos_left (by have := Nat.two_pow_pos k; omega) (Nat.two_pow_pos first)

theorem invRegion_toNat (first last : Nat) (h : first ≤ last) (hl : last < 64) :
    (invRegion first last).toNat = (2 ^ (last - first + 1) - 1) <<< first := by
  rw [invRegion, BitVec.toNat_shiftLeft, maskBits_toNat _ (by omega), Nat.mod_eq_of_lt]
  rw [Nat.shiftLeft_eq]
  refine lt_of_lt_of_le (mask_mul_lt _ _) (Nat.pow_le_pow_right (by decide) (by omega))

/-- A range read is the value shifted down, modulo 2^k. -/
theorem getRange_toNat (v : Word) (first last : Nat) (h : first ≤ last) (hl : last < 64) :
    (getRange v first last).toNat = v.toNat / 2 ^ first % 2 ^ (last - first + 1) := by
  rw [getRange, BitVec.toNat_and, BitVec.toNat_ushiftRight, BitVec.toNat_ushiftRight, invRegion_toNat _ _ h hl,
    Nat.shiftLeft_shiftRight, Nat.and_two_pow_sub_one_eq_mod, Nat.shiftRight_eq_div_pow]

/-- The mask of a region is the width's mask less the range's bits. -/
theorem region_toNat (w : Width) (first last : Nat) (h : first ≤ last) (hl : last < widthBits w) :
    (region (widthMask w) first last).toNat = 2 ^ widthBits w - 1 - (2 ^ (last - first + 1) - 1) <<< first := by
  have h64 := widthBits_le w
  rw [region, complementWithin_toNat_of_le, invRegion_toNat _ _ h (by omega)]
  rw [invRegion_toNat _ _ h (by omega), Nat.shiftLeft_eq]
  exact lt_of_lt_of_le (mask_mul_lt _ _) (Nat.pow_le_pow_right (by decide) (by omega))

/-- A range write as numbers (R74). -/
theorem setRange_toNat (w : Width) (v x : Word) (first last : Nat) (h : first ≤ last) (hl : last < widthBits w) :
    (setRange (widthMask w) v first last x).toNat =
      (v.toNat &&& (2 ^ widthBits w - 1 - (2 ^ (last - first + 1) - 1) <<< first)) |||
        ((x.toNat &&& (2 ^ (last - first + 1) - 1)) <<< first) := by
  have h64 := widthBits_le w
  rw [setRange, BitVec.toNat_or, BitVec.toNat_and, region_toNat w _ _ h hl, BitVec.toNat_shiftLeft, BitVec.toNat_and,
    maskBits_toNat _ (by omega)]
  congr 1
  rw [Nat.mod_eq_of_lt]
  rw [Nat.shiftLeft_eq, Nat.and_two_pow_sub_one_eq_mod]
  have hx : x.toNat % 2 ^ (last - first + 1) ≤ 2 ^ (last - first + 1) - 1 := by
    have := Nat.mod_lt x.toNat (Nat.two_pow_pos (last - first + 1)); omega
  refine lt_of_le_of_lt (Nat.mul_le_mul_right _ hx) (lt_of_lt_of_le (mask_mul_lt _ _) ?_)
  exact Nat.pow_le_pow_right (by decide) (by omega)

/-- A range write stays inside the width. -/
theorem setRange_lt (w : Width) (v x : Word) (first last : Nat) (h : first ≤ last) (hl : last < widthBits w) :
    (setRange (widthMask w) v first last x).toNat < 2 ^ widthBits w := by
  rw [setRange_toNat w v x _ _ h hl]
  have hW := Nat.two_pow_pos (widthBits w)
  refine Nat.or_lt_two_pow (lt_of_le_of_lt Nat.and_le_right (lt_of_le_of_lt (Nat.sub_le _ _) (by omega))) ?_
  rw [Nat.shiftLeft_eq, Nat.and_two_pow_sub_one_eq_mod]
  have hx : x.toNat % 2 ^ (last - first + 1) ≤ 2 ^ (last - first + 1) - 1 := by
    have := Nat.mod_lt x.toNat (Nat.two_pow_pos (last - first + 1)); omega
  exact lt_of_le_of_lt (Nat.mul_le_mul_right _ hx)
    (lt_of_lt_of_le (mask_mul_lt _ _) (Nat.pow_le_pow_right (by decide) (by omega)))

/-! ### Single bits -/

theorem bitAt_toNat (v : Word) (i : Nat) : (bitAt v i).toNat = (v.toNat >>> i) &&& 1 := by
  rw [bitAt, BitVec.toNat_and, BitVec.toNat_ushiftRight]; rfl

theorem oneShift_toNat (i : Nat) (hi : i < 64) : (1#64 <<< i).toNat = 1 <<< i := by
  have h : 2 ^ i < 2 ^ 64 := Nat.pow_lt_pow_right (by decide) hi
  rw [BitVec.toNat_shiftLeft, show (1#64).toNat = 1 from rfl, Nat.shiftLeft_eq, Nat.one_mul, Nat.mod_eq_of_lt h]

/-! ### Octets (R71) -/

theorem octetPosition_lt (n : Nat) (e : Endian) (i : Nat) (h : i < n) : octetPosition n e i < n := by
  cases e <;> simp only [octetPosition] <;> omega

/-- Octet i of a W-bit group lies at eight times its place from the least significant end. -/
theorem Group.octetShift_eq (g : Group) (i : Nat) (h : i < g.octets) :
    g.octetShift i = 8 * (g.octets - 1 - octetPosition g.octets g.endian i) := by
  have h1 := octetPosition_lt g.octets g.endian i h
  have h2 : g.bits = 8 * g.octets := widthBits_eq g.wcode
  unfold Group.octetShift; omega

theorem Group.octet_toNat (g : Group) (i : Nat) : (g.octet i).toNat = (g.value.toNat >>> g.octetShift i) &&& 0xFF := by
  rw [Group.octet, BitVec.toNat_setWidth, BitVec.toNat_ushiftRight]
  exact (Nat.and_two_pow_sub_one_eq_mod _ 8).symm

theorem Group.octetShift_le (g : Group) (i : Nat) : g.octetShift i ≤ g.bits - 8 := by
  unfold Group.octetShift; omega

/-- with_octet as numbers (R71). -/
theorem Group.withOctet_toNat (g : Group) (i : Nat) (b : Byte) :
    (g.withOctet i b).toNat =
      (g.value.toNat &&& (2 ^ g.bits - 1 - 0xFF <<< g.octetShift i)) ||| (b.toNat <<< g.octetShift i) := by
  have hs := g.octetShift_le i
  have hb : g.bits ≤ 64 := widthBits_le _
  have hb' : 8 ≤ g.bits := widthBits_pos _
  have hff : (0xFF#64 <<< g.octetShift i).toNat = 0xFF <<< g.octetShift i := by
    rw [BitVec.toNat_shiftLeft, Nat.mod_eq_of_lt]; · rfl
    rw [Nat.shiftLeft_eq]
    refine lt_of_lt_of_le (mask_mul_lt 8 _) (Nat.pow_le_pow_right (by decide) (by omega))
  rw [Group.withOctet, BitVec.toNat_or, BitVec.toNat_and, Group.mask, complementWithin_toNat_of_le, hff]
  · congr 1
    rw [BitVec.toNat_shiftLeft, BitVec.toNat_setWidth, Nat.mod_eq_of_lt (a := b.toNat) (by have := b.isLt; omega),
      Nat.mod_eq_of_lt]
    rw [Nat.shiftLeft_eq]
    refine lt_of_le_of_lt (Nat.mul_le_mul_right _ (show b.toNat ≤ 2 ^ 8 - 1 by have := b.isLt; omega))
      (lt_of_lt_of_le (mask_mul_lt 8 _) (Nat.pow_le_pow_right (by decide) (by omega)))
  · rw [hff, Nat.shiftLeft_eq]
    exact lt_of_lt_of_le (mask_mul_lt 8 _) (Nat.pow_le_pow_right (by decide) (show _ ≤ g.bits by omega))

end Sys2Proof.Machine
end

