-- ==== Sys2Proof/Laws/Octets.lean ====
section
/-! SUPPORT. The octets of a group: reading after writing, a value is its octets, and what REVO's swaps give. -/

namespace Sys2Proof.Machine

theorem widthMask_getLsbD (w : Width) (n : Nat) : (widthMask w).getLsbD n = decide (n < widthBits w) := by
  rw [← BitVec.testBit_toNat, widthMask_toNat, Nat.testBit_two_pow_sub_one]

theorem byteMask_getLsbD (n : Nat) : (0xFF#64).getLsbD n = decide (n < 8) := widthMask_getLsbD .w8 n

/-- The bits of an octet. -/
theorem Group.octet_getLsbD (g : Group) (i k : Nat) :
    (g.octet i).getLsbD k = (decide (k < 8) && g.value.getLsbD (g.octetShift i + k)) := by
  simp [Group.octet, BitVec.getLsbD_setWidth, BitVec.getLsbD_ushiftRight]

/-- The bits of with_octet: the new octet in its place, the old bits of the group elsewhere. -/
theorem Group.withOctet_getLsbD (g : Group) (i : Nat) (b : Byte) (n : Nat) :
    (g.withOctet i b).getLsbD n =
      if g.octetShift i ≤ n ∧ n < g.octetShift i + 8 then b.getLsbD (n - g.octetShift i)
      else g.value.getLsbD n && decide (n < g.bits) := by
  have hs := g.octetShift_le i
  have hb : g.bits ≤ 64 := widthBits_le _
  have hb' : 8 ≤ g.bits := widthBits_pos _
  by_cases hn : n < 64
  · simp only [Group.withOctet, Group.mask, complementWithin, BitVec.getLsbD_or, BitVec.getLsbD_and, BitVec.getLsbD_not,
      BitVec.getLsbD_shiftLeft, hn, decide_true, Bool.true_and, BitVec.getLsbD_setWidth, widthMask_getLsbD,
      byteMask_getLsbD]
    by_cases h1 : n < g.octetShift i
    · rw [if_neg (by omega)]; simp [h1, Group.bits]; rfl
    · by_cases h2 : n < g.octetShift i + 8
      · rw [if_pos ⟨by omega, h2⟩]
        have h3 : n - g.octetShift i < 8 := by omega
        have h4 : n - g.octetShift i < 64 := by omega
        simp [h1, h3, h4]
      · rw [if_neg (by omega)]
        have h3 : ¬ n - g.octetShift i < 8 := by omega
        have h5 : b.getLsbD (n - g.octetShift i) = false := BitVec.getLsbD_of_ge _ _ (by omega)
        simp [h1, h3, h5, Group.bits]; rfl
  · rw [if_neg (by omega), BitVec.getLsbD_of_ge _ _ (by omega), BitVec.getLsbD_of_ge _ _ (by omega), Bool.false_and]

/-- with_octet keeps the group inside its width. -/
theorem Group.withOctet_lt (g : Group) (i : Nat) (b : Byte) : (g.withOctet i b).toNat < 2 ^ g.bits := by
  have hs := g.octetShift_le i
  have hb' : 8 ≤ g.bits := widthBits_pos _
  refine Nat.lt_pow_two_of_testBit _ fun n hn => ?_
  rw [BitVec.testBit_toNat, Group.withOctet_getLsbD, if_neg (by omega)]
  simp [Nat.not_lt.mpr hn]

/-- Positions of different octets differ. -/
theorem octetPosition_inj (n : Nat) (e : Endian) (i j : Nat) (hi : i < n) (hj : j < n)
    (h : octetPosition n e i = octetPosition n e j) : i = j := by
  cases e <;> simp only [octetPosition] at h <;> omega

/-- Octet j after octet i was written. -/
theorem Group.octet_withOctet (g : Group) (i j : Nat) (b : Byte) (hi : i < g.octets) (hj : j < g.octets) :
    Group.octet { g with value := g.withOctet i b } j = if j = i then b else g.octet j := by
  apply BitVec.eq_of_getLsbD_eq
  intro k hk
  have hsi := g.octetShift_eq i hi
  have hsj := g.octetShift_eq j hj
  have hpi := octetPosition_lt _ g.endian i hi
  have hpj := octetPosition_lt _ g.endian j hj
  have h2 : g.bits = 8 * g.octets := widthBits_eq g.wcode
  rw [Group.octet_getLsbD]
  show (decide (k < 8) && (g.withOctet i b).getLsbD (g.octetShift j + k)) = _
  rw [Group.withOctet_getLsbD]
  by_cases hij : j = i
  · subst hij
    rw [if_pos (by omega), if_pos rfl]
    simp [hk]
  · have hne : octetPosition g.octets g.endian i ≠ octetPosition g.octets g.endian j := fun h =>
      hij (octetPosition_inj _ _ _ _ hi hj h).symm
    rw [if_neg (by omega), if_neg hij, Group.octet_getLsbD]
    simp [hk]; intro _; omega

/-- Octets in their numeric place: octet i is a digit to the base 256. -/
theorem Group.octet_eq_digit (g : Group) (i : Nat) (hi : i < g.octets) :
    (g.octet i).toNat = g.value.toNat / 256 ^ (g.octets - 1 - octetPosition g.octets g.endian i) % 256 := by
  rw [Group.octet_toNat, g.octetShift_eq i hi, Nat.shiftRight_eq_div_pow, Nat.pow_mul]
  exact Nat.and_two_pow_sub_one_eq_mod _ 8

/-- The index of the octet at a position is that position's mirror, twice over. -/
theorem octetPosition_octetPosition (n : Nat) (e : Endian) (i : Nat) (hi : i < n) :
    octetPosition n e (octetPosition n e i) = i := by
  cases e
  · rfl
  · simp only [octetPosition]; omega

/-- The mirror of an index has the mirrored position. -/
theorem octetPosition_mirror (n : Nat) (e : Endian) (i : Nat) :
    octetPosition n e (n - 1 - i) = n - 1 - octetPosition n e i := by
  cases e <;> rfl

/-- A number below 256^n is the sum of its digits. -/
theorem sum_digits (n v : Nat) (h : v < 256 ^ n) : ∑ i ∈ Finset.range n, v / 256 ^ i % 256 * 256 ^ i = v := by
  induction n generalizing v with
  | zero => simp at h; simp [h]
  | succ n ih =>
    rw [Finset.sum_range_succ']
    have h1 : v / 256 < 256 ^ n := Nat.div_lt_of_lt_mul (by rwa [Nat.pow_succ, Nat.mul_comm] at h)
    have h2 : ∀ i, v / 256 ^ (i + 1) % 256 * 256 ^ (i + 1) = 256 * (v / 256 / 256 ^ i % 256 * 256 ^ i) := by
      intro i; rw [Nat.pow_succ, Nat.mul_comm (256 ^ i) 256, ← Nat.div_div_eq_div_mul]; ring
    simp only [h2, ← Finset.mul_sum, ih _ h1]
    omega

/-! ### The swaps of REVO -/

/-- A swap exchanges octets i and N-1-i and keeps the others. -/
theorem Group.octet_swapOctets (g : Group) (i j : Nat) (hi : i < g.octets) (hj : j < g.octets) :
    (g.swapOctets i).octet j =
      if j = i then g.octet (g.octets - 1 - i) else if j = g.octets - 1 - i then g.octet i else g.octet j := by
  unfold Group.swapOctets
  have h1 : Group.octets { g with value := g.withOctet i (g.octet (g.octets - 1 - i)) } = g.octets := rfl
  have hk : g.octets - 1 - i < g.octets := by omega
  have := Group.octet_withOctet { g with value := g.withOctet i (g.octet (g.octets - 1 - i)) } (g.octets - 1 - i) j
    (g.octet i) hk hj
  refine this.trans ?_
  rw [Group.octet_withOctet g i j _ hi hj]
  by_cases ha : j = i
  · by_cases hb : j = g.octets - 1 - i
    · rw [if_pos hb, if_pos ha]; congr 1; omega
    · rw [if_neg hb]; simp [ha]
  · simp [ha]

theorem Group.swapUpTo_wcode (g : Group) (k : Nat) : (g.swapUpTo k).wcode = g.wcode := by
  induction k with
  | zero => rfl
  | succ k ih => exact ih

theorem Group.swapUpTo_endian (g : Group) (k : Nat) : (g.swapUpTo k).endian = g.endian := by
  induction k with
  | zero => rfl
  | succ k ih => exact ih

/-- The octets after k swaps. -/
theorem Group.octet_swapUpTo (g : Group) (k j : Nat) (hk : k ≤ g.octets / 2) (hj : j < g.octets) :
    (g.swapUpTo k).octet j = if j < k ∨ g.octets - 1 - j < k then g.octet (g.octets - 1 - j) else g.octet j := by
  induction k generalizing j with
  | zero => simp [Group.swapUpTo]
  | succ k ih =>
    have hN : (g.swapUpTo k).octets = g.octets := by rw [Group.octets, Group.swapUpTo_wcode]; rfl
    rw [Group.swapUpTo, Group.octet_swapOctets _ _ _ (by omega) (by omega), hN]
    by_cases h1 : j = k
    · rw [if_pos h1, ih _ (by omega) (by omega), if_neg (by omega), if_pos (by omega), h1]
    · rw [if_neg h1]
      by_cases h2 : j = g.octets - 1 - k
      · rw [if_pos h2, ih _ (by omega) (by omega), if_neg (by omega), if_pos (by omega)]
        congr 1; omega
      · rw [if_neg h2, ih _ (by omega) hj]
        by_cases h3 : j < k ∨ g.octets - 1 - j < k
        · rw [if_pos h3, if_pos (by omega)]
        · rw [if_neg h3, if_neg (by omega)]

/-- REVO's group: octet j is the old octet N-1-j (R92). -/
theorem Group.octet_reversed (g : Group) (j : Nat) (hj : j < g.octets) :
    g.reversed.octet j = g.octet (g.octets - 1 - j) := by
  rw [Group.reversed, Group.octet_swapUpTo g _ j le_rfl hj]
  split
  · rfl
  · congr 1; omega

theorem Group.reversed_wcode (g : Group) : g.reversed.wcode = g.wcode := g.swapUpTo_wcode _

theorem Group.reversed_endian (g : Group) : g.reversed.endian = g.endian := g.swapUpTo_endian _

theorem Group.swapUpTo_lt (g : Group) (k : Nat) (h : g.value.toNat < 2 ^ g.bits) :
    (g.swapUpTo k).value.toNat < 2 ^ g.bits := by
  cases k with
  | zero => exact h
  | succ k =>
    have hN : (g.swapUpTo k).bits = g.bits := by rw [Group.bits, Group.swapUpTo_wcode]; rfl
    rw [← hN]
    exact Group.withOctet_lt { g.swapUpTo k with value := _ } _ _

/-- REVO keeps the group inside its width. -/
theorem Group.reversed_lt (g : Group) (h : g.value.toNat < 2 ^ g.bits) : g.reversed.value.toNat < 2 ^ g.bits :=
  g.swapUpTo_lt _ h

theorem Group.two_pow_bits (g : Group) : 2 ^ g.bits = 256 ^ g.octets := by
  rw [show g.bits = 8 * g.octets from widthBits_eq g.wcode, Nat.pow_mul]

/-- The digits of REVO's value are the old ones in reverse order. -/
theorem Group.reversed_digit (g : Group) (i : Nat) (hi : i < g.octets) :
    g.reversed.value.toNat / 256 ^ i % 256 = g.value.toNat / 256 ^ (g.octets - 1 - i) % 256 := by
  have hN : g.reversed.octets = g.octets := by rw [Group.octets, Group.reversed_wcode]; rfl
  set p := octetPosition g.octets g.endian (g.octets - 1 - i) with hp
  have hpl : p < g.octets := octetPosition_lt _ _ _ (by omega)
  have hpp : octetPosition g.octets g.endian p = g.octets - 1 - i := octetPosition_octetPosition _ _ _ (by omega)
  have h1 := g.reversed.octet_eq_digit p (by omega)
  rw [hN, Group.reversed_endian, hpp, show g.octets - 1 - (g.octets - 1 - i) = i by omega] at h1
  rw [← h1, Group.octet_reversed g p hpl, Group.octet_eq_digit g _ (by omega),
    octetPosition_mirror, hpp]
  congr 3; omega

/-- REVO's value as a number: the digits in reverse order (R92). -/
theorem Group.reversed_toNat (g : Group) (h : g.value.toNat < 2 ^ g.bits) :
    g.reversed.value.toNat = ∑ i ∈ Finset.range g.octets, (g.value.toNat / 256 ^ (g.octets - 1 - i) % 256) * 256 ^ i := by
  have hl := g.reversed_lt h
  rw [Group.two_pow_bits] at hl
  rw [← sum_digits _ _ hl]
  exact Finset.sum_congr rfl fun i hi => by rw [Group.reversed_digit g i (Finset.mem_range.mp hi)]

/-- REVO twice gives the group back (R102). -/
theorem Group.reversed_reversed (g : Group) (h : g.value.toNat < 2 ^ g.bits) : g.reversed.reversed.value = g.value := by
  have hN : g.reversed.octets = g.octets := by rw [Group.octets, Group.reversed_wcode]; rfl
  have hB : g.reversed.bits = g.bits := by rw [Group.bits, Group.reversed_wcode]; rfl
  have hl := g.reversed.reversed_lt (by rw [hB]; exact g.reversed_lt h)
  rw [hB, Group.two_pow_bits] at hl
  rw [Group.two_pow_bits] at h
  apply BitVec.eq_of_toNat_eq
  rw [← sum_digits _ _ hl, ← sum_digits _ _ h]
  refine Finset.sum_congr rfl fun i hi => ?_
  have hi := Finset.mem_range.mp hi
  rw [Group.reversed_digit g.reversed i (by omega), hN, Group.reversed_digit g _ (by omega)]
  congr 4; omega

end Sys2Proof.Machine
end

