-- ==== Sys2Proof/Laws/Exec.lean ====
section
/-! SUPPORT. How a command ends: the commands that read IBUF, the bounds of the values the commands write, the frame of the
invariant, and the two ends of every command. -/

namespace Sys2Proof.Machine

/-! ### READ and SUBRD -/

/-- The check of READ and SUBRD: which error it reports, and when. -/
theorem State.bitCountError_cases (s : State) (n : Nat) :
    ((n < 1 ∨ 64 < n) ∧ s.bitCountError n = some (s.raise .invalidBitCount n 1 64)) ∨
    (1 ≤ n ∧ n ≤ 64 ∧ s.rdTotal < s.rdCur.toNat + n ∧
      s.bitCountError n = some (s.raise .bitsCountOutOfBounds s.rdCur.toNat n s.rdTotal)) ∨
    (1 ≤ n ∧ n ≤ 64 ∧ (s.rdCur.toNat : Int) + n ≤ s.rdTotal ∧ s.bitCountError n = none) := by
  by_cases h : n < 1 ∨ 64 < n
  · exact .inl ⟨h, by simp only [State.bitCountError, if_pos h]⟩
  · by_cases h2 : s.rdTotal < s.rdCur.toNat + n
    · exact .inr (.inl ⟨by omega, by omega, h2, by simp only [State.bitCountError, if_neg h, if_pos h2]⟩)
    · exact .inr (.inr ⟨by omega, by omega, by omega, by simp only [State.bitCountError, if_neg h, if_neg h2]⟩)

/-- How READ ends: an error report, a fault at a byte of its bits, or its bits. -/
theorem execRead_cases (n : Nat) (s : State) :
    (∃ t, s.bitCountError n = some t ∧ execRead n s = .next t) ∨
    (s.bitCountError n = none ∧
      ((∃ f, s.streamBits n = .error f ∧ execRead n s = .fault f) ∨
        ∃ x, s.streamBits n = .ok x ∧ execRead n s = .next ((s.setRes (BitVec.ofNat 64 x)).advance n).succeed)) := by
  unfold execRead
  cases h : s.bitCountError n with
  | some t => exact .inl ⟨t, rfl, rfl⟩
  | none => cases hb : s.streamBits n with
    | error f => exact .inr ⟨rfl, .inl ⟨f, rfl, rfl⟩⟩
    | ok x => exact .inr ⟨rfl, .inr ⟨x, rfl, rfl⟩⟩

/-- How SUBRD ends. -/
theorem execSubrd_cases (n : Nat) (e : Endian) (s : State) :
    (∃ t, s.bitCountError n = some t ∧ execSubrd n e s = .next t) ∨
    (s.bitCountError n = none ∧
      ((∃ f, s.streamBits n = .error f ∧ execSubrd n e s = .fault f) ∨
        ∃ x, s.streamBits n = .ok x ∧ execSubrd n e s = .next
          (((s.putBytes (numberBytes (octetsFor n) e x)).setRes
            (BitVec.ofNat 64 (8 * octetsFor n - n))).advance n).succeed)) := by
  unfold execSubrd
  cases h : s.bitCountError n with
  | some t => exact .inl ⟨t, rfl, rfl⟩
  | none => cases hb : s.streamBits n with
    | error f => exact .inr ⟨rfl, .inl ⟨f, rfl, rfl⟩⟩
    | ok x => exact .inr ⟨rfl, .inr ⟨x, rfl, rfl⟩⟩

/-! ### RDBYTES -/

/-- How the loop of RDBYTES ends: a fault of a byte of the stream, or the m bytes read and kept, with the error report where
m is less than asked. -/
theorem rdbytesLoop_cases (left : Nat) : ∀ (s : State) (k : Nat),
    (∃ (f : Fault) (i : Nat), rdbytesLoop s k left = .fault f ∧ (s.rdCur.toNat : Int) + i < s.rdTotal ∧
      s.ibufRead (byteIndex s.rdLen.toNat s.rdEnd (s.rdOff.toNat + s.rdCur.toNat + i)) = .error f) ∨
    ∃ (o : Memory) (m : Nat), m ≤ left ∧ (m = 0 ∨ (s.rdCur.toNat : Int) + 8 * m ≤ s.rdTotal) ∧
      (Memory.wf s.obuf = true → Memory.wf o = true) ∧
      (∀ b, k + left ≤ b → Memory.below b s.obuf = true → Memory.below b o = true) ∧
      rdbytesLoop s k left = .next
        (let t : State := { s with
          obuf := o, olen := BitVec.ofNat 9 (k + m), rdCur := BitVec.ofNat 64 (s.rdCur.toNat + 8 * m) }
         if m = left then t.succeed else t.raise .bitsCountOutOfBounds (s.rdCur.toNat + 8 * m : Nat) 8 s.rdTotal) := by
  induction left with
  | zero =>
    intro s k
    exact .inr ⟨s.obuf, 0, le_rfl, .inl rfl, id, fun _ _ h => h, by simp [rdbytesLoop, State.setOlen]⟩
  | succ left ih =>
    intro s k
    by_cases hlt : s.rdTotal < s.rdCur.toNat + 8
    · exact .inr ⟨s.obuf, 0, Nat.zero_le _, .inl rfl, id, fun _ _ h => h, by simp [rdbytesLoop, hlt, State.setOlen]⟩
    · cases hb : s.streamBits 8 with
      | error f =>
        obtain ⟨i, hi, he⟩ := s.logicalBits_error _ _ _ hb
        exact .inl ⟨f, i, by simp only [rdbytesLoop, hlt, if_false, hb], by omega, he⟩
      | ok x =>
        have hT := s.rdTotal_lt
        have hstep : rdbytesLoop s k (left + 1) =
            rdbytesLoop ((s.obufWrite k (BitVec.ofNat 8 x)).advance 8) (k + 1) left := by
          simp only [rdbytesLoop, hlt, if_false, hb]
        have hcur : ((s.obufWrite k (BitVec.ofNat 8 x)).advance 8).rdCur.toNat = s.rdCur.toNat + 8 := by
          rw [State.advance_eq]
          simp only [State.obufWrite_rdCur, BitVec.toNat_ofNat]
          exact Nat.mod_eq_of_lt (by omega)
        have htot : ((s.obufWrite k (BitVec.ofNat 8 x)).advance 8).rdTotal = s.rdTotal := rfl
        rw [hstep]
        rcases ih ((s.obufWrite k (BitVec.ofNat 8 x)).advance 8) (k + 1) with
          ⟨f, i, hf, hi, he⟩ | ⟨o, m, hm, hbd, hwf, hbelow, hrun⟩
        · rw [hcur, htot] at hi
          refine .inl ⟨f, i + 8, hf, by push_cast; omega, ?_⟩
          rw [hcur] at he
          rw [show s.rdOff.toNat + s.rdCur.toNat + (i + 8) = s.rdOff.toNat + (s.rdCur.toNat + 8) + i by omega]
          exact he
        · rw [hcur, htot] at hbd
          refine .inr ⟨o, m + 1, by omega, .inr (by push_cast; omega), fun h => hwf (Memory.wf_write _ _ _ h),
            fun b hkb h => hbelow b (by omega) (Memory.below_write _ _ _ _ (by omega) h), ?_⟩
          rw [hrun, hcur, htot]
          have h1 : k + 1 + m = k + (m + 1) := by omega
          have h2 : s.rdCur.toNat + 8 + 8 * m = s.rdCur.toNat + 8 * (m + 1) := by omega
          have h3 : (m = left) ↔ (m + 1 = left + 1) := by omega
          simp only [h1, h2, h3]
          rfl

/-- A loop of RDBYTES that ends has read every bit of the bytes before the end of the stream. -/
theorem rdbytesLoop_readable (left : Nat) : ∀ (s t : State) (k : Nat), rdbytesLoop s k left = .next t →
    ∀ i, i < 8 * min left ((s.rdTotal - s.rdCur.toNat) / 8).toNat →
      s.Readable (byteIndex s.rdLen.toNat s.rdEnd (s.rdOff.toNat + s.rdCur.toNat + i)) := by
  induction left with
  | zero => intro s t k h i hi; omega
  | succ left ih =>
    intro s t k h i hi
    simp only [rdbytesLoop] at h
    split at h
    · omega
    · split at h
      · cases h
      · rename_i hlt x hx
        by_cases h8 : i < 8
        · obtain ⟨b, hb⟩ := s.readable_of_logicalBits _ _ _ hx i h8
          exact s.readable_of_ibufRead _ _ hb
        · have hT := s.rdTotal_lt
          have hcur : ((s.obufWrite k (BitVec.ofNat 8 x)).advance 8).rdCur.toNat = s.rdCur.toNat + 8 := by
            rw [State.advance_eq]
            simp only [State.obufWrite_rdCur, BitVec.toNat_ofNat]
            exact Nat.mod_eq_of_lt (by omega)
          have h2 := ih _ t _ h (i - 8) (by
            rw [hcur]; show i - 8 < 8 * min left ((s.rdTotal - _) / 8).toNat; omega)
          rw [hcur] at h2
          rw [show s.rdOff.toNat + s.rdCur.toNat + i = s.rdOff.toNat + (s.rdCur.toNat + 8) + (i - 8) by omega]
          exact h2

/-! ### Values within their widths (R16) -/

/-- A value fits its group when it is below 2^W. -/
theorem Group.fits_iff (g : Group) : g.fits ↔ g.value.toNat < 2 ^ g.bits := by
  have := Nat.two_pow_pos g.bits
  unfold Group.fits; omega

/-- A value masked to the width fits. -/
theorem Group.fits_and_mask (w : Width) (e : Endian) (v : Word) : Group.fits ⟨v &&& widthMask w, w, e⟩ := by
  rw [Group.fits_iff]
  show (v &&& widthMask w).toNat < 2 ^ widthBits w
  rw [and_widthMask_toNat]; exact Nat.mod_lt _ (Nat.two_pow_pos _)

/-- The width's own mask fits. -/
theorem Group.fits_mask (w : Width) (e : Endian) : Group.fits ⟨widthMask w, w, e⟩ := by
  show (widthMask w).toNat ≤ 2 ^ widthBits w - 1
  rw [widthMask_toNat]

/-- A complement within the width fits. -/
theorem Group.fits_complement (w : Width) (e : Endian) (v : Word) :
    Group.fits ⟨complementWithin (widthMask w) v, w, e⟩ :=
  (Group.fits_iff _).mpr (complementWithin_lt w v)

/-- A range of a value that fits is a value that fits. -/
theorem Group.fits_getRange (g : Group) (first last : Nat) (h : rangeLegal g.bits first last = true) :
    Group.fits { g with value := getRange g.value first last } := by
  simp only [rangeLegal, Bool.and_eq_true, decide_eq_true_eq] at h
  have hb : g.bits ≤ 64 := widthBits_le _
  rw [Group.fits_iff]
  show (getRange g.value first last).toNat < 2 ^ g.bits
  rw [getRange_toNat _ _ _ h.1 (by omega)]
  exact lt_of_lt_of_le (Nat.mod_lt _ (Nat.two_pow_pos _)) (Nat.pow_le_pow_right (by decide) (by omega))

/-- SETR's value fits. -/
theorem Group.fits_setRange (g : Group) (first last : Nat) (x : Word) (h : rangeLegal g.bits first last = true) :
    Group.fits { g with value := setRange g.mask g.value first last x } := by
  simp only [rangeLegal, Bool.and_eq_true, decide_eq_true_eq] at h
  exact (Group.fits_iff _).mpr (setRange_lt g.wcode g.value x first last h.1 h.2)

/-- One bit moved to a place below W stays below 2^W. -/
theorem bit_shiftLeft_lt (b : Bool) (i w : Nat) (h : i < w) (hw : w ≤ 64) :
    ((BitVec.ofBool b).setWidth 64 <<< i).toNat < 2 ^ w := by
  have hi : 2 ^ i < 2 ^ w := Nat.pow_lt_pow_right (by decide) h
  have h1 := oneShift_toNat i (by omega)
  rw [Nat.shiftLeft_eq, Nat.one_mul] at h1
  cases b
  · have : ((BitVec.ofBool false).setWidth 64 <<< i : Word) = 0#64 := by simp
    rw [this]; exact Nat.two_pow_pos _
  · show (1#64 <<< i).toNat < _
    rw [h1]; exact hi

/-- SETB's value fits. -/
theorem Group.fits_setBit (g : Group) (i : Nat) (b : Bool) (h : i < g.bits) :
    Group.fits { g with
      value := (g.value &&& complementWithin g.mask (1#64 <<< i)) ||| ((BitVec.ofBool b).setWidth 64 <<< i) } := by
  rw [Group.fits_iff]
  show (_ : Word).toNat < 2 ^ g.bits
  rw [BitVec.toNat_or, BitVec.toNat_and]
  exact Nat.or_lt_two_pow (lt_of_le_of_lt Nat.and_le_right (complementWithin_lt g.wcode _))
    (bit_shiftLeft_lt b i g.bits h (widthBits_le _))

/-- FLIP's value fits. -/
theorem Group.fits_flip (g : Group) (i : Nat) (h : i < g.bits) (hg : g.fits) :
    Group.fits { g with value := g.value ^^^ (1#64 <<< i) } := by
  rw [Group.fits_iff] at hg ⊢
  show (_ : Word).toNat < 2 ^ g.bits
  rw [BitVec.toNat_xor]
  exact Nat.xor_lt_two_pow hg (bit_shiftLeft_lt true i g.bits h (widthBits_le _))

/-- SETO's value fits. -/
theorem Group.fits_withOctet (g : Group) (i : Nat) (b : Byte) : Group.fits { g with value := g.withOctet i b } :=
  (Group.fits_iff _).mpr (g.withOctet_lt i b)

/-- REVO's value fits. -/
theorem Group.fits_reversed (g : Group) (hg : g.fits) : Group.fits { g with value := g.reversed.value } :=
  (Group.fits_iff _).mpr (g.reversed_lt ((Group.fits_iff _).mp hg))

/-- SHR's value fits. -/
theorem Group.fits_shiftRight (g : Group) (n : Nat) (hg : g.fits) : Group.fits { g with value := g.value >>> n } := by
  unfold Group.fits at hg ⊢
  show (g.value >>> n).toNat ≤ 2 ^ g.bits - 1
  rw [BitVec.toNat_ushiftRight, Nat.shiftRight_eq_div_pow]
  exact le_trans (Nat.div_le_self _ _) hg

/-- Writing a group that fits keeps the group invariant. -/
theorem State.groupInv_set (s : State) (r : GroupReg) (x : Group) (h : s.GroupInv) (hx : x.fits) :
    ∀ q, ((s.groups.set r x).get q).fits := by
  intro q
  rw [Groups.get_set]
  split
  · exact hx
  · exact h q

/-- What the invariant depends on: a state that agrees with s but for its groups and the registers no invariant names. -/
theorem State.Inv.frame {s t : State} (h : s.Inv) (hg : t.GroupInv) (h1 : t.params = s.params) (h2 : t.rdLen = s.rdLen)
    (h3 : t.rdOff = s.rdOff) (h4 : t.rdPad = s.rdPad) (h5 : t.rdCur = s.rdCur) (h6 : t.ibuf = s.ibuf)
    (h7 : t.obuf = s.obuf) (h8 : t.olen = s.olen) : t.Inv := by
  obtain ⟨a, b, c, d, e⟩ := h
  refine ⟨by rw [h1]; exact a, hg, ?_, ?_, ?_⟩
  · unfold State.ReaderInv State.rdTotal at *; rw [h1, h2, h3, h4, h5]; exact c
  · unfold State.BufferInv at *; rw [h1, h6, h7]; exact d
  · unfold State.OlenInv at *; rw [h8]; exact e

/-! ### The two ends of a command (60_exceptions.md R131, R132, R136) -/

/-- The command succeeded: t is u with STATUS.CODE 0, and u has the error report and the host's side of s. -/
def Succeeds (s t : State) : Prop :=
  ∃ u : State, t = u.succeed ∧ u.errSeen = s.errSeen ∧ u.errA = s.errA ∧ u.errB = s.errB ∧ u.errC = s.errC ∧
    u.params = s.params ∧ u.draws = s.draws ∧ u.pending = s.pending ∧ u.outputs = s.outputs

/-- The command reported an error on u: the state before the command, or what RDBYTES keeps of its progress. -/
def Reports (i : Instr) (s t : State) : Prop :=
  ∃ (u : State) (n : Code) (a b c : Int), n ≠ .success ∧ t = u.raise n a b c ∧
    ((u = s ∧ ∀ size, i ≠ .rdbytes size) ∨
      ((∃ size, i = .rdbytes size) ∧
        ∃ (o : Memory) (l : BitVec 9) (r : Word), u = { s with obuf := o, olen := l, rdCur := r }))

theorem succeeds_next {s t u : State} (h : Host.Outcome.next u.succeed = (Host.Outcome.next t : Host.Outcome State Fault Refusal))
    (h1 : u.errSeen = s.errSeen) (h2 : u.errA = s.errA) (h3 : u.errB = s.errB) (h4 : u.errC = s.errC)
    (h5 : u.params = s.params) (h6 : u.draws = s.draws) (h7 : u.pending = s.pending) (h8 : u.outputs = s.outputs) :
    Succeeds s t := by
  cases h; exact ⟨u, rfl, h1, h2, h3, h4, h5, h6, h7, h8⟩

theorem reports_next {i : Instr} {s t : State} {n : Code} {a b c : Int} (hi : ∀ size, i ≠ .rdbytes size)
    (hn : n ≠ .success) (h : Host.Outcome.next (s.raise n a b c) = (Host.Outcome.next t : Host.Outcome State Fault Refusal)) :
    Reports i s t := by
  cases h; exact ⟨s, n, a, b, c, hn, rfl, .inl ⟨rfl, hi⟩⟩

theorem crcCalc_ends {w : Nat} {i : Instr} (s t : State) (stepper : BitVec w → Byte → BitVec w) (init : BitVec w)
    (hi : ∀ size, i ≠ .rdbytes size) (h : s.crcCalc stepper init = .next t) : Succeeds s t ∨ Reports i s t := by
  rcases s.crcCalc_cases stepper init with ⟨_, hx⟩ | ⟨_, ⟨f, j, _, _, hx⟩ | ⟨r, _, hx⟩⟩ <;> rw [hx] at h
  · exact .inr (reports_next hi (by decide) h)
  · cases h
  · exact .inl (succeeds_next h rfl rfl rfl rfl rfl rfl rfl rfl)

/-- Every command that ends with a next state succeeded or reported an error. -/
theorem exec_ends (i : Instr) (s t : State) (h : exec i s = .next t) : Succeeds s t ∨ Reports i s t := by
  cases i
  case rdbytes size =>
    rcases rdbytesLoop_cases size s 0 with ⟨f, j, hf, _⟩ | ⟨o, m, _, _, _, _, hrun⟩
    · exact absurd (hf.symm.trans h) (by simp)
    · replace h := hrun.symm.trans h
      simp only at h
      split at h
      · exact .inl (succeeds_next h rfl rfl rfl rfl rfl rfl rfl rfl)
      · cases h; exact .inr ⟨_, _, _, _, _, by decide, rfl, .inr ⟨⟨size, rfl⟩, _, _, _, rfl⟩⟩
  case read n =>
    rcases execRead_cases n s with ⟨u, hu, hx⟩ | ⟨_, ⟨f, _, hx⟩ | ⟨x, _, hx⟩⟩ <;> replace h := hx.symm.trans h
    · rcases s.bitCountError_cases n with ⟨_, hb⟩ | ⟨_, _, _, hb⟩ | ⟨_, _, _, hb⟩ <;> rw [hb] at hu <;> cases hu <;>
        exact .inr (reports_next (by simp) (by decide) h)
    · cases h
    · exact .inl (succeeds_next h rfl rfl rfl rfl rfl rfl rfl rfl)
  case subrd n e =>
    rcases execSubrd_cases n e s with ⟨u, hu, hx⟩ | ⟨_, ⟨f, _, hx⟩ | ⟨x, _, hx⟩⟩ <;> replace h := hx.symm.trans h
    · rcases s.bitCountError_cases n with ⟨_, hb⟩ | ⟨_, _, _, hb⟩ | ⟨_, _, _, hb⟩ <;> rw [hb] at hu <;> cases hu <;>
        exact .inr (reports_next (by simp) (by decide) h)
    · cases h
    · rw [State.putBytes_eq] at h
      exact .inl (succeeds_next h rfl rfl rfl rfl rfl rfl rfl rfl)
  case c8calc => exact crcCalc_ends _ _ _ _ (by simp) h
  case c16calc => exact crcCalc_ends _ _ _ _ (by simp) h
  case tobytes g =>
    simp only [exec, execTobytes] at h
    rw [State.putBytes_eq] at h
    exact .inl (succeeds_next h rfl rfl rfl rfl rfl rfl rfl rfl)
  all_goals
    simp only [exec, execNop, execLoad, execCopy, execExtr, execGetb, execSetb, execFlip, execGetr, execSetr, execGeto,
      execSeto, execMsb, execLsb, execMso, execLso, execRevo, execRevc, execTwos, execShl, execShr, execAnd, execOr,
      execNot, execInc, execFmask, execRdinit, execSeek, execC8poly, execC8upd, execC8tbl, execC16poly, execC16upd,
      execC16tbl] at h
  all_goals first
    | exact .inl (succeeds_next h rfl rfl rfl rfl rfl rfl rfl rfl)
    | (split at h <;> first
        | exact .inl (succeeds_next h rfl rfl rfl rfl rfl rfl rfl rfl)
        | exact .inr (reports_next (by simp) (by decide) h))

end Sys2Proof.Machine
end

