-- ==== Sys2Proof/Laws/PerInstr.lean ====
section
/-! SUPPORT. The family Encoding: for every command, the encoder spells an opcode of the map and leaves every field the opcode
does not use at zero (30_encoding.md R55, R63). -/

namespace Sys2Proof.Laws.Encoding

/-- The fields of a command's word: its opcode is in the map, and the fields it does not use are zero. -/
def Statement (i : Instr) : Prop :=
  ∃ u, usedFields (encodeFields i).opc = some u ∧ unusedZero u (encodeFields i) = true

theorem nop : Statement (Instr.nop) := ⟨_, rfl, by simp [unusedZero, encodeFields]⟩
theorem load (gd : GroupReg) (w : Width) (e : Endian) (src : LoadSource) : Statement (Instr.load gd w e src) := ⟨_, rfl, by simp [unusedZero, encodeFields]⟩
theorem copy (gd : GroupReg) (gs : GroupReg) : Statement (Instr.copy gd gs) := ⟨_, rfl, by simp [unusedZero, encodeFields]⟩
theorem extr (gd : GroupReg) (gs : GroupReg) (first : Nat) (last : Nat) : Statement (Instr.extr gd gs first last) := ⟨_, rfl, by simp [unusedZero, encodeFields]⟩
theorem getb (gs : GroupReg) (index : Nat) : Statement (Instr.getb gs index) := ⟨_, rfl, by simp [unusedZero, encodeFields]⟩
theorem setb (gd : GroupReg) (index : Nat) (bit : Bool) : Statement (Instr.setb gd index bit) := ⟨_, rfl, by simp [unusedZero, encodeFields]⟩
theorem flip (gd : GroupReg) (index : Nat) : Statement (Instr.flip gd index) := ⟨_, rfl, by simp [unusedZero, encodeFields]⟩
theorem getr (gs : GroupReg) (first : Nat) (last : Nat) : Statement (Instr.getr gs first last) := ⟨_, rfl, by simp [unusedZero, encodeFields]⟩
theorem setr (gd : GroupReg) (first : Nat) (last : Nat) : Statement (Instr.setr gd first last) := ⟨_, rfl, by simp [unusedZero, encodeFields]⟩
theorem geto (gs : GroupReg) (octet : Nat) : Statement (Instr.geto gs octet) := ⟨_, rfl, by simp [unusedZero, encodeFields]⟩
theorem seto (gd : GroupReg) (octet : Nat) (byte : Byte) : Statement (Instr.seto gd octet byte) := ⟨_, rfl, by simp [unusedZero, encodeFields]⟩
theorem msb (gs : GroupReg) : Statement (Instr.msb gs) := ⟨_, rfl, by simp [unusedZero, encodeFields]⟩
theorem lsb (gs : GroupReg) : Statement (Instr.lsb gs) := ⟨_, rfl, by simp [unusedZero, encodeFields]⟩
theorem mso (gs : GroupReg) : Statement (Instr.mso gs) := ⟨_, rfl, by simp [unusedZero, encodeFields]⟩
theorem lso (gs : GroupReg) : Statement (Instr.lso gs) := ⟨_, rfl, by simp [unusedZero, encodeFields]⟩
theorem tobytes (gs : GroupReg) : Statement (Instr.tobytes gs) := ⟨_, rfl, by simp [unusedZero, encodeFields]⟩
theorem revo (gd : GroupReg) : Statement (Instr.revo gd) := ⟨_, rfl, by simp [unusedZero, encodeFields]⟩
theorem revc (gd : GroupReg) (gs : GroupReg) : Statement (Instr.revc gd gs) := ⟨_, rfl, by simp [unusedZero, encodeFields]⟩
theorem twos (gd : GroupReg) (gs : GroupReg) : Statement (Instr.twos gd gs) := ⟨_, rfl, by simp [unusedZero, encodeFields]⟩
theorem shl (gd : GroupReg) (count : Nat) : Statement (Instr.shl gd count) := ⟨_, rfl, by simp [unusedZero, encodeFields]⟩
theorem shr (gd : GroupReg) (count : Nat) : Statement (Instr.shr gd count) := ⟨_, rfl, by simp [unusedZero, encodeFields]⟩
theorem and (gd : GroupReg) (gs : GroupReg) : Statement (Instr.and gd gs) := ⟨_, rfl, by simp [unusedZero, encodeFields]⟩
theorem or (gd : GroupReg) (gs : GroupReg) : Statement (Instr.or gd gs) := ⟨_, rfl, by simp [unusedZero, encodeFields]⟩
theorem not (gd : GroupReg) : Statement (Instr.not gd) := ⟨_, rfl, by simp [unusedZero, encodeFields]⟩
theorem inc (gd : GroupReg) : Statement (Instr.inc gd) := ⟨_, rfl, by simp [unusedZero, encodeFields]⟩
theorem fmask (gd : GroupReg) : Statement (Instr.fmask gd) := ⟨_, rfl, by simp [unusedZero, encodeFields]⟩
theorem rdinit (e : Endian) : Statement (Instr.rdinit e) := ⟨_, rfl, by simp [unusedZero, encodeFields]⟩
theorem read (n : Nat) : Statement (Instr.read n) := ⟨_, rfl, by simp [unusedZero, encodeFields]⟩
theorem rdbytes (size : Nat) : Statement (Instr.rdbytes size) := ⟨_, rfl, by simp [unusedZero, encodeFields]⟩
theorem seek (origin : SeekOrigin) : Statement (Instr.seek origin) := ⟨_, rfl, by simp [unusedZero, encodeFields]⟩
theorem subrd (n : Nat) (e : Endian) : Statement (Instr.subrd n e) := ⟨_, rfl, by simp [unusedZero, encodeFields]⟩
theorem c8poly : Statement (Instr.c8poly) := ⟨_, rfl, by simp [unusedZero, encodeFields]⟩
theorem c8calc : Statement (Instr.c8calc) := ⟨_, rfl, by simp [unusedZero, encodeFields]⟩
theorem c8upd (byte : Byte) : Statement (Instr.c8upd byte) := ⟨_, rfl, by simp [unusedZero, encodeFields]⟩
theorem c8tbl (index : Byte) : Statement (Instr.c8tbl index) := ⟨_, rfl, by simp [unusedZero, encodeFields]⟩
theorem c16poly : Statement (Instr.c16poly) := ⟨_, rfl, by simp [unusedZero, encodeFields]⟩
theorem c16calc : Statement (Instr.c16calc) := ⟨_, rfl, by simp [unusedZero, encodeFields]⟩
theorem c16upd (byte : Byte) : Statement (Instr.c16upd byte) := ⟨_, rfl, by simp [unusedZero, encodeFields]⟩
theorem c16tbl (index : Byte) : Statement (Instr.c16tbl index) := ⟨_, rfl, by simp [unusedZero, encodeFields]⟩

end Sys2Proof.Laws.Encoding
end

