-- ==== Sys2Proof/Laws/Step.lean ====
section
/-! SUPPORT. How a step ends: one lemma per layer around exec, and where a host access lands. -/

namespace Sys2Proof.Machine

/-- A command word runs its command, or it is illegal and reports so. -/
theorem runCommand_cases (w : CmdWord) (s t : State) (h : runCommand w s = .next t) :
    (∃ i, decode w = .command i ∧ exec i s = .next t) ∨
      (∃ why, decode w = .illegal why ∧ t = s.raise .illegalCommand w.toNat 0 0) := by
  simp only [runCommand] at h
  split at h
  · rename_i i hi; exact .inl ⟨i, hi, h⟩
  · rename_i why hi; cases h; exact .inr ⟨why, hi, rfl⟩

/-- A decoded command is well formed. -/
theorem wellFormed_of_decode (w : CmdWord) (i : Instr) (h : decode w = .command i) : i.wellFormed = true := by
  simp only [decode] at h
  split at h
  · cases h
  · rename_i u hu
    split at h
    · rename_i hz
      split at h
      · rename_i j hj; cases h; exact (encodeFields_of_commandOf _ u i hu hz hj).2
      · cases h
    · cases h

/-- One action: a command runs, a host write stores, a host read adds an output, or the block is reset. -/
theorem perform_cases (act : HostAction) (s t : State) (h : perform act s = .next t) :
    (∃ w, runCommand w s = .next t) ∨ (∃ d tg, t = s.hostStore d tg) ∨ (∃ v, t = s.pushOutput v) ∨
      (act = .reset ∧ t = s.platformReset) := by
  cases act with
  | write a n d =>
    simp only [perform, hostWrite] at h
    split at h
    · cases h
    · exact .inl ⟨_, h⟩
    · cases h; exact .inr (.inl ⟨_, _, rfl⟩)
  | read a n =>
    simp only [perform, hostRead] at h
    split at h
    · cases h
    · split at h
      · cases h
      · cases h; exact .inr (.inr (.inl ⟨_, rfl⟩))
  | reset => cases h; exact .inr (.inr (.inr ⟨rfl, rfl⟩))

/-- A host write stores to ARG0, ARG1 and IBUF at most. -/
theorem State.hostStore_eq (s : State) (d : Word) (tg : Target) :
    s.hostStore d tg =
      { s with arg0 := (s.hostStore d tg).arg0, arg1 := (s.hostStore d tg).arg1, ibuf := (s.hostStore d tg).ibuf } := by
  cases tg with
  | register r => cases r <;> rfl
  | ibuf a => simp only [State.hostStore, State.ibufWrite]; split <;> rfl
  | _ => rfl

/-- A step: nothing is pending and nothing changes, or the next action is performed. -/
theorem step_cases (s t : State) (h : step s = .next t) :
    (s.pending = [] ∧ t = s) ∨
      ∃ act rest, s.pending = act :: rest ∧ perform act { s with pending := rest } = .next t := by
  simp only [step, performNext] at h
  split at h
  · rename_i hp; cases h; exact .inl ⟨hp, rfl⟩
  · rename_i act rest hp; exact .inr ⟨act, rest, hp, h⟩

/-! ### Where an access lands -/

/-- A slot below the OBUF window. -/
theorem target_slot (x : HostAddr) (h : x.toNat < 0x800) (h8 : x.toNat % 8 = 0) :
    target x 8 = some (match registerAt x.toNat with | some r => .register r | none => .reserved) := by
  unfold target ibufWindow obufWindow
  simp only
  rw [if_neg (by omega), if_neg (by omega), show 8 * (x.toNat / 8) = x.toNat by omega]
  cases registerAt x.toNat <;> simp [h8]

/-- An address the map does not name, by an access size the model permits there (log 3). -/
theorem target_reserved (x : HostAddr) (size : Nat)
    (h : 0x90 ≤ x.toNat ∧ x.toNat < 0xC0 ∨ 0xE8 ≤ x.toNat ∧ x.toNat < 0x800 ∨ 0x900 ≤ x.toNat ∧ x.toNat < 0x10000)
    (hs : size = 1 ∨ size = 8 ∧ x.toNat % 8 = 0) : target x size = some .reserved := by
  unfold target ibufWindow obufWindow Config.obufBytes
  simp only
  rw [if_neg (by omega), if_neg (by omega)]
  have hn : registerAt (8 * (x.toNat / 8)) = none := by
    unfold registerAt
    split <;> first | rfl | (exfalso; omega)
  rw [hn]
  simp only
  rw [if_pos hs]

/-- A byte of the OBUF window. -/
theorem target_obuf (a : Nat) (ha : a < 256) : target (BitVec.ofNat 17 (0x800 + a)) 1 = some (.obuf a) := by
  unfold target ibufWindow obufWindow Config.obufBytes
  simp only [BitVec.toNat_ofNat]
  rw [Nat.mod_eq_of_lt (by omega), if_neg (by omega), if_pos (by omega)]; simp

/-- A byte of the IBUF window. -/
theorem target_ibuf (a : Nat) (ha : a < 65536) : target (BitVec.ofNat 17 (0x10000 + a)) 1 = some (.ibuf a) := by
  unfold target ibufWindow
  simp only [BitVec.toNat_ofNat]
  rw [Nat.mod_eq_of_lt (by omega), if_pos (by omega)]; simp

end Sys2Proof.Machine
end

