-- ==== Sys2Proof/Machine/Assembler.lean ====
section
/-! DEFINITION. Programs as lists of host actions (00_scope.md R12) and the pseudo-instructions (30_encoding.md R69). -/

namespace Sys2Proof.Machine

/-! ### The actions wr, cmd and rd (R12) at the addresses of the register map (10_state.md R31) -/

/-- `wr ARG0, v`. -/
def wrArg0 (v : Word) : HostAction := .write 0x00010#17 8 v

/-- `wr ARG1, v`. -/
def wrArg1 (v : Word) : HostAction := .write 0x00018#17 8 v

/-- `wr IBUF[a], b`. -/
def wrIbuf (a : Nat) (b : Byte) : HostAction := .write (BitVec.ofNat 17 (ibufWindow + a)) 1 (b.setWidth 64)

/-- `cmd` of a command: the host writes its word to CMD. -/
def cmd (i : Instr) : HostAction := cmdWrite (encode i)

/-- `rd` of the register at a slot address. -/
def rdReg (slot : HostAddr) : HostAction := .read slot 8

/-- `rd RES`. -/
def rdRes : HostAction := rdReg 0x00020#17

/-- `rd STATUS`. -/
def rdStatus : HostAction := rdReg 0x00008#17

/-- `rd OBUF[a]`. -/
def rdObuf (a : Nat) : HostAction := .read (BitVec.ofNat 17 (obufWindow + a)) 1

/-- `rd IBUF[a]`. -/
def rdIbuf (a : Nat) : HostAction := .read (BitVec.ofNat 17 (ibufWindow + a)) 1

/-! ### Pseudo-instructions (R69) -/

/-- The low 32 bits of a number, negative ones as two's complement. -/
def patternOf32 (v : Int) : BitVec 32 := BitVec.ofInt 32 v

/-- `READ1` to `READ64`: n is the count in the name. -/
def asmReadBits (n : Nat) : List HostAction := [cmd (.read n)]

/-- `MOVEBY k`. -/
def asmMoveby (k : Int) : List HostAction := [wrArg0 (BitVec.ofInt 64 k), cmd (.seek .cur)]

/-- `RESETIDX`. -/
def asmResetidx : List HostAction := [wrArg0 0#64, cmd (.seek .set)]

/-- `SEEKTO k, origin`. -/
def asmSeekto (k : Int) (origin : SeekOrigin) : List HostAction := [wrArg0 (BitVec.ofInt 64 k), cmd (.seek origin)]

/-- `LOADI Gd, wN, e, imm`. -/
def asmLoadi (gd : GroupReg) (w : Width) (e : Endian) (imm : Word) : List HostAction :=
  [wrArg0 imm, cmd (.load gd w e .arg0)]

/-- `READG Gd, wN, e`: N is the width in bits. -/
def asmReadg (gd : GroupReg) (w : Width) (e : Endian) : List HostAction :=
  [cmd (.read (widthBits w)), cmd (.load gd w e .res)]

/-- `RDOPEN e, len, off, pad`. -/
def asmRdopen (e : Endian) (len : Nat) (off pad : Int) : List HostAction :=
  [wrArg0 (patternOf32 pad ++ patternOf32 off : BitVec 64), wrArg1 (BitVec.ofNat 64 len), cmd (.rdinit e)]

/-- `CRC8 start, len, init`. -/
def asmCrc8 (start len : BitVec 32) (init : Word) : List HostAction :=
  [wrArg0 (len ++ start : BitVec 64), wrArg1 init, cmd .c8calc]

/-- `CRC16 start, len, init`. -/
def asmCrc16 (start len : BitVec 32) (init : Word) : List HostAction :=
  [wrArg0 (len ++ start : BitVec 64), wrArg1 init, cmd .c16calc]

/-- `CRC8_CCITT`. -/
def asmCrc8Ccitt : List HostAction := [wrArg0 0x07#64, cmd .c8poly]

/-- `CRC16_CCITT`. -/
def asmCrc16Ccitt : List HostAction := [wrArg0 0x1021#64, cmd .c16poly]

/-! ### Mnemonic syntax (R68) -/

/-- `Gn`. -/
def spellGroup : GroupReg → String
  | .g0 => "G0"
  | .g1 => "G1"
  | .g2 => "G2"
  | .g3 => "G3"

/-- `w8` to `w64`. -/
def spellWidth : Width → String
  | .w8 => "w8"
  | .w16 => "w16"
  | .w24 => "w24"
  | .w32 => "w32"
  | .w64 => "w64"

/-- `msf` or `lsf`. -/
def spellEndian : Endian → String
  | .msf => "msf"
  | .lsf => "lsf"

/-- `arg0` or `res`. -/
def spellSource : LoadSource → String
  | .arg0 => "arg0"
  | .res => "res"

/-- `set`, `cur` or `end`. -/
def spellOrigin : SeekOrigin → String
  | .set => "set"
  | .cur => "cur"
  | .fromEnd => "end"

/-- A mnemonic and its operands, separated by commas. -/
def spellLine (mnemonic : String) (operands : List String) : String :=
  if operands.isEmpty then mnemonic else mnemonic ++ " " ++ String.intercalate ", " operands

/-- The `cmd` line that spells a command; numbers are decimal. -/
def spell : Instr → String
  | .nop => spellLine "NOP" []
  | .load gd w e src => spellLine "LOAD" [spellGroup gd, spellWidth w, spellEndian e, spellSource src]
  | .copy gd gs => spellLine "COPY" [spellGroup gd, spellGroup gs]
  | .extr gd gs first last => spellLine "EXTR" [spellGroup gd, spellGroup gs, toString first, toString last]
  | .getb gs index => spellLine "GETB" [spellGroup gs, toString index]
  | .setb gd index bit => spellLine "SETB" [spellGroup gd, toString index, toString bit.toNat]
  | .flip gd index => spellLine "FLIP" [spellGroup gd, toString index]
  | .getr gs first last => spellLine "GETR" [spellGroup gs, toString first, toString last]
  | .setr gd first last => spellLine "SETR" [spellGroup gd, toString first, toString last]
  | .geto gs octet => spellLine "GETO" [spellGroup gs, toString octet]
  | .seto gd octet byte => spellLine "SETO" [spellGroup gd, toString octet, toString byte.toNat]
  | .msb gs => spellLine "MSB" [spellGroup gs]
  | .lsb gs => spellLine "LSB" [spellGroup gs]
  | .mso gs => spellLine "MSO" [spellGroup gs]
  | .lso gs => spellLine "LSO" [spellGroup gs]
  | .tobytes gs => spellLine "TOBYTES" [spellGroup gs]
  | .revo gd => spellLine "REVO" [spellGroup gd]
  | .revc gd gs => spellLine "REVC" [spellGroup gd, spellGroup gs]
  | .twos gd gs => spellLine "TWOS" [spellGroup gd, spellGroup gs]
  | .shl gd count => spellLine "SHL" [spellGroup gd, toString count]
  | .shr gd count => spellLine "SHR" [spellGroup gd, toString count]
  | .and gd gs => spellLine "AND" [spellGroup gd, spellGroup gs]
  | .or gd gs => spellLine "OR" [spellGroup gd, spellGroup gs]
  | .not gd => spellLine "NOT" [spellGroup gd]
  | .inc gd => spellLine "INC" [spellGroup gd]
  | .fmask gd => spellLine "FMASK" [spellGroup gd]
  | .rdinit e => spellLine "RDINIT" [spellEndian e]
  | .read n => spellLine "READ" [toString n]
  | .rdbytes size => spellLine "RDBYTES" [toString size]
  | .seek origin => spellLine "SEEK" [spellOrigin origin]
  | .subrd n e => spellLine "SUBRD" [toString n, spellEndian e]
  | .c8poly => spellLine "C8POLY" []
  | .c8calc => spellLine "C8CALC" []
  | .c8upd byte => spellLine "C8UPD" [toString byte.toNat]
  | .c8tbl index => spellLine "C8TBL" [toString index.toNat]
  | .c16poly => spellLine "C16POLY" []
  | .c16calc => spellLine "C16CALC" []
  | .c16upd byte => spellLine "C16UPD" [toString byte.toNat]
  | .c16tbl index => spellLine "C16TBL" [toString index.toNat]

end Sys2Proof.Machine
end

