-- ==== Sys2Proof/Tests/Slice0.lean ====
section
/-! SUPPORT. The tests: words of the spec and what they decode to, ill-formed terms the check refuses, single steps with the
results of 95_test_vectors.md (its row is named before each), and a witness for the hypotheses of each statement. -/

open Sys2Proof Sys2Proof.Machine Sys2Proof.Spec

namespace Sys2Proof.Tests

/-! ### Words (R53, R63), each from 95_test_vectors.md or written out from the opcode map's row -/

/-- E14. -/
theorem test_decode_nop : decode 0x00000000#32 = .command (.nop) := by decide

/-- B2. -/
theorem test_decode_load : decode 0x10000148#32 = .command (.load .g1 .w8 .lsf .res) := by decide

/-- B4. -/
theorem test_decode_copy : decode 0x11000010#32 = .command (.copy .g0 .g1) := by decide

/-- B5. -/
theorem test_decode_extr : decode 0x12040B80#32 = .command (.extr .g2 .g0 4 11) := by decide

/-- B7. -/
theorem test_decode_getb : decode 0x13070000#32 = .command (.getb .g0 7) := by decide

/-- B9. -/
theorem test_decode_setb : decode 0x14030100#32 = .command (.setb .g0 3 true) := by decide

/-- B11. -/
theorem test_decode_flip : decode 0x15070000#32 = .command (.flip .g0 7) := by decide

/-- B13. -/
theorem test_decode_getr : decode 0x160B0400#32 = .command (.getr .g0 11 4) := by decide

/-- P3. -/
theorem test_decode_setr : decode 0x170C0F80#32 = .command (.setr .g2 12 15) := by decide

/-- B21. -/
theorem test_decode_geto : decode 0x18000010#32 = .command (.geto .g1 0) := by decide

/-- B24. -/
theorem test_decode_seto : decode 0x1900AA40#32 = .command (.seto .g1 0 0xAA#8) := by decide

/-- R63: OPC 0x1A, GS = 3. -/
theorem test_decode_msb : decode 0x1A000030#32 = .command (.msb .g3) := by decide

/-- R63: OPC 0x1B, GS = 2. -/
theorem test_decode_lsb : decode 0x1B000020#32 = .command (.lsb .g2) := by decide

/-- B27. -/
theorem test_decode_mso : decode 0x1C000010#32 = .command (.mso .g1) := by decide

/-- B27. -/
theorem test_decode_lso : decode 0x1D000010#32 = .command (.lso .g1) := by decide

/-- P3. -/
theorem test_decode_tobytes : decode 0x1E000020#32 = .command (.tobytes .g2) := by decide

/-- P3. -/
theorem test_decode_revo : decode 0x1F000080#32 = .command (.revo .g2) := by decide

/-- B32. -/
theorem test_decode_revc : decode 0x200000E0#32 = .command (.revc .g3 .g2) := by decide

/-- W3. -/
theorem test_decode_twos : decode 0x21000040#32 = .command (.twos .g1 .g0) := by decide

/-- B37. -/
theorem test_decode_shl : decode 0x223F00C0#32 = .command (.shl .g3 63) := by decide

/-- B38. -/
theorem test_decode_shr : decode 0x234000C0#32 = .command (.shr .g3 64) := by decide

/-- B40. -/
theorem test_decode_and : decode 0x24000010#32 = .command (.and .g0 .g1) := by decide

/-- B42. -/
theorem test_decode_or : decode 0x25000040#32 = .command (.or .g1 .g0) := by decide

/-- R63: OPC 0x26, GD = 3. -/
theorem test_decode_not : decode 0x260000C0#32 = .command (.not .g3) := by decide

/-- B45. -/
theorem test_decode_inc : decode 0x270000C0#32 = .command (.inc .g3) := by decide

/-- B46. -/
theorem test_decode_fmask : decode 0x28000080#32 = .command (.fmask .g2) := by decide

/-- W1. -/
theorem test_decode_rdinit : decode 0x40000008#32 = .command (.rdinit .lsf) := by decide

/-- RD7. -/
theorem test_decode_read : decode 0x41180000#32 = .command (.read 24) := by decide

/-- RD21. -/
theorem test_decode_rdbytes : decode 0x42030000#32 = .command (.rdbytes 3) := by decide

/-- RD14. -/
theorem test_decode_seek : decode 0x43000002#32 = .command (.seek .fromEnd) := by decide

/-- RD24. -/
theorem test_decode_subrd : decode 0x440A0008#32 = .command (.subrd 10 .lsf) := by decide

/-- CR19. -/
theorem test_decode_c8poly : decode 0x60000000#32 = .command (.c8poly) := by decide

/-- CR1. -/
theorem test_decode_c8calc : decode 0x61000000#32 = .command (.c8calc) := by decide

/-- CR14. -/
theorem test_decode_c8upd : decode 0x62310000#32 = .command (.c8upd 0x31#8) := by decide

/-- CR16. -/
theorem test_decode_c8tbl : decode 0x63FF0000#32 = .command (.c8tbl 0xFF#8) := by decide

/-- CR20. -/
theorem test_decode_c16poly : decode 0x68000000#32 = .command (.c16poly) := by decide

/-- CR4. -/
theorem test_decode_c16calc : decode 0x69000000#32 = .command (.c16calc) := by decide

/-- CR15. -/
theorem test_decode_c16upd : decode 0x6A320000#32 = .command (.c16upd 0x32#8) := by decide

/-- CR17. -/
theorem test_decode_c16tbl : decode 0x6BFF0000#32 = .command (.c16tbl 0xFF#8) := by decide

/-! ### Words that are no command (R55, R56, R64) -/

/-- E1. -/
theorem test_illegal_reserved_opcode : decode 0x01000000#32 = .illegal .reservedOpcode := by decide

/-- E8. -/
theorem test_illegal_opcode_after_c16tbl : decode 0x6C000000#32 = .illegal .reservedOpcode := by decide

/-- E2. -/
theorem test_illegal_nop_field : decode 0x00000001#32 = .illegal .unusedFieldNotZero := by decide

/-- E3. -/
theorem test_illegal_width_code_5 : decode 0x10000005#32 = .illegal .reservedFieldValue := by decide

/-- E4. -/
theorem test_illegal_load_source_2 : decode 0x10000200#32 = .illegal .reservedFieldValue := by decide

/-- E5, B10. -/
theorem test_illegal_setb_bit_2 : decode 0x14000200#32 = .illegal .reservedFieldValue := by decide

/-- E6. -/
theorem test_illegal_rdinit_low_f : decode 0x40000001#32 = .illegal .reservedFieldValue := by decide

/-- E7. -/
theorem test_illegal_seek_origin_3 : decode 0x43000003#32 = .illegal .reservedFieldValue := by decide

/-- E10. -/
theorem test_illegal_read_gs : decode 0x41000010#32 = .illegal .unusedFieldNotZero := by decide

/-- E11. -/
theorem test_illegal_copy_a : decode 0x11010000#32 = .illegal .unusedFieldNotZero := by decide

/-- E12. -/
theorem test_illegal_no_rotate : decode 0x29000000#32 = .illegal .reservedOpcode := by decide

/-! ### Ill-formed terms: each operand check of WellFormed refuses 256 (R68) -/

theorem test_ill_formed_extr_first : Instr.wellFormed (.extr .g0 .g0 256 0) = false := by decide

theorem test_ill_formed_extr_last : Instr.wellFormed (.extr .g0 .g0 0 256) = false := by decide

theorem test_ill_formed_getb : Instr.wellFormed (.getb .g0 256) = false := by decide

theorem test_ill_formed_setb : Instr.wellFormed (.setb .g0 256 true) = false := by decide

theorem test_ill_formed_flip : Instr.wellFormed (.flip .g0 256) = false := by decide

theorem test_ill_formed_getr_first : Instr.wellFormed (.getr .g0 256 0) = false := by decide

theorem test_ill_formed_getr_last : Instr.wellFormed (.getr .g0 0 256) = false := by decide

theorem test_ill_formed_setr_first : Instr.wellFormed (.setr .g0 256 0) = false := by decide

theorem test_ill_formed_setr_last : Instr.wellFormed (.setr .g0 0 256) = false := by decide

theorem test_ill_formed_geto : Instr.wellFormed (.geto .g0 256) = false := by decide

theorem test_ill_formed_seto : Instr.wellFormed (.seto .g0 256 0#8) = false := by decide

theorem test_ill_formed_shl : Instr.wellFormed (.shl .g0 256) = false := by decide

theorem test_ill_formed_shr : Instr.wellFormed (.shr .g0 256) = false := by decide

theorem test_ill_formed_read : Instr.wellFormed (.read 256) = false := by decide

theorem test_ill_formed_rdbytes : Instr.wellFormed (.rdbytes 256) = false := by decide

theorem test_ill_formed_subrd : Instr.wellFormed (.subrd 256 .msf) = false := by decide

/-- The greatest operand that fits. -/
theorem test_well_formed_255 : Instr.wellFormed (.extr .g0 .g0 255 255) = true := by decide

/-! ### Small states -/

/-- The state after reset with one value in G0. -/
def withG0 (v : Word) (w : Width) (e : Endian) : State := State.reset.setGroup .g0 ⟨v, w, e⟩

/-- The state after reset with values in G0 and G1. -/
def withG01 (v : Word) (w : Width) (v1 : Word) (w1 : Width) : State := (withG0 v w .msf).setGroup .g1 ⟨v1, w1, .msf⟩

/-- The state after reset with bytes in IBUF from address 0 on. -/
def withBytes (bs : List Byte) : State := { State.reset with ibuf := bs.zipIdx.map fun p => (p.2, p.1) }

/-- A reader over the first len bytes of a state. -/
def opened (s : State) (e : Endian) (len off pad : BitVec 32) : State := s.setReader len off pad e

/-- The bytes 0x12, 0x34, 0x56 with a reader over all of them. -/
def three (e : Endian) : State := opened (withBytes [0x12#8, 0x34#8, 0x56#8]) e 3#32 0#32 0#32

/-- The bytes 0x31 to 0x39. -/
def digits : State := withBytes [0x31#8, 0x32#8, 0x33#8, 0x34#8, 0x35#8, 0x36#8, 0x37#8, 0x38#8, 0x39#8]

/-- What an outcome's next state holds. -/
def after {α : Type} (o : Host.Outcome State Fault Refusal) (f : State → α) : Option α :=
  match o with
  | .next t => some (f t)
  | _ => none

/-- The error report: CODE and ERR_A to ERR_C. -/
def errors (s : State) : Code × Word × Word × Word := (s.code, s.errA, s.errB, s.errC)

/-- OLEN and the first two bytes of OBUF. -/
def bytesOut (s : State) : BitVec 9 × Option Byte × Option Byte := (s.olen, s.obuf.read 0, s.obuf.read 1)

/-! ### One step each -/

/-- E14. -/
theorem test_nop_keeps_errseen : after (exec .nop (State.reset.raise .invalidBitCount 1 2 3)) (fun s => (s.code, s.errSeen, s.errA)) = some (.success, true, 1#64) := by decide

/-- B1. -/
theorem test_load_masks : after (exec (.load .g0 .w24 .msf .arg0) (State.reset.setArg0 0x0123456789#64)) (fun s => s.groups.g0) = some ⟨0x456789#64, .w24, .msf⟩ := by decide

/-- B2. -/
theorem test_load_from_res : after (exec (.load .g1 .w8 .lsf .res) (State.reset.setRes 0x1FF#64)) (fun s => s.groups.g1) = some ⟨0xFF#64, .w8, .lsf⟩ := by decide

/-- B4 with other registers. -/
theorem test_copy : after (exec (.copy .g2 .g0) (withG0 0xBEEF#64 .w16 .lsf)) (fun s => s.groups.g2) = some ⟨0xBEEF#64, .w16, .lsf⟩ := by decide

/-- B5. -/
theorem test_extr : after (exec (.extr .g2 .g0 4 11) (withG0 0xABCD#64 .w16 .msf)) (fun s => s.groups.g2) = some ⟨0xBC#64, .w16, .msf⟩ := by decide

/-- B6. -/
theorem test_extr_range_error : after (exec (.extr .g2 .g0 0 16) (withG0 0xABCD#64 .w16 .msf)) errors = some (.indexRangeOutOfBounds, 0#64, 16#64, 15#64) := by decide

/-- B7. -/
theorem test_getb : after (exec (.getb .g0 7) (withG0 0x80#64 .w8 .msf)) State.res = some 1#64 := by decide

/-- B8. -/
theorem test_getb_error : after (exec (.getb .g0 8) (withG0 0x80#64 .w8 .msf)) errors = some (.indexOutOfBounds, 8#64, 0#64, 7#64) := by decide

/-- B9. -/
theorem test_setb : after (exec (.setb .g0 3 true) (withG0 0#64 .w8 .msf)) (fun s => s.groups.g0.value) = some 0x08#64 := by decide

/-- B9. -/
theorem test_setb_clears : after (exec (.setb .g0 3 false) (withG0 0x08#64 .w8 .msf)) (fun s => s.groups.g0.value) = some 0x00#64 := by decide

/-- B11. -/
theorem test_flip_to_zero : after (exec (.flip .g0 0) (withG0 0x0F#64 .w8 .msf)) (fun s => (s.groups.g0.value, s.res)) = some (0x0E#64, 0#64) := by decide

/-- B11. -/
theorem test_flip_to_one : after (exec (.flip .g0 7) (withG0 0x0E#64 .w8 .msf)) (fun s => (s.groups.g0.value, s.res)) = some (0x8E#64, 1#64) := by decide

/-- B12. -/
theorem test_getr : after (exec (.getr .g0 4 11) (withG0 0xABCD#64 .w16 .msf)) State.res = some 0xBC#64 := by decide

/-- B15. -/
theorem test_getr_whole_register : after (exec (.getr .g0 0 63) (withG0 0xFFFFFFFFFFFFFFFF#64 .w64 .msf)) State.res = some 0xFFFFFFFFFFFFFFFF#64 := by decide

/-- B17. -/
theorem test_setr_masks_arg0 : after (exec (.setr .g0 4 7) ((withG0 0xFFFF#64 .w16 .msf).setArg0 0x1F5#64)) (fun s => s.groups.g0.value) = some 0xFF5F#64 := by decide

/-- B19. -/
theorem test_setr_whole_register : after (exec (.setr .g0 0 15) ((withG0 0x1234#64 .w16 .msf).setArg0 0xFFFFFFFFFFFFFFFF#64)) (fun s => s.groups.g0.value) = some 0xFFFF#64 := by decide

/-- B21. -/
theorem test_geto_lsf : after (exec (.geto .g0 0) (withG0 0x123456#64 .w24 .lsf)) State.res = some 0x56#64 := by decide

/-- B22. -/
theorem test_geto_error : after (exec (.geto .g0 3) (withG0 0x123456#64 .w24 .msf)) errors = some (.indexOutOfBounds, 3#64, 0#64, 2#64) := by decide

/-- B23. -/
theorem test_seto_msf : after (exec (.seto .g0 0 0xAA#8) (withG0 0x123456#64 .w24 .msf)) (fun s => s.groups.g0.value) = some 0xAA3456#64 := by decide

/-- B24. -/
theorem test_seto_lsf : after (exec (.seto .g0 0 0xAA#8) (withG0 0x123456#64 .w24 .lsf)) (fun s => s.groups.g0.value) = some 0x1234AA#64 := by decide

/-- B25. -/
theorem test_msb : after (exec (.msb .g0) (withG0 0x8001#64 .w16 .msf)) State.res = some 1#64 := by decide

/-- B25. -/
theorem test_lsb : after (exec (.lsb .g0) (withG0 0x8001#64 .w16 .msf)) State.res = some 1#64 := by decide

/-- B27. -/
theorem test_mso_lsf : after (exec (.mso .g0) (withG0 0x1234#64 .w16 .lsf)) State.res = some 0x12#64 := by decide

/-- B27. -/
theorem test_lso_lsf : after (exec (.lso .g0) (withG0 0x1234#64 .w16 .lsf)) State.res = some 0x34#64 := by decide

/-- B28. -/
theorem test_tobytes_msf : after (exec (.tobytes .g0) (withG0 0x123456#64 .w24 .msf)) bytesOut = some (3#9, some 0x12#8, some 0x34#8) := by decide

/-- B29. -/
theorem test_tobytes_lsf : after (exec (.tobytes .g0) (withG0 0x123456#64 .w24 .lsf)) bytesOut = some (3#9, some 0x56#8, some 0x34#8) := by decide

/-- B30. -/
theorem test_revo : after (exec (.revo .g0) (withG0 0x123456#64 .w24 .msf)) (fun s => s.groups.g0.value) = some 0x563412#64 := by decide

/-- B32. -/
theorem test_revc : after (exec (.revc .g3 .g0) (withG0 0x0102030405060708#64 .w64 .lsf)) (fun s => s.groups.g3) = some ⟨0x0807060504030201#64, .w64, .lsf⟩ := by decide

/-- B33. -/
theorem test_twos_least : after (exec (.twos .g0 .g0) (withG0 0x80#64 .w8 .msf)) (fun s => s.groups.g0.value) = some 0x80#64 := by decide

/-- B33. -/
theorem test_twos_24 : after (exec (.twos .g1 .g0) (withG0 1#64 .w24 .msf)) (fun s => s.groups.g1.value) = some 0xFFFFFF#64 := by decide

/-- B34. -/
theorem test_shl_drops : after (exec (.shl .g0 4) (withG0 0xF00001#64 .w24 .msf)) (fun s => s.groups.g0.value) = some 0x000010#64 := by decide

/-- B36. -/
theorem test_shl_error : after (exec (.shl .g0 9) (withG0 0xFF#64 .w8 .msf)) errors = some (.countOutOfBounds, 9#64, 0#64, 8#64) := by decide

/-- B38. -/
theorem test_shr_whole_register : after (exec (.shr .g0 64) (withG0 0x8000000000000000#64 .w64 .msf)) (fun s => s.groups.g0.value) = some 0#64 := by decide

/-- B39. -/
theorem test_shr_zero : after (exec (.shr .g0 0) (withG0 0xABCD#64 .w16 .msf)) (fun s => s.groups.g0.value) = some 0xABCD#64 := by decide

/-- B40. -/
theorem test_and_keeps_width : after (exec (.and .g0 .g1) (withG01 0xF0F0#64 .w16 0x123456#64 .w24)) (fun s => s.groups.g0) = some ⟨0x3050#64, .w16, .msf⟩ := by decide

/-- B41. -/
theorem test_or_drops_high_bits : after (exec (.or .g0 .g1) (withG01 0x00FF#64 .w16 0x123456#64 .w24)) (fun s => s.groups.g0.value) = some 0x34FF#64 := by decide

/-- B43. -/
theorem test_not : after (exec (.not .g0) (withG0 0x0F#64 .w8 .msf)) (fun s => s.groups.g0.value) = some 0xF0#64 := by decide

/-- B45. -/
theorem test_inc_wraps : after (exec (.inc .g0) (withG0 0xFFFFFF#64 .w24 .msf)) (fun s => s.groups.g0.value) = some 0#64 := by decide

/-- B46. -/
theorem test_fmask_24 : after (exec (.fmask .g0) (withG0 0#64 .w24 .msf)) (fun s => s.groups.g0.value) = some 0xFFFFFF#64 := by decide

/-- B47. -/
theorem test_fmask_reset : after (exec (.fmask .g0) State.reset) (fun s => s.groups.g0.value) = some 0xFFFFFFFFFFFFFFFF#64 := by decide

/-- RD9. -/
theorem test_rdinit_negative_offset : after (exec (.rdinit .msf) ((State.reset.setArg0 0x00000000FFFFFFFF#64).setArg1 2#64)) errors = some (.invalidInitialConditions, 0xFFFFFFFFFFFFFFFF#64, 0#64, 16#64) := by decide

/-- RD12. -/
theorem test_rdinit_empty_stream : after (exec (.rdinit .msf) ((State.reset.setArg0 0x0000000800000008#64).setArg1 2#64)) (fun s => (s.code, s.rdOff, s.rdPad, s.rdTotal)) = some (.success, 8#32, 8#32, 0) := by decide

/-- RD3. -/
theorem test_read_lsf : after (exec (.read 8) (opened (withBytes [0xAB#8, 0xCD#8]) .lsf 2#32 4#32 4#32)) (fun s => (s.res, s.rdCur)) = some (0xDA#64, 8#64) := by decide

/-- RD8. -/
theorem test_read_past_end : after (exec (.read 25) (three .msf)) errors = some (.bitsCountOutOfBounds, 0#64, 25#64, 24#64) := by decide

/-- RD21. -/
theorem test_rdbytes_partial : after (exec (.rdbytes 3) (opened (withBytes [0x12#8, 0x34#8, 0x56#8]) .msf 3#32 4#32 0#32)) (fun s => (errors s, s.obuf)) = some ((.bitsCountOutOfBounds, 16#64, 8#64, 20#64), [(0, 0x23#8), (1, 0x45#8)]) := by decide

/-- RD22. -/
theorem test_rdbytes_lsf : after (exec (.rdbytes 2) (opened (withBytes [0x12#8, 0x34#8, 0x56#8]) .lsf 3#32 4#32 0#32)) (fun s => (bytesOut s, s.rdCur)) = some ((2#9, some 0x63#8, some 0x41#8), 16#64) := by decide

/-- RD15. -/
theorem test_seek_back_from_end : after (exec (.seek .fromEnd) ((three .msf).setArg0 0xFFFFFFFFFFFFFFF8#64)) State.rdCur = some 16#64 := by decide

/-- RD19. -/
theorem test_seek_error : after (exec (.seek .fromEnd) ((three .msf).setArg0 1#64)) errors = some (.invalidBitCount, 1#64, 2#64, 24#64) := by decide

/-- RD24. -/
theorem test_subrd_lsf : after (exec (.subrd 10 .lsf) ((opened (withBytes [0xAB#8, 0xCD#8]) .msf 2#32 0#32 0#32).setCursor 4#64)) (fun s => (bytesOut s, s.res, s.rdCur)) = some ((2#9, some 0xF3#8, some 0x02#8), 6#64, 14#64) := by decide

/-- RD25. -/
theorem test_subrd_msf : after (exec (.subrd 12 .msf) ((opened (withBytes [0xAB#8, 0xCD#8, 0xEF#8]) .msf 3#32 0#32 0#32).setCursor 4#64)) (fun s => (bytesOut s, s.res, s.rdCur)) = some ((2#9, some 0x0B#8, some 0xCD#8), 4#64, 16#64) := by decide

/-- CR19. -/
theorem test_c8poly : after (exec .c8poly (State.reset.setArg0 0x131#64)) State.crc8Poly = some 0x31#8 := by decide

/-- CR11. -/
theorem test_c8calc_of_no_byte_past_the_end : after (exec .c8calc ((State.reset.setArg0 0x1000#64).setArg1 0x5A#64)) State.res = some 0x5A#64 := by decide

/-- CR10. -/
theorem test_c8calc_error : after (exec .c8calc (State.reset.setArg0 0x100001000#64)) errors = some (.bufferRangeOutOfBounds, 4096#64, 1#64, 4096#64) := by decide

/-- CR14. -/
theorem test_c8upd : after (exec (.c8upd 0x31#8) State.reset) State.res = some 0x97#64 := by decide

/-- CR16. -/
theorem test_c8tbl : after (exec (.c8tbl 0x80#8) State.reset) State.res = some 0x89#64 := by decide

/-- CR21. -/
theorem test_c8tbl_polynomial_zero : after (exec (.c8tbl 0x55#8) (State.reset.setCrc8Poly 0#8)) State.res = some 0#64 := by decide

/-- CR20. -/
theorem test_c16poly : after (exec .c16poly (State.reset.setArg0 0x18005#64)) State.crc16Poly = some 0x8005#16 := by decide

/-- CR8. -/
theorem test_c16calc_second_slice : after (exec .c16calc ((digits.setArg0 0x500000004#64).setArg1 0x5349#64)) State.res = some 0x29B1#64 := by decide

/-- CR9. -/
theorem test_c16calc_error : after (exec .c16calc (State.reset.setArg0 0x200000FFF#64)) errors = some (.bufferRangeOutOfBounds, 4095#64, 2#64, 4096#64) := by decide

/-- CR15. -/
theorem test_c16upd : after (exec (.c16upd 0x32#8) (State.reset.setRes 0xC782#64)) State.res = some 0x3DBA#64 := by decide

/-- CR18. -/
theorem test_c16tbl : after (exec (.c16tbl 0x31#8) State.reset) State.res = some 0x2672#64 := by decide

/-! ### The step, the host's side and the word of the opcode table -/

/-- E13. -/
theorem test_illegal_wins : after (runCommand 0x0D080000#32 State.reset) errors = some (.illegalCommand, 0x0D080000#64, 0#64, 0#64) := by decide

/-- B47 as the next step. -/
theorem test_step_runs_the_fetched_word : after (step (State.reset.withFetchWord 32 0x28000000)) (fun s => (s.groups.g0.value, s.pending)) = some (0xFFFFFFFFFFFFFFFF#64, []) := by decide

/-- R31: bits 63:32 of a write to CMD are ignored. -/
theorem test_cmd_ignores_the_high_half : after (step { State.reset with pending := [.write 0x00000#17 8 0xFFFFFFFF28000000#64] }) (fun s => (s.groups.g0.value, s.code)) = some (0xFFFFFFFFFFFFFFFF#64, .success) := by decide

/-- R63's row of FMASK with GD = 0. -/
theorem test_table_word : decodeTableWord 32 0x28000000 = some (.fmask .g0) := by decide

/-- E12. -/
theorem test_table_word_illegal : decodeTableWord 32 0x29000000 = none := by decide

/-- P3's output. -/
theorem test_read_status : after (step { (three .msf).raise .bitsCountOutOfBounds 32 1 32 with pending := [rdStatus] }) State.outputs = some [0x104#64] := by decide

/-- RS6. -/
theorem test_read_param : after (step { State.reset with pending := [rdReg 0x00088#17] }) State.outputs = some [0x1000#64] := by decide

/-- R33: a reserved address reads 0. -/
theorem test_read_reserved : after (step { State.reset with pending := [rdReg 0x000E8#17] }) State.outputs = some [0#64] := by decide

/-- R36 at the last byte of IBUF. -/
theorem test_write_ibuf : after (step { State.reset with pending := [wrIbuf 4095 0xAB#8] }) (fun s => (s.ibuf.read 4095, s.ibuf.read 4094)) = some (some 0xAB#8, none) := by decide

/-- R37: a write beyond IBUF_BYTES has no effect. -/
theorem test_write_past_ibuf : after (step { State.reset with pending := [wrIbuf 4096 0xAB#8] }) State.ibuf = some [] := by decide

/-- R34, R146. -/
theorem test_reset_forgets : after (step { digits.setRes 5#64 with pending := [.reset] }) (fun s => (s.res, s.ibuf.read 0, s.crc16Poly)) = some (0#64, none, 0x1021#16) := by decide

/-- R138: nothing happens between commands. -/
theorem test_idle : after (step State.reset) State.pending = some [] := by decide

/-- RD28. -/
theorem test_read_after_reset : after (exec (.read 1) State.reset) errors = some (.bitsCountOutOfBounds, 0#64, 1#64, 0#64) := by
  decide

/-! ### Witnesses: a state and operands that meet the hypotheses of each statement, each clause at the edge of its range -/

/-- Three IBUF bytes, a reader over 20 bits of them with the cursor at 8, a 16-bit G0. -/
def sample : State :=
  { (opened (withBytes [0xAB#8, 0xCD#8, 0xEF#8]) .msf 3#32 4#32 0#32).setCursor 8#64 with
    groups := { g0 := ⟨0xABCD#64, .w16, .msf⟩, g1 := ⟨0x123456#64, .w24, .lsf⟩, g2 := .reset, g3 := .reset } }

/-- The same with IBUF byte 1 never written, under the treatment `fault`. -/
def sampleFault : State :=
  { sample with ibuf := [(0, 0xAB#8), (2, 0xEF#8)], params := { ibufBytes := 4096, unwritten := .fault } }

/-- A state whose next actions are given. -/
def sampleThen (acts : List HostAction) : State := { sample with pending := acts }

/-- Both states meet the invariant. -/
theorem sample_inv : sample.Inv :=
  ⟨by decide, fun r => by cases r <;> decide, by decide, by decide, by decide⟩

theorem sampleFault_inv : sampleFault.Inv :=
  ⟨by decide, fun r => by cases r <;> decide, by decide, by decide, by decide⟩

theorem witness_DecodeOfEncodeIsTheCommand :
    (Instr.extr .g3 .g2 255 255).wellFormed = true ∧ (Instr.subrd 255 .lsf).wellFormed = true := by decide

/-- B5, B24, B32, RD14, B2: the number of each is the vector's word. -/
theorem test_spelling :
    (spelling (.extr .g2 .g0 4 11)).number = 0x12040B80 ∧ (spelling (.seto .g1 0 0xAA#8)).number = 0x1900AA40 ∧
      (spelling (.revc .g3 .g2)).number = 0x200000E0 ∧ (spelling (.seek .fromEnd)).number = 0x43000002 ∧
      (spelling (.load .g1 .w8 .lsf .res)).number = 0x10000148 := by decide

theorem witness_EncodeOfDecodeIsTheWord : decode 0x12FFFFE0#32 = .command (.extr .g3 .g2 255 255) := by decide

theorem witness_OtherWordsRaiseIllegalCommand :
    ¬ IsCommandWord 0x10000005#32 ∧ ¬ IsCommandWord (BitVec.ofNat 32 (0x100000006C#64 : Word).toNat) ∧
      (sampleThen [.write 0x00000#17 8 0x100000006C#64]).pending = .write 0x00000#17 8 0x100000006C#64 :: [] := by
  unfold IsCommandWord RestrictedLegal; decide

theorem witness_StepRunsTheDecodedCommand :
    (sampleThen [.write 0x00000#17 8 0xFFFFFFFF28000000#64]).pending =
        .write 0x00000#17 8 0xFFFFFFFF28000000#64 :: [] ∧
      decode (BitVec.ofNat 32 (0xFFFFFFFF28000000#64 : Word).toNat) = .command (.fmask .g0) ∧
      decode (BitVec.ofNat 32 (0x6BFF0000 % 2 ^ 32)) = .command (.c16tbl 0xFF#8) := by decide

theorem witness_HostReadsGiveTheRegisterMap :
    (sample.params.legal ∧ (sampleThen [rdReg 0x00060#17]).pending = .read 0x00060#17 8 :: [] ∧
      (0x00060#17 : HostAddr).toNat = 0x60 ∧ (Spec.total sample % 2 ^ 64).toNat = 20) ∧
      (Reserved (0x00090#17 : HostAddr).toNat ∧ ReservedSize (0x00090#17 : HostAddr).toNat 8 ∧
        (sampleThen [.read 0x00090#17 8]).pending = .read 0x00090#17 8 :: []) ∧
      (Reserved (0x0FFFF#17 : HostAddr).toNat ∧ ReservedSize (0x0FFFF#17 : HostAddr).toNat 1 ∧
        (sampleThen [.read 0x0FFFF#17 1]).pending = .read 0x0FFFF#17 1 :: []) := by
  unfold Reserved ReservedSize; decide

theorem witness_HostReadsOfBufferBytes :
    (255 < 256 ∧ (sampleThen [rdObuf 255]).pending = .read (BitVec.ofNat 17 (0x800 + 255)) 1 :: []) ∧
      ((sampleThen [rdIbuf 65535]).pending = .read (BitVec.ofNat 17 (0x10000 + 65535)) 1 :: [] ∧
        sample.params.ibufBytes ≤ 65535) ∧
      (2 < sample.params.ibufBytes ∧ sample.Readable 2) ∧
      (1 < sampleFault.params.ibufBytes ∧ ¬ sampleFault.Readable 1) := by decide

theorem witness_HostWritesChangeOnlyTheirLocation :
    (sampleThen [wrArg0 7#64]).pending = .write 0x00010#17 8 7#64 :: [] ∧
      (sampleThen [wrArg1 7#64]).pending = .write 0x00018#17 8 7#64 :: [] ∧
      ((0x007F8#17 : HostAddr).toNat < 0x800 ∧ (0x007F8#17 : HostAddr).toNat % 8 = 0 ∧
        (0x007F8#17 : HostAddr).toNat ∉ [0x00, 0x10, 0x18] ∧
        (sampleThen [.write 0x007F8#17 8 7#64]).pending = .write 0x007F8#17 8 7#64 :: []) ∧
      (Reserved (0x0FFF8#17 : HostAddr).toNat ∧ ReservedSize (0x0FFF8#17 : HostAddr).toNat 8 ∧
        (sampleThen [.write 0x0FFF8#17 8 7#64]).pending = .write 0x0FFF8#17 8 7#64 :: []) ∧
      (Reserved (0x000BF#17 : HostAddr).toNat ∧ ReservedSize (0x000BF#17 : HostAddr).toNat 1 ∧
        (sampleThen [.write 0x000BF#17 1 7#64]).pending = .write 0x000BF#17 1 7#64 :: []) ∧
      (sampleThen [.write 0x008FF#17 1 7#64]).pending = .write (BitVec.ofNat 17 (0x800 + 255)) 1 7#64 :: [] ∧
      ((sampleThen [wrIbuf 65535 7#8]).pending = .write (BitVec.ofNat 17 (0x10000 + 65535)) 1 7#64 :: [] ∧
        sample.params.ibufBytes ≤ 65535) ∧
      (sampleThen [wrIbuf 4095 7#8]).pending = .write (BitVec.ofNat 17 (0x10000 + 4095)) 1 7#64 :: [] ∧
      4095 < sample.params.ibufBytes ∧ sample.params.ibufBytes ≤ 4096 := by
  unfold Reserved ReservedSize; decide

theorem witness_HostReadsHaveNoSideEffect :
    (sampleThen [rdRes]).pending = .read 0x00020#17 8 :: [] ∧
      ∃ t, step (sampleThen [rdRes]) = .next t := ⟨rfl, _, rfl⟩

theorem witness_UnpermittedAccessesAreRefused :
    (Touches 0xE7 1 0xC0 0xE8 ∧ ¬ (1 = 8 ∧ 0xE7 % 8 = 0)) ∧ (Touches 0x8FF 2 0x800 0x900 ∧ 2 ≠ 1) ∧
      (sampleThen [.read 0x000E7#17 1]).pending = .read 0x000E7#17 1 :: [] := by
  unfold Touches; decide

theorem witness_ResetSetsEveryRegister : (sampleThen [.reset, rdRes]).pending = .reset :: [rdRes] := by decide

theorem witness_ReaderIsEmptyAfterReset :
    (0 < 1 ∨ 64 < 0) ∧ (65 < 1 ∨ 64 < 65) ∧ (1 ≤ 1 ∧ 1 ≤ 64) ∧ (1 ≤ 64 ∧ 64 ≤ 64) ∧ 1 ≤ 255 ∧
      (let s : State := { sampleFault.platformReset with arg0 := 0x0000000100000FFF#64, ibuf := [(4095, 0x31#8)] }
       arg0High s = 1 ∧ arg0Low s + arg0High s ≤ s.params.ibufBytes ∧
         ∀ j, j < arg0High s → s.Readable (arg0Low s + j)) := by decide

theorem witness_EveryStepKeepsTheInvariant :
    (sampleThen [cmd (.rdbytes 3)]).Inv ∧ ∃ t, step (sampleThen [cmd (.rdbytes 3)]) = .next t :=
  ⟨⟨by decide, fun r => by cases r <;> decide, by decide, by decide, by decide⟩, _, rfl⟩

theorem witness_NoStepChangesTheParameters : ∃ t, step (sampleThen [.reset]) = .next t := ⟨_, rfl⟩

theorem witness_EveryCommandCompletes : sample.Inv ∧ sample.params.unwritten = .anyValue := ⟨sample_inv, rfl⟩

theorem witness_CommandsStopOnlyAtNeverWrittenBytes :
    sampleFault.Inv ∧ exec (.read 8) sampleFault = .fault (.ibufByteNeverWritten 1) := ⟨sampleFault_inv, rfl⟩

theorem witness_SuccessKeepsTheErrorReport :
    ∃ t, exec (.read 12) (sample.raise .countOutOfBounds 9 0 8) = .next t ∧ t.code = .success := ⟨_, rfl, rfl⟩

theorem witness_ErrorsChangeNothingElse :
    (∃ t, exec (.read 13) sample = .next t ∧ t.code ≠ .success) ∧
      ∃ t, exec (.rdbytes 2) sample = .next t ∧ t.code ≠ .success := ⟨⟨_, rfl, by decide⟩, _, rfl, by decide⟩

theorem witness_ErrseenIsSticky :
    (∃ t, step { sample with errSeen := true, pending := [cmd .nop] } = .next t) ∧
      (∃ t, runCommand 0x41FF0000#32 sample = .next t) := ⟨⟨_, rfl⟩, _, rfl⟩

theorem witness_EachCodeIsRaisedByItsCommands :
    after (runCommand 0x29000000#32 sample) statusCode = some 1 ∧
      after (runCommand 0x40000000#32 (sample.setArg0 0xFFFFFFFF#64)) statusCode = some 2 ∧
      after (runCommand 0x41000000#32 sample) statusCode = some 3 ∧
      after (runCommand 0x410D0000#32 sample) statusCode = some 4 ∧
      after (runCommand 0x13100000#32 sample) statusCode = some 5 ∧
      after (runCommand 0x160B0400#32 sample) statusCode = some 6 ∧
      after (runCommand 0x22110000#32 sample) statusCode = some 7 ∧
      after (runCommand 0x61000000#32 (sample.setArg0 0x100001000#64)) statusCode = some 8 := by decide

theorem witness_StateIsWrittenOnlyByItsCommands :
    after (exec (.read 8) sample) (fun t => decide (t.rdCur ≠ sample.rdCur ∧ t.res ≠ sample.res)) = some true ∧
      after (exec (.flip .g3 63) sample) (fun t => decide (t.group .g3 ≠ sample.group .g3)) = some true ∧
      after (exec (.revc .g2 .g1) sample) (fun t => decide
        ((t.group .g2).wcode ≠ (sample.group .g2).wcode ∧ (t.group .g2).endian ≠ (sample.group .g2).endian)) = some true ∧
      after (exec (.tobytes .g1) sample) (fun t => decide (t.olen ≠ sample.olen ∧ t.obuf ≠ sample.obuf)) = some true ∧
      after (exec (.rdinit .lsf) sample) (fun t => decide (t.rdEnd ≠ sample.rdEnd)) = some true := by decide

theorem witness_ReadingANeverWrittenByteFaults :
    sampleFault.Inv ∧ sampleFault.params.unwritten = .fault ∧
      ((cur sampleFault : Int) + 12 ≤ Spec.total sampleFault ∧ ¬ BitsReadable sampleFault (nextBit sampleFault) 12) ∧
      ¬ BitsReadable sampleFault (nextBit sampleFault)
        (8 * min 1 ((Spec.total sampleFault - cur sampleFault) / 8).toNat) ∧
      (let s := sampleFault.setArg0 0x0000000300000000#64
       arg0Low s + arg0High s ≤ s.params.ibufBytes ∧ ¬ (∀ j, j < arg0High s → s.Readable (arg0Low s + j))) := by
  refine ⟨sampleFault_inv, rfl, ⟨by decide, ?_⟩, ?_, by decide, by decide⟩ <;> unfold BitsReadable <;> decide

theorem witness_words_of_NopOnlyClearsTheCode_LoadMasksTheSource_SetbWritesTheBit :
    (wordOpc 0x00000001#32 = 0x00 ∧ 0x00000001#32 ≠ 0x00000000#32) ∧
      (wordOpc 0x10000005#32 = 0x10 ∧ 4 < wordF 0x10000005#32 % 2 ^ 3) ∧
      (wordOpc 0x10000200#32 = 0x10 ∧ 1 < wordB 0x10000200#32) ∧
      (wordOpc 0x14000200#32 = 0x14 ∧ 1 < wordB 0x14000200#32) := by decide

theorem witness_words_of_RdinitConfiguresTheReader_SeekMovesTheCursor_SubrdMaterialisesTheBits :
    (wordOpc 0x40000001#32 = 0x40 ∧ wordF 0x40000001#32 % 2 ^ 3 ≠ 0) ∧
      (wordOpc 0x43000003#32 = 0x43 ∧ 2 < wordF 0x43000003#32) ∧
      (wordOpc 0x440A000F#32 = 0x44 ∧ wordF 0x440A000F#32 % 2 ^ 3 ≠ 0) := by decide

theorem witness_ranges_of_ExtrExtractsTheRange_GetrReadsTheRange_SetrWritesTheRange :
    (0 ≤ 15 ∧ 15 < width sample .g0) ∧ (15 ≤ 15 ∧ 15 < width sample .g0) ∧ ¬ (0 ≤ 16 ∧ 16 < width sample .g0) ∧
      ¬ (11 ≤ 10 ∧ 10 < width sample .g0) := by decide

theorem witness_indexes_of_GetbReadsTheBit_SetbWritesTheBit_FlipTogglesTheBit :
    15 < width sample .g0 ∧ width sample .g0 ≤ 16 := by decide

theorem witness_octets_of_GetoReadsTheOctet_SetoWritesTheOctet :
    1 < octets sample .g0 ∧ octets sample .g0 ≤ 2 := by decide

theorem witness_counts_of_ShlAndShrShiftWithinTheWidth : 16 ≤ width sample .g0 ∧ width sample .g0 < 17 := by decide

theorem witness_fits_of_MsoAndLsoReadTheEndOctets_RevoAndRevcReverseTheOctets_TwosNegatesWithinTheWidth_NotIncAndFmask :
    Fits sample .g0 ∧ Fits sample .g1 ∧ Fits (withG0 0xFFFFFFFFFFFFFFFF#64 .w64 .lsf) .g0 := by
  unfold Fits; decide

theorem witness_RdinitConfiguresTheReader :
    sext32 (arg0Low (State.reset.setArg0 0x00000000FFFFFFFF#64)) < 0 ∧
      sext32 (arg0High (State.reset.setArg0 0xFFFFFFFD00000000#64)) < 0 ∧
      (State.reset.setArg1 4097#64).params.ibufBytes < arg1Low (State.reset.setArg1 4097#64) ∧
      (let s := (State.reset.setArg0 0x0000000800000009#64).setArg1 2#64
       (8 * arg1Low s : Int) < sext32 (arg0Low s) + sext32 (arg0High s)) ∧
      (let s := (State.reset.setArg0 0x0000000800000008#64).setArg1 2#64
       ¬ (sext32 (arg0Low s) < 0 ∨ sext32 (arg0High s) < 0 ∨ s.params.ibufBytes < arg1Low s ∨
          (8 * arg1Low s : Int) < sext32 (arg0Low s) + sext32 (arg0High s))) := by decide

theorem witness_counts_of_ReadReturnsTheStreamBits_SubrdMaterialisesTheBits :
    (0 < 1 ∨ 64 < 0) ∧ (65 < 1 ∨ 64 < 65) ∧ Spec.total sample < (cur sample : Int) + 13 ∧
      ((cur sample : Int) + 12 ≤ Spec.total sample ∧ BitsReadable sample (nextBit sample) 12) := by
  refine ⟨by decide, by decide, by decide, by decide, ?_⟩
  unfold BitsReadable; decide

theorem witness_RdbytesReadsTheBytes :
    BitsReadable sample (nextBit sample) (8 * min 255 ((Spec.total sample - cur sample) / 8).toNat) := by
  unfold BitsReadable; decide

theorem witness_SeekMovesTheCursor :
    ((cur sample : Int) + sext64 (0xFFFFFFFFFFFFFFF7#64 : Word).toNat < 0) ∧
      Spec.total sample < (cur sample : Int) + sext64 (13#64 : Word).toNat ∧
      ¬ ((cur sample : Int) + sext64 (12#64 : Word).toNat < 0 ∨
        Spec.total sample < (cur sample : Int) + sext64 (12#64 : Word).toNat) := by decide

theorem witness_CalcCommandsFoldTheSlice :
    (let s := State.reset.setArg0 0x0000000200000FFF#64
     s.params.ibufBytes < arg0Low s + arg0High s) ∧
      (let s := State.reset.setArg0 0x0000000100000FFF#64
       arg0Low s + arg0High s ≤ s.params.ibufBytes ∧ ∀ j, j < arg0High s → s.Readable (arg0Low s + j)) := by decide

theorem witness_SetrThenGetrReturnsTheValue :
    Fits sample .g0 ∧ 4 ≤ 15 ∧ 15 < width sample .g0 ∧ (sample.setArg0 0xFFF#64).arg0.toNat < 2 ^ (15 - 4 + 1) ∧
      ∃ t, exec (.setr .g0 4 15) (sample.setArg0 0xFFF#64) = .next t :=
  ⟨by unfold Fits; decide, by decide, by decide, by decide, _, rfl⟩

theorem witness_TwosAndRevoAreInvolutions : Fits sample .g1 := by unfold Fits; decide

/-- After the host's copy of the two bytes of TOBYTES G0, with a reader over them. -/
theorem witness_TobytesThenReadReturnsTheValue :
    Fits sample .g0 ∧ ∃ t, exec (.tobytes .g0) sample = .next t ∧
      (let u := opened { t with ibuf := [(0, 0xAB#8), (1, 0xCD#8)] } .msf 2#32 0#32 0#32
       (∀ j, j < octets sample .g0 → u.ibuf.read j = t.obuf.read j) ∧ octets sample .g0 ≤ u.params.ibufBytes ∧
        u.rdLen.toNat = octets sample .g0 ∧ u.rdOff = 0#32 ∧ u.rdPad = 0#32 ∧ u.rdCur = 0#64 ∧
        u.rdEnd = (sample.group .g0).endian) :=
  ⟨by unfold Fits; decide, _, rfl, by decide⟩

/-- P5: SUBRD 10, lsf of 0x2F3 and the reader over its two bytes with offset 6. -/
theorem witness_SubrdThenReadReproducesTheBits :
    let s := (opened (withBytes [0xAB#8, 0xCD#8]) .msf 2#32 0#32 0#32).setCursor 4#64
    (cur s : Int) + 10 ≤ Spec.total s ∧ BitsReadable s (nextBit s) 10 ∧
      ∃ t, exec (.subrd 10 .lsf) s = .next t ∧
        (let u := opened { t with ibuf := [(0, 0xF3#8), (1, 0x02#8)] } .lsf 2#32 6#32 0#32
         (∀ j, j < (10 + 7) / 8 → u.ibuf.read j = t.obuf.read j) ∧ (10 + 7) / 8 ≤ u.params.ibufBytes ∧
          u.rdLen.toNat = (10 + 7) / 8 ∧ u.rdOff.toNat = t.res.toNat % 2 ^ 32 ∧
          u.rdPad.toNat = t.res.toNat / 2 ^ 32 ∧ u.rdCur = 0#64 ∧ u.rdEnd = .lsf) :=
  ⟨by decide, by unfold BitsReadable; decide, _, rfl, by decide⟩

/-- P2: four bytes, then five. -/
theorem witness_CalcChainsOverConsecutiveSlices :
    let s := (digits.setArg0 0x0000000400000000#64).setArg1 0xFFFF#64
    arg0High s = 4 ∧ arg0Low s + 4 + 5 ≤ s.params.ibufBytes ∧ (∀ j, j < 4 + 5 → s.Readable (arg0Low s + j)) ∧
      (∃ t, exec .c16calc s = .next t ∧ t.res = 0x5349#64) ∧ arg0Low s + 4 < 2 ^ 32 ∧ 4 + 5 < 2 ^ 32 :=
  ⟨by decide, by decide, by decide, ⟨_, rfl, by decide⟩, by decide, by decide⟩

end Sys2Proof.Tests
end

/-! The state and the host's side (10_state.md). `Writes` lists, one state operation to a constructor, the writes each command
may make and the bounds it keeps; `exec_writesIn` says once, for every command, that it makes no other. The invariant and the
frame of the commands follow by induction on the writes, and `step_keeps` carries a property of states through a step. Then: what
a host read of a register slot gives, and what a host write stores. -/

namespace Sys2Proof.Machine

open Sys2Proof.Spec

/-! ### The writes of a command -/

/-- The commands that move RD_CUR by themselves (10_state.md R21); RDINIT sets it with the whole configuration. -/
def MovesCursor (i : Instr) : Prop :=
  (∃ n, i = .read n) ∨ (∃ n, i = .rdbytes n) ∨ (∃ o, i = .seek o) ∨ ∃ n e, i = .subrd n e

/-- The commands that produce bytes in OBUF (20_memory.md R35, R39). -/
def ProducesBytes (i : Instr) : Prop := (∃ g, i = .tobytes g) ∨ (∃ n, i = .rdbytes n) ∨ ∃ n e, i = .subrd n e

/-- The states that the command i can reach from s by writes of its own. A constructor is one state operation; its premises say
which commands make the write and which bound the value written keeps. -/
inductive Writes (i : Instr) (s : State) : State → Prop
  | nothing : Writes i s s
  | setRes {u : State} (v : Word) : ReturnsScalar i → Writes i s u → Writes i s (u.setRes v)
  | setGroup {u : State} (r : GroupReg) (x : Group) : destination i = some r → WritesWidthAndTag i →
      (s.GroupInv → x.fits) → Writes i s u → Writes i s (u.setGroup r x)
  | setGroupValue {u : State} (r : GroupReg) (v : Word) : destination i = some r →
      (s.GroupInv → Group.fits { u.group r with value := v }) → Writes i s u → Writes i s (u.setGroupValue r v)
  | setReader {u : State} (len off pad : BitVec 32) (e : Endian) : i = .rdinit e →
      off.toNat + pad.toNat ≤ 8 * len.toNat → len.toNat ≤ u.params.ibufBytes → Writes i s u →
      Writes i s (u.setReader len off pad e)
  | setCursor {u : State} (v : Word) : MovesCursor i → (v.toNat : Int) ≤ u.rdTotal → Writes i s u →
      Writes i s (u.setCursor v)
  | setCrc8Poly {u : State} (p : BitVec 8) : i = .c8poly → Writes i s u → Writes i s (u.setCrc8Poly p)
  | setCrc16Poly {u : State} (p : BitVec 16) : i = .c16poly → Writes i s u → Writes i s (u.setCrc16Poly p)
  | obufWrite {u : State} (a : Nat) (b : Byte) : ProducesBytes i → (i.wellFormed = true → a < Config.obufBytes) →
      Writes i s u → Writes i s (u.obufWrite a b)
  | setOlen {u : State} (n : Nat) : ProducesBytes i → (i.wellFormed = true → n ≤ Config.obufBytes) → Writes i s u →
      Writes i s (u.setOlen n)
  | succeed {u : State} : Writes i s u → Writes i s u.succeed
  | raise {u : State} (name : Code) (a b c : Int) : Writes i s u → Writes i s (u.raise name a b c)

/-- An outcome whose next state, if it is one, the command reaches by writes of its own. -/
def WritesIn (i : Instr) (s : State) (o : Host.Outcome State Fault Refusal) : Prop := ∀ t, o = .next t → Writes i s t

theorem Writes.next {i : Instr} {s u : State} (h : Writes i s u) : WritesIn i s (.next u) := by
  rintro t ⟨⟩; exact h

theorem WritesIn.fault {i : Instr} {s : State} {f : Fault} : WritesIn i s (.fault f) := by rintro t ⟨⟩

/-- A command that checks its operands first: it goes on, or it reports an error on the state before it. -/
theorem WritesIn.ite {i : Instr} {s : State} {p : Prop} [Decidable p] {x y : Host.Outcome State Fault Refusal}
    (hx : p → WritesIn i s x) (hy : ¬ p → WritesIn i s y) : WritesIn i s (if p then x else y) := by
  split
  · exact hx ‹p›
  · exact hy ‹¬ p›

/-- An error report on the state before the command. -/
theorem WritesIn.raise {i : Instr} {s : State} {name : Code} {a b c : Int} :
    WritesIn i s (.next (s.raise name a b c)) :=
  (Writes.nothing.raise name a b c).next

/-- RES is written and the command succeeds. -/
theorem WritesIn.res {i : Instr} {s : State} {v : Word} (h : ReturnsScalar i) :
    WritesIn i s (.next (s.setRes v).succeed) :=
  (Writes.nothing.setRes v h).succeed.next

/-- A group register is written, width and tag too, and the command succeeds. -/
theorem WritesIn.group {i : Instr} {s : State} {r : GroupReg} {x : Group} (hd : destination i = some r)
    (hw : WritesWidthAndTag i) (hx : s.GroupInv → x.fits) : WritesIn i s (.next (s.setGroup r x).succeed) :=
  (Writes.nothing.setGroup r x hd hw hx).succeed.next

/-- A group register's value is written and the command succeeds. -/
theorem WritesIn.groupValue {i : Instr} {s : State} {r : GroupReg} {v : Word} (hd : destination i = some r)
    (hx : s.GroupInv → Group.fits { s.group r with value := v }) :
    WritesIn i s (.next (s.setGroupValue r v).succeed) :=
  (Writes.nothing.setGroupValue r v hd hx).succeed.next

/-! ### The commands whose writes need an argument -/

@[simp] theorem Group.octetList_length (g : Group) : g.octetList.length = g.octets := by simp [Group.octetList]

@[simp] theorem numberBytes_length (m : Nat) (e : Endian) (x : Nat) : (numberBytes m e x).length = m := by
  simp [numberBytes]

theorem Writes.obufWriteFrom {i : Instr} {s u : State} (hi : ProducesBytes i) (bs : List Byte) (a : Nat)
    (hlen : a + bs.length ≤ Config.obufBytes) (h : Writes i s u) : Writes i s (u.obufWriteFrom a bs) := by
  induction bs generalizing u a with
  | nil => exact h
  | cons b bs ih =>
    rw [List.length_cons] at hlen
    exact ih (a + 1) (by omega) (h.obufWrite a b hi fun _ => by omega)

theorem Writes.putBytes {i : Instr} {s u : State} (hi : ProducesBytes i) (bs : List Byte)
    (hlen : bs.length ≤ Config.obufBytes) (h : Writes i s u) : Writes i s (u.putBytes bs) :=
  (h.obufWriteFrom hi bs 0 (by omega)).setOlen _ hi fun _ => hlen

/-- An advance that stays inside the stream. -/
theorem Writes.advance {i : Instr} {s u : State} (n : Nat) (hi : MovesCursor i)
    (hn : (u.rdCur.toNat : Int) + n ≤ u.rdTotal) (h : Writes i s u) : Writes i s (u.advance n) := by
  have hT := u.rdTotal_lt
  refine h.setCursor _ hi ?_
  rw [BitVec.toNat_add, BitVec.toNat_ofNat, Nat.add_mod_mod, Nat.mod_eq_of_lt (by omega)]
  exact_mod_cast hn

/-- READ and SUBRD's check reports on the state before the command. -/
theorem writes_of_bitCountError {i : Instr} {s t : State} {n : Nat} (h : s.bitCountError n = some t) : Writes i s t := by
  rcases s.bitCountError_cases n with ⟨_, hb⟩ | ⟨_, _, _, hb⟩ | ⟨_, _, _, hb⟩ <;> rw [hb] at h <;> cases h
  · exact Writes.nothing.raise _ _ _ _
  · exact Writes.nothing.raise _ _ _ _

/-- A count that passes the check leaves the cursor inside the stream, and its octets are few. -/
theorem bounds_of_bitCountError {s : State} {n : Nat} (h : s.bitCountError n = none) :
    (s.rdCur.toNat : Int) + n ≤ s.rdTotal ∧ octetsFor n ≤ Config.obufBytes := by
  rcases s.bitCountError_cases n with ⟨_, hb⟩ | ⟨_, _, _, hb⟩ | ⟨_, hn, hle, _⟩
  · rw [hb] at h; cases h
  · rw [hb] at h; cases h
  · exact ⟨hle, by unfold octetsFor Config.obufBytes; omega⟩

theorem writesIn_read (n : Nat) (s : State) : WritesIn (.read n) s (execRead n s) := by
  rcases execRead_cases n s with ⟨t, ht, hx⟩ | ⟨hok, ⟨f, _, hx⟩ | ⟨x, _, hx⟩⟩ <;> rw [hx]
  · exact (writes_of_bitCountError ht).next
  · exact .fault
  · have hres : Writes (.read n) s (s.setRes (BitVec.ofNat 64 x)) := .setRes _ trivial .nothing
    refine (hres.advance n (.inl ⟨n, rfl⟩) ?_).succeed.next
    exact (bounds_of_bitCountError hok).1

theorem writesIn_subrd (n : Nat) (e : Endian) (s : State) : WritesIn (.subrd n e) s (execSubrd n e s) := by
  rcases execSubrd_cases n e s with ⟨t, ht, hx⟩ | ⟨hok, ⟨f, _, hx⟩ | ⟨x, _, hx⟩⟩ <;> rw [hx]
  · exact (writes_of_bitCountError ht).next
  · exact .fault
  · obtain ⟨hcur, hoct⟩ := bounds_of_bitCountError hok
    have hbytes : Writes (.subrd n e) s (s.putBytes (numberBytes (octetsFor n) e x)) :=
      Writes.nothing.putBytes (.inr (.inr ⟨n, e, rfl⟩)) _ (by simpa using hoct)
    refine ((Writes.setRes (i := .subrd n e) _ trivial hbytes).advance n (.inr (.inr (.inr ⟨n, e, rfl⟩))) ?_).succeed.next
    rw [State.putBytes_eq]
    exact hcur

/-- RDBYTES' loop, from a state the command reached with k of its bytes read. -/
theorem writesIn_rdbytesLoop (size : Nat) (s : State) (left : Nat) : ∀ (u : State) (k : Nat), k + left ≤ size →
    Writes (.rdbytes size) s u → WritesIn (.rdbytes size) s (rdbytesLoop u k left) := by
  have hi : ProducesBytes (.rdbytes size) := .inr (.inl ⟨size, rfl⟩)
  have hsize : Instr.wellFormed (.rdbytes size) = true → size < Config.obufBytes := of_decide_eq_true
  induction left with
  | zero =>
    intro u k hk hu
    exact (hu.setOlen k hi fun hwf => by have := hsize hwf; omega).succeed.next
  | succ left ih =>
    intro u k hk hu
    rw [rdbytesLoop]
    refine .ite (fun _ => ?_) fun hle => ?_
    · exact ((hu.setOlen k hi fun hwf => by have := hsize hwf; omega).raise _ _ _ _).next
    · cases u.streamBits 8 with
      | error f => exact .fault
      | ok b =>
        refine ih _ (k + 1) (by omega) ((hu.obufWrite k _ hi fun hwf => by have := hsize hwf; omega).advance 8
          (.inr (.inl ⟨size, rfl⟩)) ?_)
        exact not_lt.mp hle

theorem writesIn_crcCalc {w : Nat} {i : Instr} (s : State) (stepper : BitVec w → Byte → BitVec w) (init : BitVec w)
    (hi : ReturnsScalar i) : WritesIn i s (s.crcCalc stepper init) := by
  rcases s.crcCalc_cases stepper init with ⟨_, hx⟩ | ⟨_, ⟨f, _, _, _, hx⟩ | ⟨r, _, hx⟩⟩ <;> rw [hx]
  · exact .raise
  · exact .fault
  · exact .res hi

/-- RDINIT's check in naturals: neither operand is negative, and they lie inside the buffer. -/
theorem writesIn_rdinit (e : Endian) (s : State) : WritesIn (.rdinit e) s (execRdinit e s) := by
  refine .ite (fun _ => .raise) fun hok => ?_
  simp only [not_or, not_lt, BitVec.toInt_eq_toNat_cond] at hok
  have hoff := s.arg0Low.isLt
  have hpad := s.arg0High.isLt
  exact (Writes.nothing.setReader _ _ _ e rfl (by split at hok <;> split at hok <;> omega) hok.2.2.1).succeed.next

theorem writesIn_seek (o : SeekOrigin) (s : State) : WritesIn (.seek o) s (execSeek o s) := by
  refine .ite (fun _ => .raise) fun hok => ?_
  have hT := s.rdTotal_lt
  refine (Writes.nothing.setCursor _ (.inr (.inr (.inl ⟨o, rfl⟩))) ?_).succeed.next
  rw [BitVec.toNat_ofInt]
  omega

theorem writesIn_flip (gd : GroupReg) (index : Nat) (s : State) :
    WritesIn (.flip gd index) s (execFlip gd index s) :=
  .ite (fun hlt => (Writes.setRes (i := .flip gd index) _ trivial (.setGroupValue gd _ rfl (fun hg => Group.fits_flip _ _ hlt (hg gd))
    .nothing)).succeed.next) fun _ => .raise

/-- What a command can do: whatever it ends with, it made only writes of its own. -/
theorem exec_writesIn (s : State) : ∀ i, WritesIn i s (exec i s)
  | .nop => Writes.nothing.succeed.next
  | .load _ w e _ => .group rfl trivial fun _ => Group.fits_and_mask w e _
  | .copy _ gs => .group rfl trivial fun hg => hg gs
  | .extr _ _ _ _ => .ite (fun hl => .group rfl trivial fun _ => Group.fits_getRange _ _ _ hl) fun _ => .raise
  | .getb _ _ => .ite (fun _ => .res trivial) fun _ => .raise
  | .setb _ _ _ => .ite (fun hl => .groupValue rfl fun _ => Group.fits_setBit _ _ _ hl) fun _ => .raise
  | .flip gd index => writesIn_flip gd index s
  | .getr _ _ _ => .ite (fun _ => .res trivial) fun _ => .raise
  | .setr _ _ _ => .ite (fun hl => .groupValue rfl fun _ => Group.fits_setRange _ _ _ _ hl) fun _ => .raise
  | .geto _ _ => .ite (fun _ => .res trivial) fun _ => .raise
  | .seto _ _ _ => .ite (fun _ => .groupValue rfl fun _ => Group.fits_withOctet _ _ _) fun _ => .raise
  | .msb _ => .res trivial
  | .lsb _ => .res trivial
  | .mso _ => .res trivial
  | .lso _ => .res trivial
  | .tobytes gs => (Writes.nothing.putBytes (.inl ⟨gs, rfl⟩) _ (by
      rw [Group.octetList_length]; exact (widthOctets_le _).trans (by decide))).succeed.next
  | .revo gd => .groupValue rfl fun hg => Group.fits_reversed _ (hg gd)
  | .revc _ gs => .group rfl trivial fun hg => Group.fits_reversed _ (hg gs)
  | .twos _ _ => .group rfl trivial fun _ => Group.fits_and_mask _ _ _
  | .shl _ _ => .ite (fun _ => .groupValue rfl fun _ => Group.fits_and_mask _ _ _) fun _ => .raise
  | .shr gd _ => .ite (fun _ => .groupValue rfl fun hg => Group.fits_shiftRight _ _ (hg gd)) fun _ => .raise
  | .and _ _ => .groupValue rfl fun _ => Group.fits_and_mask _ _ _
  | .or _ _ => .groupValue rfl fun _ => Group.fits_and_mask _ _ _
  | .not _ => .groupValue rfl fun _ => Group.fits_complement _ _ _
  | .inc _ => .groupValue rfl fun _ => Group.fits_and_mask _ _ _
  | .fmask _ => .groupValue rfl fun _ => Group.fits_mask _ _
  | .rdinit e => writesIn_rdinit e s
  | .read n => writesIn_read n s
  | .rdbytes size => writesIn_rdbytesLoop size s size s 0 (by omega) .nothing
  | .seek o => writesIn_seek o s
  | .subrd n e => writesIn_subrd n e s
  | .c8poly => (Writes.nothing.setCrc8Poly _ rfl).succeed.next
  | .c8calc => writesIn_crcCalc s _ _ trivial
  | .c8upd _ => .res trivial
  | .c8tbl _ => .res trivial
  | .c16poly => (Writes.nothing.setCrc16Poly _ rfl).succeed.next
  | .c16calc => writesIn_crcCalc s _ _ trivial
  | .c16upd _ => .res trivial
  | .c16tbl _ => .res trivial

/-! ### The invariant under the operations on the state -/

theorem State.Inv.setGroup {s : State} (h : s.Inv) {r : GroupReg} {x : Group} (hx : x.fits) : (s.setGroup r x).Inv :=
  { h with groups := s.groupInv_set r x h.groups hx }

theorem State.Inv.setReader {s : State} (h : s.Inv) {len off pad : BitVec 32} (e : Endian)
    (hsum : off.toNat + pad.toNat ≤ 8 * len.toNat) (hlen : len.toNat ≤ s.params.ibufBytes) :
    (s.setReader len off pad e).Inv := by
  refine { h with reader := ⟨hsum, hlen, ?_⟩ }
  show ((0#64).toNat : Int) ≤ 8 * (len.toNat : Int) - off.toNat - pad.toNat
  rw [BitVec.toNat_zero]
  omega

theorem State.Inv.setCursor {s : State} (h : s.Inv) {v : Word} (hv : (v.toNat : Int) ≤ s.rdTotal) :
    (s.setCursor v).Inv := by
  obtain ⟨hsum, hlen, _⟩ := h.reader
  exact { h with reader := ⟨hsum, hlen, hv⟩ }

theorem State.Inv.obufWrite {s : State} (h : s.Inv) {a : Nat} (b : Byte) (ha : a < Config.obufBytes) :
    (s.obufWrite a b).Inv := by
  obtain ⟨hiwf, hibelow, howf, hobelow⟩ := h.buffers
  exact { h with buffers := ⟨hiwf, hibelow, Memory.wf_write _ a b howf, Memory.below_write _ _ a b ha hobelow⟩ }

theorem State.Inv.ibufWrite {s : State} (h : s.Inv) (a : Nat) (b : Byte) : (s.ibufWrite a b).Inv := by
  obtain ⟨hiwf, hibelow, howf, hobelow⟩ := h.buffers
  unfold State.ibufWrite
  split
  · exact { h with buffers := ⟨Memory.wf_write _ a b hiwf, Memory.below_write _ _ a b ‹_› hibelow, howf, hobelow⟩ }
  · exact h

theorem State.Inv.setOlen {s : State} (h : s.Inv) {n : Nat} (hn : n ≤ Config.obufBytes) : (s.setOlen n).Inv := by
  refine { h with olen := ?_ }
  show (BitVec.ofNat 9 n).toNat ≤ 256
  rw [BitVec.toNat_ofNat]
  exact (Nat.mod_le _ _).trans hn

theorem State.Inv.hostStore {s : State} (h : s.Inv) (d : Word) : ∀ tg, (s.hostStore d tg).Inv
  | .ibuf a => h.ibufWrite a _
  | .register r => by cases r <;> exact { h with }
  | .obuf _ => h
  | .reserved => h

theorem State.reset_inv : State.reset.Inv :=
  ⟨by decide, fun r => by cases r <;> decide, by decide, by decide, by decide⟩

/-- A reset meets the invariant under every legal IBUF_BYTES: nothing of R34 depends on it. -/
theorem State.platformReset_inv {s : State} (h : s.params.legal) : s.platformReset.Inv := by
  obtain ⟨hsum, _, hcur⟩ := State.reset_inv.reader
  exact ⟨h, State.reset_inv.groups, ⟨hsum, Nat.zero_le _, hcur⟩, ⟨rfl, rfl, rfl, rfl⟩, State.reset_inv.olen⟩

/-! ### The invariant under commands and steps -/

/-- The writes of a well-formed command keep the invariant. -/
theorem Writes.keeps_inv {i : Instr} {s t : State} (hwf : i.wellFormed = true) (hs : s.Inv) (h : Writes i s t) :
    t.Inv := by
  induction h with
  | nothing => exact hs
  | setGroup r x _ _ hx _ ih => exact ih.setGroup (hx hs.groups)
  | setGroupValue r v _ hx _ ih => exact ih.setGroup (hx hs.groups)
  | setReader len off pad e _ hsum hlen _ ih => exact ih.setReader e hsum hlen
  | setCursor v _ hv _ ih => exact ih.setCursor hv
  | obufWrite a b _ ha _ ih => exact ih.obufWrite b (ha hwf)
  | setOlen n _ hn _ ih => exact ih.setOlen (hn hwf)
  | setRes _ _ _ ih | setCrc8Poly _ _ _ ih | setCrc16Poly _ _ _ ih | succeed _ ih | raise _ _ _ _ _ ih =>
    exact { ih with }

/-- A property of states that commands, host stores, host reads and resets keep, and that does not depend on the pending
actions, is kept by every step. -/
theorem step_keeps {P : State → Prop} (hpending : ∀ s rest, P s → P { s with pending := rest })
    (hexec : ∀ s t i, i.wellFormed = true → P s → exec i s = .next t → P t)
    (hillegal : ∀ s a b c, P s → P (s.raise .illegalCommand a b c))
    (hstore : ∀ s d tg, P s → P (s.hostStore d tg)) (hread : ∀ s v, P s → P (s.pushOutput v))
    (hreset : ∀ s, P s → P s.platformReset) {s t : State} (hs : P s) (h : step s = .next t) : P t := by
  obtain ⟨_, rfl⟩ | ⟨act, rest, _, hact⟩ := step_cases s t h
  · exact hs
  have hs' := hpending s rest hs
  obtain ⟨w, hrun⟩ | ⟨d, tg, rfl⟩ | ⟨v, rfl⟩ | ⟨_, rfl⟩ := perform_cases act _ t hact
  · obtain ⟨i, hi, hex⟩ | ⟨_, _, rfl⟩ := runCommand_cases w _ t hrun
    · exact hexec _ t i (wellFormed_of_decode w i hi) hs' hex
    · exact hillegal _ _ _ _ hs'
  · exact hstore _ d tg hs'
  · exact hread _ v hs'
  · exact hreset _ hs'

/-! ### The frame of a command -/

/-- What a command may change, register by register: the parts of the statement of O24 under names. -/
structure Frame (i : Instr) (s t : State) : Prop where
  arg0 : t.arg0 = s.arg0
  arg1 : t.arg1 = s.arg1
  ibuf : t.ibuf = s.ibuf
  res : t.res ≠ s.res → ReturnsScalar i
  group : ∀ r, t.group r ≠ s.group r → destination i = some r
  widthAndTag : ∀ r, (t.group r).wcode ≠ (s.group r).wcode ∨ (t.group r).endian ≠ (s.group r).endian →
    WritesWidthAndTag i
  reader : (∀ e, i ≠ .rdinit e) → t.rdLen = s.rdLen ∧ t.rdOff = s.rdOff ∧ t.rdPad = s.rdPad ∧ t.rdEnd = s.rdEnd
  cursor : t.rdCur ≠ s.rdCur → (∃ e, i = .rdinit e) ∨ MovesCursor i
  crc8Poly : i ≠ .c8poly → t.crc8Poly = s.crc8Poly
  crc16Poly : i ≠ .c16poly → t.crc16Poly = s.crc16Poly
  output : t.olen ≠ s.olen ∨ t.obuf ≠ s.obuf → ProducesBytes i
  pending : t.pending = s.pending
  outputs : t.outputs = s.outputs
  params : t.params = s.params
  draws : t.draws = s.draws

theorem Frame.refl (i : Instr) (s : State) : Frame i s s := by
  constructor <;> simp

/-- Writing a group keeps the other groups. -/
theorem Frame.group_setGroup {i : Instr} {s u : State} (h : Frame i s u) {r : GroupReg} (x : Group)
    (hd : destination i = some r) (q : GroupReg) (hq : (u.setGroup r x).group q ≠ s.group q) :
    destination i = some q := by
  rw [State.group_setGroup] at hq
  split at hq
  case isTrue heq => rw [heq]; exact hd
  case isFalse => exact h.group q hq

/-- Writing a group's value keeps every width and tag. -/
theorem Frame.widthAndTag_setGroupValue {i : Instr} {s u : State} (h : Frame i s u) (r : GroupReg) (v : Word)
    (q : GroupReg) (hq : ((u.setGroupValue r v).group q).wcode ≠ (s.group q).wcode ∨
      ((u.setGroupValue r v).group q).endian ≠ (s.group q).endian) : WritesWidthAndTag i := by
  rw [State.setGroupValue, State.group_setGroup] at hq
  refine h.widthAndTag q ?_
  split at hq
  case isTrue heq => rw [heq] at hq ⊢; exact hq
  case isFalse => exact hq

/-- The writes of a command stay inside its frame: each operation adds what its premise allows. -/
theorem Writes.frame {i : Instr} {s t : State} (h : Writes i s t) : Frame i s t := by
  induction h with
  | nothing => exact .refl i s
  | setRes v hi _ ih => exact { ih with res := fun _ => hi }
  | setGroup r x hd hw _ _ ih => exact { ih with group := ih.group_setGroup x hd, widthAndTag := fun _ _ => hw }
  | setGroupValue r v hd _ _ ih =>
    exact { ih with group := ih.group_setGroup _ hd, widthAndTag := ih.widthAndTag_setGroupValue r v }
  | setReader len off pad e hi _ _ _ ih =>
    exact { ih with reader := fun hne => absurd hi (hne e), cursor := fun _ => .inl ⟨e, hi⟩ }
  | setCursor v hi _ _ ih => exact { ih with cursor := fun _ => .inr hi }
  | setCrc8Poly p hi _ ih => exact { ih with crc8Poly := fun hne => absurd hi hne }
  | setCrc16Poly p hi _ ih => exact { ih with crc16Poly := fun hne => absurd hi hne }
  | obufWrite a b hi _ _ ih => exact { ih with output := fun _ => hi }
  | setOlen n hi _ _ ih => exact { ih with output := fun _ => hi }
  | succeed _ ih => exact { ih with }
  | raise _ _ _ _ _ ih => exact { ih with }

theorem exec_frame {i : Instr} {s t : State} (h : exec i s = .next t) : Frame i s t := (exec_writesIn s i t h).frame

theorem State.hostStore_params (s : State) (d : Word) (tg : Target) : (s.hostStore d tg).params = s.params := by
  rw [State.hostStore_eq]

/-! ### Reset -/

theorem hasResetValues_reset : HasResetValues State.reset :=
  ⟨fun r => by cases r <;> decide, rfl, rfl, rfl, rfl, rfl, rfl, rfl, rfl, rfl, rfl, rfl, rfl, rfl, rfl, rfl, rfl,
    fun _ => ⟨rfl, rfl⟩⟩

/-! ### The next pending action, and commands from CMD -/

/-- A step performs the next pending action. -/
theorem step_of_pending {s : State} {act : HostAction} {rest : List HostAction} (h : s.pending = act :: rest) :
    step s = perform act { s with pending := rest } := by
  rw [step, performNext, h]

/-- A write to CMD runs the low 32 bits of its data. -/
theorem step_of_cmdWrite {s : State} {data : Word} {rest : List HostAction}
    (h : s.pending = .write 0x00000#17 8 data :: rest) :
    step s = runCommand (data.setWidth 32) { s with pending := rest } := step_of_pending h

theorem runCommand_of_decode {w : CmdWord} {i : Instr} (h : decode w = .command i) (s : State) :
    runCommand w s = exec i s := by
  rw [runCommand, h]

/-! ### What the host reads -/

theorem State.statusWord_eq (s : State) :
    s.statusWord = BitVec.ofNat 64 (codeValue s.code + if s.errSeen then 256 else 0) := by
  unfold State.statusWord
  cases s.code <;> cases s.errSeen <;> rfl

theorem State.rdTotal_word (s : State) : BitVec.ofInt 64 s.rdTotal = BitVec.ofNat 64 (Spec.total s % 2 ^ 64).toNat := by
  apply BitVec.eq_of_toNat_eq
  rw [BitVec.toNat_ofInt, BitVec.toNat_ofNat, Nat.mod_eq_of_lt]
  · rfl
  · omega

/-- One nibble of GCFG in the codes of R57 and R58. -/
theorem Group.cfgNibble_toNat (g : Group) :
    g.cfgNibble.toNat = codeOfWidth g.wcode + codeOfEndian g.endian * 2 ^ 3 := by
  unfold Group.cfgNibble
  cases g.wcode <;> cases g.endian <;> rfl

/-- A concatenation as a number. -/
theorem toNat_append_eq_add {n m : Nat} (x : BitVec n) (y : BitVec m) : (x ++ y).toNat = x.toNat * 2 ^ m + y.toNat := by
  rw [BitVec.toNat_append, ← Nat.shiftLeft_add_eq_or_of_lt y.isLt, Nat.shiftLeft_eq]

/-- GCFG as a number: four nibbles, G0's the lowest (R32). -/
theorem State.gcfgWord_toNat (s : State) :
    s.gcfgWord.toNat = ([GroupReg.g0, .g1, .g2, .g3].zipIdx.map fun p =>
      (codeOfWidth (s.group p.1).wcode + codeOfEndian (s.group p.1).endian * 2 ^ 3) * 2 ^ (4 * p.2)).sum := by
  have hlt := (s.groups.g3.cfgNibble ++ s.groups.g2.cfgNibble ++ s.groups.g1.cfgNibble ++ s.groups.g0.cfgNibble).isLt
  rw [State.gcfgWord, BitVec.toNat_setWidth, Nat.mod_eq_of_lt (hlt.trans (by decide))]
  simp only [toNat_append_eq_add, Group.cfgNibble_toNat, List.zipIdx_cons, List.zipIdx_nil, List.map_cons, List.map_nil,
    List.sum_cons, List.sum_nil, State.group, Groups.get]
  ring

theorem State.param_word {s : State} (h : s.params.legal) :
    (BitVec.ofNat 17 s.params.ibufBytes).setWidth 64 = BitVec.ofNat 64 s.params.ibufBytes := by
  have hmax : s.params.ibufBytes ≤ 65536 := h.2
  rw [← BitVec.ofNat_toNat, BitVec.toNat_ofNat, Nat.mod_eq_of_lt (by omega)]

/-- The number each register reads as (R31), in the spec's codes. -/
def State.registerNumber (s : State) : HostReg → Nat
  | .cmd => 0
  | .status => codeValue s.code + if s.errSeen then 256 else 0
  | .arg0 => s.arg0.toNat
  | .arg1 => s.arg1.toNat
  | .res => s.res.toNat
  | .errA => s.errA.toNat
  | .errB => s.errB.toNat
  | .errC => s.errC.toNat
  | .rdLen => s.rdLen.toNat
  | .rdOff => s.rdOff.toNat
  | .rdPad => s.rdPad.toNat
  | .rdCur => s.rdCur.toNat
  | .rdTotal => (Spec.total s % 2 ^ 64).toNat
  | .rdCfg => codeOfEndian s.rdEnd
  | .crc8Poly => s.crc8Poly.toNat
  | .crc16Poly => s.crc16Poly.toNat
  | .olen => s.olen.toNat
  | .param => s.params.ibufBytes
  | .gv r => value s r
  | .gcfg => ([GroupReg.g0, .g1, .g2, .g3].zipIdx.map fun p =>
      (codeOfWidth (s.group p.1).wcode + codeOfEndian (s.group p.1).endian * 2 ^ 3) * 2 ^ (4 * p.2)).sum

theorem State.readRegister_eq (s : State) (h : s.params.legal) (r : HostReg) :
    s.readRegister r = BitVec.ofNat 64 (s.registerNumber r) := by
  cases r with
  | status => exact s.statusWord_eq
  | rdTotal => exact s.rdTotal_word
  | rdCfg => unfold State.readRegister State.registerNumber; cases s.rdEnd <;> rfl
  | param => exact State.param_word h
  | gcfg => rw [State.registerNumber, ← s.gcfgWord_toNat, BitVec.ofNat_toNat, BitVec.setWidth_eq]; rfl
  | cmd => rfl
  | _ => simp [State.readRegister, State.registerNumber, value]

/-- The slots that hold a register, each with the number it reads as. -/
def State.registerMap (s : State) : List (Nat × Nat) :=
  (List.range 29).filterMap fun n => (registerAt (8 * n)).map fun r => (8 * n, s.registerNumber r)

theorem State.slot_of_mem_registerMap (s : State) {a v : Nat} (h : (a, v) ∈ s.registerMap) :
    a < 0x800 ∧ a % 8 = 0 ∧ ∃ r, registerAt a = some r ∧ s.registerNumber r = v := by
  obtain ⟨n, hn, hslot⟩ := List.mem_filterMap.mp h
  obtain ⟨r, hr, heq⟩ := Option.map_eq_some_iff.mp hslot
  obtain ⟨rfl, hv⟩ := Prod.mk.inj heq
  have := List.mem_range.mp hn
  exact ⟨by omega, by omega, r, hr, hv⟩

/-- A host read of a slot's register pushes what the register reads as. -/
theorem step_of_readSlot {s : State} {a : HostAddr} {rest : List HostAction} {r : HostReg} (hlt : a.toNat < 0x800)
    (h8 : a.toNat % 8 = 0) (hr : registerAt a.toNat = some r) (hp : s.pending = .read a 8 :: rest) :
    step s = .next { s with pending := rest, outputs := s.outputs ++ [s.readRegister r] } := by
  rw [step_of_pending hp, perform, hostRead, target_slot a hlt h8, hr]
  cases r <;> rfl

/-- A host read of a reserved address gives 0. -/
theorem step_of_readReserved {s : State} {a : HostAddr} {size : Nat} {rest : List HostAction} (ha : Reserved a.toNat)
    (hs : ReservedSize a.toNat size) (hp : s.pending = .read a size :: rest) :
    step s = .next { s with pending := rest, outputs := s.outputs ++ [0#64] } := by
  rw [step_of_pending hp, perform, hostRead, target_reserved a size ha hs]
  rfl

/-! ### What the host writes -/

/-- A permitted write to anything but CMD only stores. -/
theorem step_of_write {s : State} {a : HostAddr} {size : Nat} {data : Word} {rest : List HostAction} {tg : Target}
    (ht : target a size = some tg) (hcmd : tg ≠ .register .cmd) (hp : s.pending = .write a size data :: rest) :
    step s = .next (({ s with pending := rest } : State).hostStore data tg) := by
  rw [step_of_pending hp, perform, hostWrite, ht]
  split
  case h_1 h => cases h
  case h_2 h => exact absurd (Option.some.inj h) hcmd
  case h_3 h => rw [Option.some.inj h]

/-- A register that takes no host write. -/
theorem State.hostStore_register (s : State) (d : Word) {r : HostReg} (h0 : r ≠ .arg0) (h1 : r ≠ .arg1) :
    s.hostStore d (.register r) = s := by
  cases r with
  | arg0 => exact absurd rfl h0
  | arg1 => exact absurd rfl h1
  | _ => rfl

/-- Only three slots hold CMD, ARG0 or ARG1. -/
theorem slot_of_registerAt {k : Nat} {r : HostReg} (h : registerAt k = some r) (hr : r = .cmd ∨ r = .arg0 ∨ r = .arg1) :
    k ∈ [0x00, 0x10, 0x18] := by
  unfold registerAt at h
  split at h <;> cases h <;> simp at hr ⊢

/-- A slot that holds none of CMD, ARG0 and ARG1 ignores writes. -/
theorem step_of_writeReadOnlySlot {s : State} {a : HostAddr} {data : Word} {rest : List HostAction}
    (hlt : a.toNat < 0x800) (h8 : a.toNat % 8 = 0) (hne : a.toNat ∉ [0x00, 0x10, 0x18])
    (hp : s.pending = .write a 8 data :: rest) : step s = .next { s with pending := rest } := by
  have ht := target_slot a hlt h8
  cases hreg : registerAt a.toNat with
  | none =>
    rw [hreg] at ht
    exact step_of_write ht nofun hp
  | some r =>
    rw [hreg] at ht
    have hr : ¬ (r = .cmd ∨ r = .arg0 ∨ r = .arg1) := fun h => hne (slot_of_registerAt hreg h)
    simp only [not_or] at hr
    rw [step_of_write ht (fun h => hr.1 (Target.register.inj h)) hp, State.hostStore_register _ _ hr.2.1 hr.2.2]

/-! ### The statements of 10_state.md -/

/-- Settles O16: every step keeps the invariant, by the writes of the commands. -/
theorem everyStepKeepsTheInvariant : Obligations.EveryStepKeepsTheInvariant := fun _ _ hs hstep =>
  step_keeps (P := State.Inv)
    (hpending := fun _ _ h => { h with })
    (hexec := fun s t i hwf h hex => (exec_writesIn s i t hex).keeps_inv hwf h)
    (hillegal := fun _ _ _ _ h => { h with })
    (hstore := fun _ d tg h => h.hostStore d tg)
    (hread := fun _ _ h => { h with })
    (hreset := fun _ h => State.platformReset_inv h.params) hs hstep

/-- Settles O8: the listed slots are those of the map, and each register reads as its number; reserved addresses read 0. -/
theorem hostReadsGiveTheRegisterMap : Obligations.HostReadsGiveTheRegisterMap := by
  refine ⟨fun s rest a v hlegal hmem hp => ?_, fun s rest a size ha hs hp => step_of_readReserved ha hs hp⟩
  have hslot : (a.toNat, v) ∈ s.registerMap := hmem
  obtain ⟨hlt, h8, r, hr, rfl⟩ := s.slot_of_mem_registerMap hslot
  rw [step_of_readSlot hlt h8 hr hp, s.readRegister_eq hlegal r]

/-- Settles O10: where the access lands, and what is stored there. -/
theorem hostWritesChangeOnlyTheirLocation : Obligations.HostWritesChangeOnlyTheirLocation := by
  refine fun s rest data => ⟨fun hp => ?_, fun hp => ?_, fun slot hlt h8 hne hp => ?_, fun a size ha hs hp => ?_,
    fun a ha hp => ?_, fun a ha hp => ?_⟩
  · exact step_of_write (tg := .register .arg0) rfl nofun hp
  · exact step_of_write (tg := .register .arg1) rfl nofun hp
  · exact step_of_writeReadOnlySlot hlt h8 hne hp
  · exact step_of_write (target_reserved a size ha hs) nofun hp
  · exact step_of_write (target_obuf a ha) nofun hp
  · rw [step_of_write (target_ibuf a ha) nofun hp, State.hostStore, State.ibufWrite]
    refine ⟨fun hge => by rw [if_neg (not_lt.mpr hge)], fun hlt => ⟨s.ibuf.write a (data.setWidth 8), ?_, fun x => ?_⟩⟩
    · rw [if_pos hlt]
    · rw [Memory.read_write, BitVec.ofNat_toNat]

/-- Settles O24: the frame of the command's writes. -/
theorem stateIsWrittenOnlyByItsCommands : Obligations.StateIsWrittenOnlyByItsCommands := by
  intro s t i h
  have f := exec_frame h
  exact ⟨f.arg0, f.arg1, f.ibuf, f.res, f.group, f.widthAndTag, f.reader, f.cursor, f.crc8Poly, f.crc16Poly, f.output,
    f.pending, f.outputs, f.params, f.draws⟩

/-- Settles O7: CMD takes the low 32 bits, and withFetchWord puts such a write first. -/
theorem stepRunsTheDecodedCommand : Obligations.StepRunsTheDecodedCommand := by
  refine ⟨fun s data rest i hp hi => ?_, fun s nbits w i hi => ?_⟩
  · rw [BitVec.ofNat_toNat] at hi
    rw [step_of_cmdWrite hp, runCommand_of_decode hi]
  · have hp : (s.withFetchWord nbits w).pending =
        .write 0x00000#17 8 ((BitVec.ofNat 32 (w % 2 ^ nbits)).setWidth 64) :: s.pending := rfl
    have hw : ((BitVec.ofNat 32 (w % 2 ^ nbits)).setWidth 64).setWidth 32 = BitVec.ofNat 32 (w % 2 ^ nbits) :=
      BitVec.setWidth_setWidth_of_le _ (by decide)
    rw [step_of_cmdWrite hp, hw, runCommand_of_decode hi]
    rfl

/-- Settles O13: a reset differs from the reset state only in what is not the block's. -/
theorem resetSetsEveryRegister : Obligations.ResetSetsEveryRegister :=
  ⟨hasResetValues_reset, fun s rest hp =>
    ⟨({ s with pending := rest } : State).platformReset, step_of_pending hp, hasResetValues_reset, rfl, rfl, rfl⟩⟩

/-- Settles O15: the values of R34 by evaluation. -/
theorem resetStateMeetsTheInvariant : Obligations.ResetStateMeetsTheInvariant := State.reset_inv

/-- Settles O17: the frame of the commands, and no host action stores a parameter. -/
theorem noStepChangesTheParameters : Obligations.NoStepChangesTheParameters := fun s _ hstep =>
  step_keeps (P := fun u => u.params = s.params)
    (hpending := fun _ _ h => h)
    (hexec := fun _ _ _ _ h hex => (exec_frame hex).params.trans h)
    (hillegal := fun _ _ _ _ h => h)
    (hstore := fun u d tg h => (u.hostStore_params d tg).trans h)
    (hread := fun _ _ h => h)
    (hreset := fun _ h => h) rfl hstep

end Sys2Proof.Machine

/-! Host reads and writes of the buffers, and the commands that read IBUF (20_memory.md). `EndsIn` says the two ways a command
ends from a state with the invariant, a next state or the fault of an IBUF byte nothing wrote; `exec_endsIn` shows it for every
command. -/

namespace Sys2Proof.Machine

open Sys2Proof.Spec

/-! ### What a host read does -/

/-- A host read that gives a next state only adds an output. -/
theorem hostRead_next {a : HostAddr} {size : Nat} {s t : State} (h : hostRead a size s = .next t) :
    ∃ v, t = s.pushOutput v := by
  unfold hostRead at h
  split at h
  · cases h
  · split at h
    · cases h
    · cases h; exact ⟨_, rfl⟩

/-- The pending actions are no part of what the host reads. -/
theorem State.hostValue_pending (s : State) (rest : List HostAction) (tg : Target) :
    ({ s with pending := rest } : State).hostValue tg = s.hostValue tg := by
  cases tg with
  | register r => cases r <;> rfl
  | _ => rfl

theorem step_of_read {s : State} {a : HostAddr} {size : Nat} {rest : List HostAction} {tg : Target} {v : Word}
    (ht : target a size = some tg) (hv : s.hostValue tg = .ok v) (hp : s.pending = .read a size :: rest) :
    step s = .next { s with pending := rest, outputs := s.outputs ++ [v] } := by
  rw [step_of_pending hp, perform, hostRead, ht]
  simp only [State.hostValue_pending, hv]
  rfl

theorem step_of_faultingRead {s : State} {a : HostAddr} {size : Nat} {rest : List HostAction} {tg : Target} {f : Fault}
    (ht : target a size = some tg) (hv : s.hostValue tg = .error f) (hp : s.pending = .read a size :: rest) :
    step s = .fault f := by
  rw [step_of_pending hp, perform, hostRead, ht]
  simp only [State.hostValue_pending, hv]

/-! ### What the host reads of the IBUF window -/

theorem State.hostValue_ibuf_beyond (s : State) {a : Nat} (ha : s.params.ibufBytes ≤ a) :
    s.hostValue (.ibuf a) = .ok 0#64 := by
  rw [State.hostValue, if_neg (by omega)]

theorem State.hostValue_ibuf_readable (s : State) {a : Nat} (h : s.Readable a) :
    s.hostValue (.ibuf a) = .ok (BitVec.ofNat 64 (ibufByte s a)) := by
  rw [State.hostValue, if_pos h.1, s.ibufRead_of_readable a h]
  exact congrArg Except.ok (BitVec.ofNat_toNat 64 (s.ibufContent a)).symm

theorem State.hostValue_ibuf_unreadable (s : State) {a : Nat} (ha : a < s.params.ibufBytes) (h : ¬ s.Readable a) :
    s.hostValue (.ibuf a) = .error (.ibufByteNeverWritten a) := by
  rw [State.hostValue, if_pos ha, s.ibufRead_of_not_readable a ha h]

/-! ### Access sizes (20_memory.md R40) -/

/-- The slots of 0x00 to 0x8F and 0xC0 to 0xE7 are all named. -/
theorem registerAt_ne_none {n : Nat} (h : n < 18 ∨ 24 ≤ n ∧ n < 29) : registerAt (8 * n) ≠ none := by
  have hall : ∀ k : Fin 29, k.val < 18 ∨ 24 ≤ k.val → registerAt (8 * k.val) ≠ none := by decide
  exact hall ⟨n, by omega⟩ (h.imp_right And.left)

/-- A permitted access is 8 aligned bytes outside the buffers, or one byte of no register. -/
theorem size_of_target {a : HostAddr} {size : Nat} {tg : Target} (h : target a size = some tg) :
    (size = 8 ∧ a.toNat % 8 = 0 ∧ (a.toNat < 0x800 ∨ 0x900 ≤ a.toNat ∧ a.toNat < 0x10000)) ∨
      (size = 1 ∧ ¬ (a.toNat < 0x90 ∨ 0xC0 ≤ a.toNat ∧ a.toNat < 0xE8)) := by
  unfold target ibufWindow obufWindow Config.obufBytes at h
  simp only at h
  split at h
  case isTrue => exact .inr (by split at h <;> [omega; cases h])
  case isFalse =>
    split at h
    case isTrue => exact .inr (by split at h <;> [omega; cases h])
    case isFalse =>
      split at h
      case h_1 => exact .inl (by split at h <;> [omega; cases h])
      case h_2 hnone =>
        have hreg : ¬ (a.toNat < 0x90 ∨ 0xC0 ≤ a.toNat ∧ a.toNat < 0xE8) := fun hr =>
          registerAt_ne_none (by omega) hnone
        split at h
        · omega
        · cases h

theorem step_of_unpermittedRead {s : State} {a : HostAddr} {size : Nat} {rest : List HostAction}
    (ht : target a size = none) (hp : s.pending = .read a size :: rest) :
    step s = .refused (.unsupportedAccess a size) := by
  rw [step_of_pending hp, perform, hostRead, ht]

theorem step_of_unpermittedWrite {s : State} {a : HostAddr} {size : Nat} {data : Word} {rest : List HostAction}
    (ht : target a size = none) (hp : s.pending = .write a size data :: rest) :
    step s = .refused (.unsupportedAccess a size) := by
  rw [step_of_pending hp, perform, hostWrite, ht]

/-! ### IBUF bytes that cannot be read -/

/-- A read of IBUF[a] faults (20_memory.md R38): nothing wrote the byte, and the treatment of I1 is `fault`. -/
structure State.FaultsAt (s : State) (a : Nat) : Prop where
  inside : a < s.params.ibufBytes
  neverWritten : s.ibuf.read a = none
  treatment : s.params.unwritten = .fault

theorem State.faultsAt_of_ibufRead {s : State} {a : Nat} {f : Fault} (ha : a < s.params.ibufBytes)
    (h : s.ibufRead a = .error f) : f = .ibufByteNeverWritten a ∧ s.FaultsAt a := by
  obtain ⟨hf, hin, hnone, hu⟩ | ⟨_, hge⟩ := s.ibufRead_error a f h
  · exact ⟨hf, hin, hnone, hu⟩
  · omega

/-- The reader invariant (R23) keeps the stream inside IBUF, so that its bits fail only at a byte nothing wrote. -/
theorem State.faultsAt_of_streamByte {s : State} {i : Nat} {f : Fault} (hs : s.Inv)
    (hi : (s.rdCur.toNat : Int) + i < s.rdTotal)
    (h : s.ibufRead (byteIndex s.rdLen.toNat s.rdEnd (s.rdOff.toNat + s.rdCur.toNat + i)) = .error f) :
    ∃ a, f = .ibufByteNeverWritten a ∧ s.FaultsAt a := by
  obtain ⟨_, hlen, _⟩ := hs.reader
  have hlt : byteIndex s.rdLen.toNat s.rdEnd (s.rdOff.toNat + s.rdCur.toNat + i) < s.rdLen.toNat :=
    byteIndex_lt _ _ _ (by unfold State.rdTotal at hi; omega)
  exact ⟨_, State.faultsAt_of_ibufRead (hlt.trans_le hlen) h⟩

theorem State.faultsAt_of_streamBits {s : State} {n : Nat} {f : Fault} (hs : s.Inv)
    (hn : (s.rdCur.toNat : Int) + n ≤ s.rdTotal) (h : s.streamBits n = .error f) :
    ∃ a, f = .ibufByteNeverWritten a ∧ s.FaultsAt a := by
  obtain ⟨i, hi, he⟩ := s.logicalBits_error _ _ _ h
  exact State.faultsAt_of_streamByte hs (by omega) he

/-! ### How a command ends from a state with the invariant -/

/-- The commands that read IBUF when they execute. -/
def ReadsIbuf (i : Instr) : Prop :=
  (∃ n, i = .read n) ∨ (∃ n, i = .rdbytes n) ∨ (∃ n e, i = .subrd n e) ∨ i = .c8calc ∨ i = .c16calc

/-- The outcomes of the command i from s: a next state, or the fault of an IBUF byte that i needs and nothing wrote. -/
inductive EndsIn (i : Instr) (s : State) : Host.Outcome State Fault Refusal → Prop
  | next (t : State) : EndsIn i s (.next t)
  | fault (a : Nat) : ReadsIbuf i → s.FaultsAt a → EndsIn i s (.fault (.ibufByteNeverWritten a))

/-- A command that checks its operands and reads no byte. -/
theorem EndsIn.ite {i : Instr} {s t u : State} {p : Prop} [Decidable p] :
    EndsIn i s (if p then .next t else .next u) := by
  split
  · exact .next t
  · exact .next u

theorem EndsIn.of_fault {i : Instr} {s : State} {f : Fault} (hi : ReadsIbuf i)
    (h : ∃ a, f = .ibufByteNeverWritten a ∧ s.FaultsAt a) : EndsIn i s (.fault f) := by
  obtain ⟨a, rfl, ha⟩ := h
  exact .fault a hi ha

theorem endsIn_read {s : State} (hs : s.Inv) (n : Nat) : EndsIn (.read n) s (execRead n s) := by
  obtain ⟨t, _, hx⟩ | ⟨hok, ⟨f, hf, hx⟩ | ⟨x, _, hx⟩⟩ := execRead_cases n s <;> rw [hx]
  · exact .next t
  · exact .of_fault (.inl ⟨n, rfl⟩) (State.faultsAt_of_streamBits hs (bounds_of_bitCountError hok).1 hf)
  · exact .next _

theorem endsIn_subrd {s : State} (hs : s.Inv) (n : Nat) (e : Endian) : EndsIn (.subrd n e) s (execSubrd n e s) := by
  obtain ⟨t, _, hx⟩ | ⟨hok, ⟨f, hf, hx⟩ | ⟨x, _, hx⟩⟩ := execSubrd_cases n e s <;> rw [hx]
  · exact .next t
  · exact .of_fault (.inr (.inr (.inl ⟨n, e, rfl⟩)))
      (State.faultsAt_of_streamBits hs (bounds_of_bitCountError hok).1 hf)
  · exact .next _

theorem endsIn_rdbytes {s : State} (hs : s.Inv) (n : Nat) : EndsIn (.rdbytes n) s (execRdbytes n s) := by
  obtain ⟨f, i, hx, hi, he⟩ | ⟨o, m, _, _, _, _, hx⟩ := rdbytesLoop_cases n s 0 <;> rw [execRdbytes, hx]
  · exact .of_fault (.inr (.inl ⟨n, rfl⟩)) (State.faultsAt_of_streamByte hs hi he)
  · exact .next _

/-- The calculate commands check that their slice lies inside IBUF (R116). -/
theorem endsIn_crcCalc {w : Nat} {i : Instr} (s : State) (stepper : BitVec w → Byte → BitVec w) (init : BitVec w)
    (hi : ReadsIbuf i) : EndsIn i s (s.crcCalc stepper init) := by
  obtain ⟨_, hx⟩ | ⟨hle, ⟨f, j, hj, he, hx⟩ | ⟨r, _, hx⟩⟩ := s.crcCalc_cases stepper init <;> rw [hx]
  · exact .next _
  · exact .of_fault hi ⟨_, State.faultsAt_of_ibufRead (by omega) he⟩
  · exact .next _

theorem exec_endsIn {s : State} (hs : s.Inv) (i : Instr) : EndsIn i s (exec i s) := by
  cases i with
  | read n => exact endsIn_read hs n
  | subrd n e => exact endsIn_subrd hs n e
  | rdbytes n => exact endsIn_rdbytes hs n
  | c8calc => exact endsIn_crcCalc s _ _ (.inr (.inr (.inr (.inl rfl))))
  | c16calc => exact endsIn_crcCalc s _ _ (.inr (.inr (.inr (.inr rfl))))
  | extr | getb | setb | flip | getr | setr | geto | seto | shl | shr | rdinit | seek => exact .ite
  | _ => exact .next _

/-! ### Bits and slices with a byte that cannot be read -/

/-- The statements' byte_index is the reader's. -/
theorem bitsReadable_iff (s : State) (k n : Nat) :
    BitsReadable s k n ↔ ∀ i, i < n → s.Readable (byteIndex s.rdLen.toNat s.rdEnd (k + i)) := by
  have hindex : ∀ j, Spec.byteIndex s j = byteIndex s.rdLen.toNat s.rdEnd j := by
    intro j
    unfold Spec.byteIndex byteIndex
    cases s.rdEnd <;> simp [Nat.shiftRight_eq_div_pow]
  simp only [BitsReadable, hindex]

theorem State.streamBits_of_not_bitsReadable {s : State} {n : Nat} (hs : s.Inv) (hn : (cur s : Int) + n ≤ Spec.total s)
    (h : ¬ BitsReadable s (nextBit s) n) :
    ∃ a, s.streamBits n = .error (.ibufByteNeverWritten a) ∧ s.FaultsAt a := by
  cases hb : s.streamBits n with
  | ok x =>
    refine absurd ((bitsReadable_iff s _ n).mpr fun i hi => ?_) h
    obtain ⟨b, hb⟩ := s.readable_of_logicalBits _ _ _ hb i hi
    exact s.readable_of_ibufRead _ _ hb
  | error f =>
    obtain ⟨a, rfl, ha⟩ := State.faultsAt_of_streamBits hs hn hb
    exact ⟨a, rfl, ha⟩

/-- READ and SUBRD fault alike: both read the bits before they write. -/
theorem exec_read_subrd_fault {s : State} {n : Nat} {f : Fault} (e : Endian) (h1 : 1 ≤ n) (h64 : n ≤ 64)
    (hn : (cur s : Int) + n ≤ Spec.total s) (h : s.streamBits n = .error f) :
    exec (.read n) s = .fault f ∧ exec (.subrd n e) s = .fault f := by
  have hok : s.bitCountError n = none := by
    rw [State.bitCountError, if_neg (by omega), if_neg (show ¬ s.rdTotal < s.rdCur.toNat + n from not_lt.mpr hn)]
  simp only [exec, execRead, execSubrd, hok, h, and_self]

/-- A fold over a slice of IBUF with a byte that cannot be read fails at the first such byte, whatever is folded. -/
theorem State.crcFold_of_not_readable (s : State) (len : Nat) : ∀ a, a + len ≤ s.params.ibufBytes →
    ¬ (∀ j, j < len → s.Readable (a + j)) → ∃ x, s.FaultsAt x ∧
      ∀ {w : Nat} (stepper : BitVec w → Byte → BitVec w) (r : BitVec w),
        s.crcFold stepper r a len = .error (.ibufByteNeverWritten x) := by
  induction len with
  | zero => exact fun a _ h => absurd (fun j hj => absurd hj (Nat.not_lt_zero j)) h
  | succ len ih =>
    intro a hle h
    by_cases ha : s.Readable a
    · have hrest : ¬ (∀ j, j < len → s.Readable (a + 1 + j)) := fun hall => h fun
        | 0, _ => ha
        | j + 1, hj => by rw [← Nat.add_assoc, Nat.add_right_comm]; exact hall j (by omega)
      obtain ⟨x, hx, hfold⟩ := ih (a + 1) (by omega) hrest
      refine ⟨x, hx, fun stepper r => ?_⟩
      rw [State.crcFold, s.ibufRead_of_readable a ha]
      exact hfold stepper _
    · have hread := s.ibufRead_of_not_readable a (by omega) ha
      refine ⟨a, (State.faultsAt_of_ibufRead (by omega) hread).2, fun stepper r => ?_⟩
      rw [State.crcFold, hread]

theorem State.crcCalc_fault {w : Nat} {s : State} {stepper : BitVec w → Byte → BitVec w} {init : BitVec w} {f : Fault}
    (hle : s.arg0Low.toNat + s.arg0High.toNat ≤ s.params.ibufBytes)
    (h : s.crcFold stepper init s.arg0Low.toNat s.arg0High.toNat = .error f) : s.crcCalc stepper init = .fault f := by
  simp only [State.crcCalc, if_neg (not_lt.mpr hle), h]

theorem State.arg0Low_toNat (s : State) : s.arg0Low.toNat = Spec.arg0Low s := by
  simp [State.arg0Low, Spec.arg0Low]

theorem State.arg0High_toNat (s : State) : s.arg0High.toNat = Spec.arg0High s := by
  have := s.arg0.isLt
  simp only [State.arg0High, Spec.arg0High, BitVec.extractLsb'_toNat, Nat.shiftRight_eq_div_pow]
  omega

/-! ### The statements of 20_memory.md -/

/-- Settles O9: where the byte lands, and what the host reads there. -/
theorem hostReadsOfBufferBytes : Obligations.HostReadsOfBufferBytes := by
  refine fun s rest a => ⟨fun ha hp => ⟨s.obufByte a, step_of_read (target_obuf a ha) rfl hp, fun c hc => ?_⟩,
    fun ha hp => ⟨fun hge => ?_, fun _ hr => ?_, fun hlt hr => ?_⟩⟩
  · rw [State.obufByte, hc]
  · exact step_of_read (target_ibuf a ha) (s.hostValue_ibuf_beyond hge) hp
  · exact step_of_read (target_ibuf a ha) (s.hostValue_ibuf_readable hr) hp
  · exact step_of_faultingRead (target_ibuf a ha) (s.hostValue_ibuf_unreadable hlt hr) hp

/-- Settles O12: no permitted access has such a size and alignment, so it lands nowhere. -/
theorem unpermittedAccessesAreRefused : Obligations.UnpermittedAccessesAreRefused := by
  intro s rest a size data h
  have hnone : target a size = none := by
    cases ht : target a size with
    | none => rfl
    | some tg =>
      have hsize := size_of_target ht
      unfold Touches at h
      omega
  exact ⟨step_of_unpermittedRead hnone, step_of_unpermittedWrite hnone⟩

/-- Settles O19: the ends of a command from a state with the invariant. -/
theorem commandsStopOnlyAtNeverWrittenBytes : Obligations.CommandsStopOnlyAtNeverWrittenBytes := by
  intro s i hs
  have hends := exec_endsIn hs i
  generalize exec i s = o at hends ⊢
  cases hends with
  | next t => exact ⟨nofun, nofun⟩
  | fault a hi ha =>
    refine ⟨fun f hf => ?_, nofun⟩
    cases hf
    exact ⟨a, rfl, ha.inside, ha.neverWritten, ha.treatment, hi⟩

/-- Settles O25: READ, SUBRD and the calculate commands fail at the first such byte; RDBYTES can end in no next state, for then
it has read every byte, and its only other end is the fault. -/
theorem readingANeverWrittenByteFaults : Obligations.ReadingANeverWrittenByteFaults := by
  intro s n e hs _
  refine ⟨fun h1 h64 hn hbits => ?_, fun hbits => ?_, fun hle hslice => ?_⟩
  · obtain ⟨a, hstream, ha⟩ := State.streamBits_of_not_bitsReadable hs hn hbits
    obtain ⟨hread, hsubrd⟩ := exec_read_subrd_fault e h1 h64 hn hstream
    exact ⟨a, hread, hsubrd, ha.neverWritten⟩
  · have hends := exec_endsIn hs (.rdbytes n)
    generalize hx : exec (.rdbytes n) s = o at hends ⊢
    cases hends with
    | next t => exact absurd ((bitsReadable_iff s _ _).mpr (rdbytesLoop_readable n s t 0 hx)) hbits
    | fault a _ ha => exact ⟨a, rfl, ha.neverWritten⟩
  · rw [← s.arg0Low_toNat, ← s.arg0High_toNat] at hle hslice
    obtain ⟨x, hx, hfold⟩ := s.crcFold_of_not_readable _ _ hle hslice
    exact ⟨x, State.crcCalc_fault hle (hfold _ _), State.crcCalc_fault hle (hfold _ _), hx.neverWritten⟩

/-- Settles O11: a host read only adds an output. -/
theorem hostReadsHaveNoSideEffect : Obligations.HostReadsHaveNoSideEffect := by
  intro s t rest a size hp hstep
  rw [step_of_pending hp] at hstep
  obtain ⟨v, rfl⟩ := hostRead_next hstep
  exact ⟨v, rfl⟩

end Sys2Proof.Machine

/-! Command words (30_encoding.md). A word is its fields, so the statements reduce to fields: `decode_eq_command_iff` says the
decoder's three checks (R66) on them, `commandOf_isSome_iff` which used values are legal (R56), and `opcodeMap_eq` that the rows
of R63 are the decoder's opcodes with the masks their fields give. -/

namespace Sys2Proof

open Sys2Proof.Machine Sys2Proof.Spec

/-! ### The fields of a word as numbers -/

/-- The numbers the fields hold. -/
def Fields.numbers (x : Fields) : WordFields :=
  { opc := x.opc.toNat, a := x.a.toNat, b := x.b.toNat, gd := x.gd.toNat, gs := x.gs.toNat, f := x.f.toNat }

theorem packFields_toNat_eq_number (x : Fields) : (packFields x).toNat = x.numbers.number := packFields_toNat x

theorem fieldsOf_opc_toNat (w : CmdWord) : (fieldsOf w).opc.toNat = w.toNat / 2 ^ 24 := by
  simp only [fieldsOf, BitVec.extractLsb'_toNat, Nat.shiftRight_eq_div_pow]
  omega

theorem fieldsOf_b_toNat (w : CmdWord) : (fieldsOf w).b.toNat = w.toNat / 2 ^ 8 % 2 ^ 8 := by
  simp only [fieldsOf, BitVec.extractLsb'_toNat, Nat.shiftRight_eq_div_pow]

theorem fieldsOf_f_toNat (w : CmdWord) : (fieldsOf w).f.toNat = w.toNat % 2 ^ 4 := by
  simp [fieldsOf, BitVec.extractLsb'_toNat]

theorem lowF_toNat (f : BitVec 4) : (lowF f).toNat = f.toNat % 2 ^ 3 := by
  simp [lowF, BitVec.extractLsb'_toNat]

/-! ### The codes inside fields as numbers -/

@[simp] theorem groupBits_toNat (r : GroupReg) : (groupBits r).toNat = numberOfGroup r := by cases r <;> rfl

@[simp] theorem loadSourceField_toNat (l : LoadSource) : (loadSourceField l).toNat = codeOfSource l := by cases l <;> rfl

@[simp] theorem bitField_toNat (b : Bool) : (bitField b).toNat = b.toNat := by cases b <;> rfl

@[simp] theorem originField_toNat (o : SeekOrigin) : (originField o).toNat = codeOfOrigin o := by cases o <;> rfl

@[simp] theorem widthCode_toNat (w : Width) : (widthCode w).toNat = codeOfWidth w := by cases w <;> rfl

@[simp] theorem endianBit_toNat (e : Endian) : (endianBit e).toNat = codeOfEndian e := by cases e <;> rfl

@[simp] theorem packF_toNat (hi : BitVec 1) (lo : BitVec 3) : (packF hi lo).toNat = hi.toNat * 2 ^ 3 + lo.toNat := by
  revert hi lo; decide

/-! ### Encoding and then decoding -/

/-- The decoder's three checks (R66): the opcode, the unused fields, the values of the used ones. -/
theorem decode_eq_command_iff {w : CmdWord} {i : Instr} :
    decode w = .command i ↔ ∃ u, usedFields (fieldsOf w).opc = some u ∧ unusedZero u (fieldsOf w) = true ∧
      commandOf (fieldsOf w) = some i := by
  rw [decode]
  cases hu : usedFields (fieldsOf w).opc with
  | none => simp
  | some u =>
    cases hz : unusedZero u (fieldsOf w) with
    | false => simp [hz]
    | true => cases hc : commandOf (fieldsOf w) <;> simp [hz]

open Laws Laws.Encoding in
/-- Every command's opcode is in the map, and its unused fields are zero. -/
theorem encodeFields_unusedZero : ∀ i, Laws.Encoding.Statement i
  | .nop => nop | .load .. => load .. | .copy .. => copy .. | .extr .. => extr .. | .getb .. => getb ..
  | .setb .. => setb .. | .flip .. => Encoding.flip .. | .getr .. => getr .. | .setr .. => setr .. | .geto .. => geto ..
  | .seto .. => seto .. | .msb .. => msb .. | .lsb .. => lsb .. | .mso .. => mso .. | .lso .. => lso ..
  | .tobytes .. => tobytes .. | .revo .. => revo .. | .revc .. => revc .. | .twos .. => twos .. | .shl .. => shl ..
  | .shr .. => shr .. | .and .. => and .. | .or .. => or .. | .not .. => not .. | .inc .. => inc .. | .fmask .. => fmask ..
  | .rdinit .. => rdinit .. | .read .. => read .. | .rdbytes .. => rdbytes .. | .seek .. => seek .. | .subrd .. => subrd ..
  | .c8poly => c8poly | .c8calc => c8calc | .c8upd .. => c8upd .. | .c8tbl .. => c8tbl ..
  | .c16poly => c16poly | .c16calc => c16calc | .c16upd .. => c16upd .. | .c16tbl .. => c16tbl ..

/-- Each operand is read back from its field: a code by its inverse, an index because it fits (R68). -/
theorem commandOf_encodeFields {i : Instr} (h : i.wellFormed = true) : commandOf (encodeFields i) = some i := by
  cases i <;> simp_all [commandOf, encodeFields, withEndian, Instr.wellFormed, fitsField]

/-- The encoder's fields hold the numbers of the syntax table (R68). -/
theorem numbers_encodeFields {i : Instr} (h : i.wellFormed = true) : (encodeFields i).numbers = spelling i := by
  cases i <;> simp_all [Fields.numbers, encodeFields, spelling, Instr.wellFormed, fitsField]

/-! ### Legal values of the used fields -/

/-- The restricted fields hold legal values (R56). -/
def Fields.Legal (x : Fields) : Prop :=
  (x.opc = 0x10#8 → lowF x.f ≤ 4#3 ∧ x.b ≤ 1#8) ∧ (x.opc = 0x14#8 → x.b ≤ 1#8) ∧
    (x.opc = 0x40#8 ∨ x.opc = 0x44#8 → lowF x.f = 0#3) ∧ (x.opc = 0x43#8 → x.f ≤ 2#4)

theorem restrictedLegal_iff (w : CmdWord) : RestrictedLegal w ↔ (fieldsOf w).Legal := by
  simp only [RestrictedLegal, Fields.Legal, ← BitVec.toNat_inj, BitVec.le_def, lowF_toNat, fieldsOf_opc_toNat,
    fieldsOf_b_toNat, fieldsOf_f_toNat, BitVec.toNat_ofNat, Nat.reduceMod, Nat.reducePow]

theorem widthOfCode_isSome (c : BitVec 3) : (widthOfCode c).isSome = true ↔ c ≤ 4#3 := by revert c; decide

theorem loadSourceOfField_isSome (b : BitVec 8) : (loadSourceOfField b).isSome = true ↔ b ≤ 1#8 := by revert b; decide

theorem bitOfField_isSome (b : BitVec 8) : (bitOfField b).isSome = true ↔ b ≤ 1#8 := by revert b; decide

theorem originOfField_isSome (f : BitVec 4) : (originOfField f).isSome = true ↔ f ≤ 2#4 := by revert f; decide

/-- The decoder rejects the fields of an opcode of the map for a reserved value only: LOAD, SETB, RDINIT, SEEK and SUBRD have
one, and every other opcode is a command whatever its used fields hold. -/
theorem commandOf_isSome_iff {x : Fields} {u : UsedFields} (hu : usedFields x.opc = some u) :
    (commandOf x).isSome = true ↔ x.Legal := by
  obtain ⟨opc, a, b, gd, gs, f⟩ := x
  dsimp only [usedFields] at hu
  split at hu
  case h_2 => -- LOAD
    simp only [commandOf, Fields.Legal, ← widthOfCode_isSome, ← loadSourceOfField_isSome]
    cases widthOfCode (lowF f) <;> cases loadSourceOfField b <;> simp
  case h_6 => simp [commandOf, Fields.Legal, bitOfField_isSome] -- SETB
  case h_27 | h_31 => simp [commandOf, Fields.Legal, withEndian] -- RDINIT, SUBRD
  case h_30 => simp [commandOf, Fields.Legal, originOfField_isSome] -- SEEK
  case h_40 => cases hu -- a reserved OPC
  all_goals simp [commandOf, Fields.Legal]

/-! ### The opcode map -/

/-- The bits of B that a legal value leaves zero, where the opcode uses B: all but one for LOAD and SETB (R56). -/
def zeroBitsOfB (o : BitVec 8) : BitVec 8 := if o = 0x10#8 ∨ o = 0x14#8 then 0xFE#8 else 0#8

/-- The bits of F that a legal value leaves zero, where the opcode uses F: F[2:0] for RDINIT and SUBRD, F[3:2] for SEEK
(R56). -/
def zeroBitsOfF (o : BitVec 8) : BitVec 4 :=
  if o = 0x40#8 ∨ o = 0x44#8 then 7#4 else if o = 0x43#8 then 0xC#4 else 0#4

/-- The mask of an opcode's row, by fields: all of OPC and of the unused fields, and the bits above of B and F. -/
def rowMask (o : BitVec 8) (u : UsedFields) : Fields :=
  { opc := BitVec.allOnes 8
    a := if u.a then 0#8 else BitVec.allOnes 8
    b := if u.b then zeroBitsOfB o else BitVec.allOnes 8
    gd := if u.gd then 0#2 else BitVec.allOnes 2
    gs := if u.gs then 0#2 else BitVec.allOnes 2
    f := if u.f then zeroBitsOfF o else BitVec.allOnes 4 }

/-- An opcode's row of the opcode map. -/
def opcodeRow (o : BitVec 8) (u : UsedFields) : OpcodeRow :=
  ⟨packFields { opc := o }, packFields (rowMask o u)⟩

/-- The values of OPC up to the last opcode, C16TBL's. -/
def opcValues : List (BitVec 8) := (List.range 0x6C).map (BitVec.ofNat 8)

/-- The 39 rows of R63 are the decoder's opcodes, in order. -/
theorem opcodeMap_eq : opcodeMap = opcValues.filterMap fun o => (usedFields o).map (opcodeRow o) := rfl

theorem mem_opcValues_of_usedFields : ∀ o, (usedFields o).isSome = true → o ∈ opcValues := by decide

theorem mem_opcodeMap_iff {row : OpcodeRow} :
    row ∈ opcodeMap ↔ ∃ o u, usedFields o = some u ∧ row = opcodeRow o u := by
  simp only [opcodeMap_eq, List.mem_filterMap, Option.map_eq_some_iff]
  constructor
  · rintro ⟨o, _, u, hu, rfl⟩
    exact ⟨o, u, hu, rfl⟩
  · rintro ⟨o, u, hu, rfl⟩
    exact ⟨o, mem_opcValues_of_usedFields o (by simp [hu]), u, hu, rfl⟩

/-! ### When a row matches a word -/

theorem fieldsOf_and (v w : CmdWord) :
    fieldsOf (v &&& w) =
      { opc := (fieldsOf v).opc &&& (fieldsOf w).opc
        a := (fieldsOf v).a &&& (fieldsOf w).a
        b := (fieldsOf v).b &&& (fieldsOf w).b
        gd := (fieldsOf v).gd &&& (fieldsOf w).gd
        gs := (fieldsOf v).gs &&& (fieldsOf w).gs
        f := (fieldsOf v).f &&& (fieldsOf w).f } := by
  simp only [fieldsOf, BitVec.extractLsb'_and]

/-- A word is compared under a mask field by field. -/
theorem and_packFields_eq_iff (w : CmdWord) (m y : Fields) :
    w &&& packFields m = packFields y ↔
      (fieldsOf w).opc &&& m.opc = y.opc ∧ (fieldsOf w).a &&& m.a = y.a ∧ (fieldsOf w).b &&& m.b = y.b ∧
        (fieldsOf w).gd &&& m.gd = y.gd ∧ (fieldsOf w).gs &&& m.gs = y.gs ∧ (fieldsOf w).f &&& m.f = y.f := by
  have hinj : Function.Injective fieldsOf := Function.LeftInverse.injective packFields_fieldsOf
  rw [← hinj.eq_iff, fieldsOf_and, fieldsOf_packFields, fieldsOf_packFields]
  cases y
  rw [Fields.mk.injEq]

/-- A field is masked whole where it is unused, and by m where it is used and m's bits are zero in it. -/
theorem and_ite_eq_zero_iff {n : Nat} {used : Bool} {x m : BitVec n} (hx : x &&& m = 0#n) :
    x &&& (if used then m else BitVec.allOnes n) = 0#n ↔ (used || x == 0#n) = true := by
  cases used <;> simp [hx]

theorem Fields.Legal.b_and {x : Fields} (h : x.Legal) : x.b &&& zeroBitsOfB x.opc = 0#8 := by
  obtain ⟨hload, hsetb, -, -⟩ := h
  have hbit : ∀ b : BitVec 8, b ≤ 1#8 → b &&& 0xFE#8 = 0#8 := by decide
  unfold zeroBitsOfB
  split
  · rename_i ho
    exact hbit _ (ho.elim (fun h => (hload h).2) hsetb)
  · exact BitVec.and_zero

theorem Fields.Legal.f_and {x : Fields} (h : x.Legal) : x.f &&& zeroBitsOfF x.opc = 0#4 := by
  obtain ⟨-, -, hendian, hseek⟩ := h
  have hlow : ∀ f : BitVec 4, lowF f = 0#3 → f &&& 7#4 = 0#4 := by decide
  have horigin : ∀ f : BitVec 4, f ≤ 2#4 → f &&& 0xC#4 = 0#4 := by decide
  unfold zeroBitsOfF
  split
  · exact hlow _ (hendian ‹_›)
  · split
    · exact horigin _ (hseek ‹_›)
    · exact BitVec.and_zero

theorem opc_of_matches {w : CmdWord} {o : BitVec 8} {u : UsedFields}
    (h : w &&& (opcodeRow o u).mask = (opcodeRow o u).matchWord) : (fieldsOf w).opc = o := by
  rw [opcodeRow, and_packFields_eq_iff] at h
  exact BitVec.and_allOnes.symm.trans h.1

/-- On a word with legal values, the row of the word's opcode asks that the unused fields are zero (R55). -/
theorem matches_opcodeRow_iff {w : CmdWord} {u : UsedFields} (hw : (fieldsOf w).Legal) :
    w &&& (opcodeRow (fieldsOf w).opc u).mask = (opcodeRow (fieldsOf w).opc u).matchWord ↔
      unusedZero u (fieldsOf w) = true := by
  rw [opcodeRow, and_packFields_eq_iff]
  generalize fieldsOf w = x at hw ⊢
  simp only [rowMask, unusedZero, Bool.and_eq_true, BitVec.and_allOnes, true_and, and_assoc,
    and_ite_eq_zero_iff BitVec.and_zero, and_ite_eq_zero_iff hw.b_and, and_ite_eq_zero_iff hw.f_and]

/-- A row matches a word with legal values exactly when the word's opcode is in the map and its unused fields are zero. -/
theorem isCommandWord_iff (w : CmdWord) :
    IsCommandWord w ↔
      ∃ u, usedFields (fieldsOf w).opc = some u ∧ unusedZero u (fieldsOf w) = true ∧ (fieldsOf w).Legal := by
  rw [IsCommandWord, restrictedLegal_iff]
  constructor
  · rintro ⟨⟨row, hrow, hmatch⟩, hlegal⟩
    obtain ⟨o, u, hu, rfl⟩ := mem_opcodeMap_iff.mp hrow
    obtain rfl := opc_of_matches hmatch
    exact ⟨u, hu, (matches_opcodeRow_iff hlegal).mp hmatch, hlegal⟩
  · rintro ⟨u, hu, hz, hlegal⟩
    exact ⟨⟨_, mem_opcodeMap_iff.mpr ⟨_, u, hu, rfl⟩, (matches_opcodeRow_iff hlegal).mpr hz⟩, hlegal⟩

/-- The decoder accepts exactly the words of the map (R63, R65). -/
theorem exists_decode_eq_command_iff (w : CmdWord) : (∃ i, decode w = .command i) ↔ IsCommandWord w := by
  rw [isCommandWord_iff]
  constructor
  · rintro ⟨i, hi⟩
    obtain ⟨u, hu, hz, hc⟩ := decode_eq_command_iff.mp hi
    exact ⟨u, hu, hz, (commandOf_isSome_iff hu).mp (by simp [hc])⟩
  · rintro ⟨u, hu, hz, hlegal⟩
    obtain ⟨i, hi⟩ := Option.isSome_iff_exists.mp ((commandOf_isSome_iff hu).mpr hlegal)
    exact ⟨i, decode_eq_command_iff.mpr ⟨u, hu, hz, hi⟩⟩

/-! ### Words that are no command -/

theorem exists_decode_eq_illegal {w : CmdWord} (h : ¬ IsCommandWord w) : ∃ why, decode w = .illegal why := by
  cases hw : decode w with
  | command i => exact absurd ((exists_decode_eq_command_iff w).mp ⟨i, hw⟩) h
  | illegal why => exact ⟨why, rfl⟩

/-- The model's error report is the statements' (60_exceptions.md R132). -/
theorem raise_eq_reported (s : State) (name : Code) (a b c : Int) : s.raise name a b c = reported s name a b c := by
  have hofInt : ∀ k : Int, BitVec.ofInt 64 (k % 2 ^ 64) = BitVec.ofInt 64 k := fun k => by
    apply BitVec.eq_of_toInt_eq
    rw [BitVec.toInt_ofInt, BitVec.toInt_ofInt]
    exact Int.emod_bmod k (2 ^ 64)
  simp only [State.raise, reported, hofInt]

theorem isIllegal_of_not_isCommandWord {w : CmdWord} (h : ¬ IsCommandWord w) : IsIllegal w := by
  intro s
  obtain ⟨why, hw⟩ := exists_decode_eq_illegal h
  rw [runCommand, hw, ← raise_eq_reported]

/-! ### The statements of 30_encoding.md -/

/-- Settles O2: the fields of a well-formed command are its spelling, and the decoder reads it back from them. -/
theorem decodeOfEncodeIsTheCommand : Obligations.DecodeOfEncodeIsTheCommand := by
  intro i hi
  obtain ⟨u, hu, hz⟩ := encodeFields_unusedZero i
  refine ⟨?_, decode_eq_command_iff.mpr ⟨u, ?_⟩⟩
  · rw [encode, packFields_toNat_eq_number, numbers_encodeFields hi]
  · rw [fieldsOf_encode]
    exact ⟨hu, hz, commandOf_encodeFields hi⟩

/-- Settles O3: the decoded command is encoded by the word's own fields. -/
theorem encodeOfDecodeIsTheWord : Obligations.EncodeOfDecodeIsTheWord := by
  intro w i h
  obtain ⟨u, hu, hz, hc⟩ := decode_eq_command_iff.mp h
  obtain ⟨hfields, hwf⟩ := encodeFields_of_commandOf _ u i hu hz hc
  exact ⟨by rw [encode, hfields, packFields_fieldsOf], hwf⟩

/-- Settles O4: each side says that the opcode is in the map, its unused fields are zero and its used ones legal. -/
theorem decoderAcceptsExactlyTheOpcodeMap : Obligations.DecoderAcceptsExactlyTheOpcodeMap :=
  exists_decode_eq_command_iff

/-- Settles O5: a row fixes OPC, and no two rows have one; the decoder has one outcome. -/
theorem opcodeRowsNeverOverlap : Obligations.OpcodeRowsNeverOverlap := by
  refine ⟨?_, fun w => ?_⟩
  · have hopc : opcValues.Pairwise (· ≠ ·) := by decide
    rw [opcodeMap_eq]
    refine hopc.filterMap _ fun o o' hne row hrow row' hrow' w ⟨hw, hw'⟩ => ?_
    obtain ⟨u, -, rfl⟩ := Option.map_eq_some_iff.mp hrow
    obtain ⟨u', -, rfl⟩ := Option.map_eq_some_iff.mp hrow'
    exact hne ((opc_of_matches hw).symm.trans (opc_of_matches hw'))
  · by_cases h : IsCommandWord w
    · obtain ⟨i, hi⟩ := (exists_decode_eq_command_iff w).mpr h
      exact .inl ⟨i, hi, h⟩
    · obtain ⟨why, hw⟩ := exists_decode_eq_illegal h
      exact .inr ⟨why, hw, h⟩

/-- Settles O6: such a word decodes to no command, and a write to CMD runs its low 32 bits. -/
theorem otherWordsRaiseIllegalCommand : Obligations.OtherWordsRaiseIllegalCommand := by
  refine ⟨fun w s h => isIllegal_of_not_isCommandWord h s, fun s data rest h hp => ?_⟩
  rw [BitVec.ofNat_toNat] at h
  rw [step_of_cmdWrite hp, isIllegal_of_not_isCommandWord h, BitVec.toNat_setWidth]

/-- Settles O1: each word by evaluation. -/
theorem wordsOfTheTestVectorsDecode : Obligations.WordsOfTheTestVectorsDecode := by
  unfold Obligations.WordsOfTheTestVectorsDecode
  decide

end Sys2Proof

/-! The bit-group commands (40_bitgroup.md). The statements are written in numbers and the meanings on 64-bit words, so each
proof has two parts. `next_setRes`, `next_setGroup` and `next_setGroupValue` carry an equation of numbers to the state a
command ends in, and `indexCheck_eq`, `rangeCheck_eq` and `countCheck_eq` add the error reports of the checks R72, R73 and
R95. What then remains of a command is what its operation on words does to numbers. The laws of R102 are stated on groups
first. -/

namespace Sys2Proof.Machine

open Sys2Proof.Spec

/-! ### The spec's numbers of a group register -/

theorem opc_eq (i : Instr) : opc i = (encodeFields i).opc.toNat := by
  rw [opc, ← fieldsOf_opc_toNat, fieldsOf_encode]

theorem bitsOf_eq (w : Width) : bitsOf w = widthBits w := by cases w <;> rfl

theorem width_eq (s : State) (r : GroupReg) : width s r = (s.group r).bits := bitsOf_eq _

theorem octets_eq (s : State) (r : GroupReg) : octets s r = (s.group r).octets := by
  have h : (s.group r).bits = 8 * (s.group r).octets := widthBits_eq _
  rw [octets, width_eq, h, Nat.mul_div_cancel_left _ (by decide)]

theorem octetShift_eq (s : State) (r : GroupReg) (i : Nat) : octetShift s r i = (s.group r).octetShift i := by
  rw [octetShift, Group.octetShift, width_eq, octets_eq]
  cases (s.group r).endian <;> rfl

theorem octet_eq (s : State) (r : GroupReg) (i : Nat) : octet s r i = ((s.group r).octet i).toNat := by
  rw [octet, octetShift_eq, Group.octet_toNat, value]

theorem withOctet_eq (s : State) (r : GroupReg) (i : Nat) (b : Byte) :
    withOctet s r i b.toNat = ((s.group r).withOctet i b).toNat := by
  rw [withOctet, width_eq, octetShift_eq, Group.withOctet_toNat, value]

/-- A word whose restricted fields hold a reserved value is IllegalCommand (30_encoding.md R56). -/
theorem isIllegal_of_not_restrictedLegal {w : CmdWord} (h : ¬ RestrictedLegal w) : IsIllegal w :=
  isIllegal_of_not_isCommandWord fun ⟨_, hw⟩ => h hw

/-! ### The state a command ends in, by the number it writes -/

theorem next_setRes {s : State} {v : Word} {n : Nat} (h : v.toNat = n) :
    (.next (s.setRes v).succeed : Host.Outcome State Fault Refusal) =
      .next (succeeded { s with res := BitVec.ofNat 64 n }) := by
  rw [← h, BitVec.ofNat_toNat, BitVec.setWidth_eq]
  rfl

theorem next_setGroup {s : State} {r : GroupReg} {g : Group} {n : Nat} (h : g.value.toNat = n) :
    (.next (s.setGroup r g).succeed : Host.Outcome State Fault Refusal) =
      .next (succeeded { s with groups := s.groups.set r { g with value := BitVec.ofNat 64 n } }) := by
  rw [← h, BitVec.ofNat_toNat, BitVec.setWidth_eq]
  rfl

theorem next_setGroupValue {s : State} {r : GroupReg} {v : Word} {n : Nat} (h : v.toNat = n) :
    (.next (s.setGroupValue r v).succeed : Host.Outcome State Fault Refusal) = .next (succeeded (withValue s r n)) :=
  next_setGroup (g := { s.group r with value := v }) h

/-- A command that checks an index (R72). -/
theorem indexCheck_eq {s : State} {i n : Nat} {o o' : Host.Outcome State Fault Refusal} (h : i < n → o = o') :
    (i < n → (if i < n then o else .next (s.raiseIndex i n)) = o') ∧
      (n ≤ i → (if i < n then o else .next (s.raiseIndex i n)) = .next (reported s .indexOutOfBounds i 0 (n - 1))) := by
  refine ⟨fun hi => by rw [if_pos hi, h hi], fun hi => ?_⟩
  rw [if_neg hi.not_gt, State.raiseIndex, raise_eq_reported]

theorem rangeLegal_iff {w first last : Nat} : rangeLegal w first last = true ↔ first ≤ last ∧ last < w := by
  simp [rangeLegal]

/-- A command that checks a range (R73). -/
theorem rangeCheck_eq {s : State} {a b w : Nat} {o o' : Host.Outcome State Fault Refusal}
    (h : a ≤ b → b < w → o = o') :
    (a ≤ b ∧ b < w → (if rangeLegal w a b then o else .next (s.raiseRange a b w)) = o') ∧
      (¬ (a ≤ b ∧ b < w) →
        (if rangeLegal w a b then o else .next (s.raiseRange a b w)) =
          .next (reported s .indexRangeOutOfBounds a b (w - 1))) := by
  refine ⟨fun ⟨hab, hb⟩ => by rw [if_pos (rangeLegal_iff.mpr ⟨hab, hb⟩), h hab hb], fun hr => ?_⟩
  rw [if_neg (mt rangeLegal_iff.mp hr), State.raiseRange, raise_eq_reported]

/-- A command that checks a shift count (R95, R96). -/
theorem countCheck_eq {s : State} {k w : Nat} {o o' : Host.Outcome State Fault Refusal} (h : k ≤ w → o = o') :
    (k ≤ w → (if k ≤ w then o else .next (s.raiseCount k w)) = o') ∧
      (w < k → (if k ≤ w then o else .next (s.raiseCount k w)) = .next (reported s .countOutOfBounds k 0 w)) := by
  refine ⟨fun hk => by rw [if_pos hk, h hk], fun hk => ?_⟩
  rw [if_neg hk.not_ge, State.raiseCount, raise_eq_reported]

/-! ### The operations on words as numbers -/

/-- SETB's value (R81). -/
theorem Group.setBit_toNat (g : Group) (i : Nat) (b : Bool) (h : i < g.bits) :
    ((g.value &&& complementWithin g.mask (1#64 <<< i)) ||| ((BitVec.ofBool b).setWidth 64 <<< i)).toNat =
      (g.value.toNat &&& (2 ^ g.bits - 1 - 1 <<< i)) ||| (b.toNat <<< i) := by
  have h64 : i < 64 := h.trans_le (widthBits_le _)
  have hone := oneShift_toNat i h64
  have hlt : (1#64 <<< i).toNat < 2 ^ g.bits := by
    rw [hone, Nat.one_shiftLeft]
    exact Nat.pow_lt_pow_right (by decide) h
  have hbit : ((BitVec.ofBool b).setWidth 64 <<< i : Word).toNat = b.toNat <<< i := by
    cases b
    · simp
    · exact hone
  rw [BitVec.toNat_or, BitVec.toNat_and, Group.mask, complementWithin_toNat_of_le _ _ hlt, hone, hbit, Group.bits]

/-- FLIP's value (R82). -/
theorem flipBit_toNat (v : Word) (i : Nat) (h : i < 64) : (v ^^^ (1#64 <<< i)).toNat = v.toNat ^^^ (1 <<< i) := by
  rw [BitVec.toNat_xor, oneShift_toNat i h]

/-- SHL's value (R95). -/
theorem shiftLeft_and_widthMask_toNat (v : Word) (k : Nat) (w : Width) :
    ((v <<< k) &&& widthMask w).toNat = v.toNat * 2 ^ k % 2 ^ widthBits w := by
  rw [and_widthMask_toNat, BitVec.toNat_shiftLeft, Nat.shiftLeft_eq, mod_widthBits]

/-- SHR's value (R96). -/
theorem shiftRight_toNat (v : Word) (k : Nat) : (v >>> k).toNat = v.toNat / 2 ^ k := by
  rw [BitVec.toNat_ushiftRight, Nat.shiftRight_eq_div_pow]

/-- INC's value (R100). -/
theorem inc_and_widthMask_toNat (v : Word) (w : Width) :
    ((v + 1#64) &&& widthMask w).toNat = (v.toNat + 1) % 2 ^ widthBits w := by
  rw [and_widthMask_toNat, BitVec.toNat_add, mod_widthBits]
  rfl

theorem byte_setWidth_toNat (b : Byte) : (b.setWidth 64).toNat = b.toNat := BitVec.toNat_setWidth_of_le (by decide)

/-! ### The octets at the two ends (R89, R90) -/

/-- The octet whose index is the mirror of a position lies at that position (R71). -/
theorem Group.octetShift_octetPosition (g : Group) (p : Nat) (h : p < g.octets) :
    g.octetShift (octetPosition g.octets g.endian p) = 8 * (g.octets - 1 - p) := by
  rw [g.octetShift_eq _ (octetPosition_lt _ _ _ h), octetPosition_octetPosition _ _ _ h]

theorem exec_mso (gs : GroupReg) (s : State) :
    exec (.mso gs) s = .next (s.setRes (((s.group gs).octet
      (octetPosition (s.group gs).octets (s.group gs).endian 0)).setWidth 64)).succeed := by
  simp only [exec, execMso, octetPosition]
  cases (s.group gs).endian <;> rfl

theorem exec_lso (gs : GroupReg) (s : State) :
    exec (.lso gs) s = .next (s.setRes (((s.group gs).octet
      (octetPosition (s.group gs).octets (s.group gs).endian ((s.group gs).octets - 1))).setWidth 64)).succeed := by
  simp only [exec, execLso, octetPosition]
  cases (s.group gs).endian
  · rfl
  · simp only [Nat.sub_self]

/-- The octet at position 0 is the value without its lower octets. -/
theorem Group.octet_first_toNat (g : Group) (h : g.value.toNat < 2 ^ g.bits) :
    (g.octet (octetPosition g.octets g.endian 0)).toNat = g.value.toNat >>> (g.bits - 8) := by
  have hbits : g.bits = 8 * g.octets := widthBits_eq _
  have hpos : 1 ≤ g.octets := widthOctets_pos _
  rw [Group.octet_toNat, g.octetShift_octetPosition 0 hpos, show 8 * (g.octets - 1 - 0) = g.bits - 8 by omega]
  refine Nat.and_two_pow_sub_one_of_lt_two_pow (n := 8) ?_
  rw [Nat.shiftRight_eq_div_pow]
  refine Nat.div_lt_of_lt_mul ?_
  rwa [← Nat.pow_add, show g.bits - 8 + 8 = g.bits by omega]

/-- The octet at the last position is the value's low octet. -/
theorem Group.octet_last_toNat (g : Group) :
    (g.octet (octetPosition g.octets g.endian (g.octets - 1))).toNat = g.value.toNat &&& 0xFF := by
  have hpos : 1 ≤ g.octets := widthOctets_pos _
  rw [Group.octet_toNat, g.octetShift_octetPosition _ (by omega), Nat.sub_self, Nat.mul_zero, Nat.shiftRight_zero]

/-! ### The bits of a range write (R74) -/

theorem maskBits_getLsbD {k : Nat} (hk : k ≤ 64) (n : Nat) : (maskBits k).getLsbD n = decide (n < k) := by
  rw [← BitVec.testBit_toNat, maskBits_toNat k hk, Nat.testBit_two_pow_sub_one]

theorem invRegion_getLsbD {first last : Nat} (h : first ≤ last) (hl : last < 64) (n : Nat) :
    (invRegion first last).getLsbD n = decide (first ≤ n ∧ n ≤ last) := by
  rw [invRegion, BitVec.getLsbD_shiftLeft, maskBits_getLsbD (by omega), Bool.eq_iff_iff]
  simp only [Bool.and_eq_true, Bool.not_eq_true', decide_eq_true_eq, decide_eq_false_iff_not]
  omega

/-- A range write puts the input's low bits in the range and keeps the group's bits outside it. -/
theorem setRange_getLsbD (w : Width) (v x : Word) {first last : Nat} (h : first ≤ last) (hl : last < widthBits w)
    (n : Nat) :
    (setRange (widthMask w) v first last x).getLsbD n =
      if first ≤ n ∧ n ≤ last then x.getLsbD (n - first) else v.getLsbD n && decide (n < widthBits w) := by
  have h64 := widthBits_le w
  simp only [setRange, region, complementWithin, BitVec.getLsbD_or, BitVec.getLsbD_and, BitVec.getLsbD_not,
    BitVec.getLsbD_shiftLeft, invRegion_getLsbD h (show last < 64 by omega), widthMask_getLsbD,
    maskBits_getLsbD (show last - first + 1 ≤ 64 by omega)]
  by_cases hin : first ≤ n ∧ n ≤ last
  · have h1 : n < 64 := by omega
    have h2 : ¬ n < first := by omega
    have h3 : n - first < last - first + 1 := by omega
    simp [hin, h1, h2, h3]
  · by_cases hw : n < widthBits w
    · have h1 : n < 64 := by omega
      have h2 : n < first ∨ ¬ n - first < last - first + 1 := by omega
      rcases h2 with h2 | h2 <;> simp [hin, hw, h1, h2]
    · have h1 : ¬ n - first < last - first + 1 := by omega
      simp [hin, hw, h1]

/-- A range write keeps every bit outside the range of a value that fits. -/
theorem setRange_getLsbD_outside (w : Width) {v : Word} (x : Word) {first last n : Nat} (h : first ≤ last)
    (hl : last < widthBits w) (hv : v.toNat < 2 ^ widthBits w) (hn : n < first ∨ last < n) :
    (setRange (widthMask w) v first last x).getLsbD n = v.getLsbD n := by
  rw [setRange_getLsbD w v x h hl, if_neg (by omega)]
  by_cases hw : n < widthBits w
  · simp [hw]
  · rw [← BitVec.testBit_toNat,
      Nat.testBit_lt_two_pow (hv.trans_le (Nat.pow_le_pow_right (by decide) (not_lt.mp hw))), Bool.false_and]

/-- A range read after a range write gives the input, where it fits the range (R102 item 1). -/
theorem getRange_setRange (w : Width) (v x : Word) {first last : Nat} (h : first ≤ last) (hl : last < widthBits w)
    (hx : x.toNat < 2 ^ (last - first + 1)) : getRange (setRange (widthMask w) v first last x) first last = x := by
  have h64 := widthBits_le w
  apply BitVec.eq_of_toNat_eq
  rw [getRange_toNat _ _ _ h (by omega)]
  refine Nat.eq_of_testBit_eq fun n => ?_
  rw [Nat.testBit_mod_two_pow, Nat.testBit_div_two_pow, BitVec.testBit_toNat, setRange_getLsbD w v x h hl]
  by_cases hn : n < last - first + 1
  · rw [if_pos (by omega), Nat.add_sub_cancel, BitVec.testBit_toNat]
    simp [hn]
  · rw [Nat.testBit_lt_two_pow (hx.trans_le (Nat.pow_le_pow_right (by decide) (by omega)))]
    simp [hn]

/-! ### TWOS and REVO as operations on a group (R94, R92) -/

/-- The group TWOS gives. -/
def Group.negated (g : Group) : Group := { g with value := (complementWithin g.mask g.value + 1#64) &&& g.mask }

theorem Group.negated_toNat (g : Group) (h : g.value.toNat < 2 ^ g.bits) :
    g.negated.value.toNat = ((2 ^ g.bits - 1 - g.value.toNat) + 1) % 2 ^ g.bits := by
  rw [Group.negated, Group.mask, inc_and_widthMask_toNat, complementWithin_toNat_of_le _ _ h, Group.bits]

/-- Two's complement twice is the number itself. -/
theorem twosComplement_twosComplement {m v : Nat} (h : v < m) : ((m - 1 - (m - 1 - v + 1) % m) + 1) % m = v := by
  rcases Nat.eq_zero_or_pos v with rfl | hv
  · rw [show m - 1 - 0 + 1 = m by omega, Nat.mod_self, show m - 1 - 0 + 1 = m by omega, Nat.mod_self]
  · rw [Nat.mod_eq_of_lt (show m - 1 - v + 1 < m by omega), show m - 1 - (m - 1 - v + 1) + 1 = v by omega,
      Nat.mod_eq_of_lt h]

theorem Group.negated_negated (g : Group) (h : g.value.toNat < 2 ^ g.bits) : g.negated.negated = g := by
  have hbits : g.negated.bits = g.bits := rfl
  have hlt : g.negated.value.toNat < 2 ^ g.negated.bits := by
    rw [g.negated_toNat h]
    exact Nat.mod_lt _ (Nat.two_pow_pos _)
  have hvalue : g.negated.negated.value = g.value := by
    apply BitVec.eq_of_toNat_eq
    rw [Group.negated_toNat _ hlt, g.negated_toNat h, hbits, twosComplement_twosComplement h]
  exact Group.mk.injEq .. ▸ ⟨hvalue, rfl, rfl⟩

/-- REVO's group differs from the source in its value alone. -/
theorem Group.with_reversed_value (g : Group) : { g with value := g.reversed.value } = g.reversed :=
  Group.mk.injEq .. ▸ ⟨rfl, g.reversed_wcode.symm, g.reversed_endian.symm⟩

theorem Group.reversed_reversed_eq (g : Group) (h : g.value.toNat < 2 ^ g.bits) : g.reversed.reversed = g :=
  Group.mk.injEq .. ▸ ⟨g.reversed_reversed h, g.reversed.reversed_wcode.trans g.reversed_wcode,
    g.reversed.reversed_endian.trans g.reversed_endian⟩

theorem exec_twos (gd gs : GroupReg) (s : State) :
    exec (.twos gd gs) s = .next (s.setGroup gd (s.group gs).negated).succeed := rfl

theorem exec_revo (gd : GroupReg) (s : State) :
    exec (.revo gd) s = .next (s.setGroup gd (s.group gd).reversed).succeed := by
  rw [← Group.with_reversed_value]
  rfl

theorem exec_revc (gd gs : GroupReg) (s : State) :
    exec (.revc gd gs) s = .next (s.setGroup gd (s.group gs).reversed).succeed := by
  rw [← Group.with_reversed_value]
  rfl

/-- Two commands that write f of a group to H: the first from G, the second from H itself. -/
theorem group_after_two_commands {i j : Instr} {g h : GroupReg} (f : Group → Group)
    (hi : ∀ s, exec i s = .next (s.setGroup h (f (s.group g))).succeed)
    (hj : ∀ s, exec j s = .next (s.setGroup h (f (s.group h))).succeed) (s : State) :
    ∃ t u, exec i s = .next t ∧ exec j t = .next u ∧ u.group h = f (f (s.group g)) := by
  refine ⟨_, _, hi s, hj _, ?_⟩
  simp [State.group]

/-! ### The statements of 40_bitgroup.md -/

/-- Settles O27: masking to a width is the remainder by 2^W, and the reserved field values are those of R56. -/
theorem loadMasksTheSource : Obligations.LoadMasksTheSource := by
  refine ⟨fun w hopc hbad => ?_, fun gd w e s src => ⟨opc_eq _, ?_⟩⟩
  · refine isIllegal_of_not_restrictedLegal fun ⟨hload, _⟩ => ?_
    obtain ⟨hwidth, hsource⟩ := hload hopc
    unfold wordF wordB at hbad
    omega
  · refine next_setGroup (g := ⟨s.loadSource src &&& widthMask w, w, e⟩) ?_
    rw [and_widthMask_toNat, bitsOf_eq]
    cases src <;> rfl

/-- Settles O28: a write to one group register keeps the others. -/
theorem copyCopiesTheGroup : Obligations.CopyCopiesTheGroup :=
  fun _ _ _ => ⟨opc_eq _, rfl, fun _ => Groups.get_set _ _ _ _⟩

/-- Settles O29: `getRange` is the value divided by 2^A, modulo 2 to the range's width. -/
theorem extrExtractsTheRange : Obligations.ExtrExtractsTheRange := by
  intro gd gs a b s
  rw [width_eq]
  refine ⟨opc_eq _, rangeCheck_eq fun hab hb => next_setGroup (getRange_toNat _ _ _ hab ?_)⟩
  exact hb.trans_le (widthBits_le _)

/-- Settles O30: `bitAt` shifts the value, and the check is R72's. -/
theorem getbReadsTheBit : Obligations.GetbReadsTheBit := by
  intro gs a s
  rw [width_eq]
  exact ⟨opc_eq _, indexCheck_eq fun _ => next_setRes (bitAt_toNat _ _)⟩

/-- Settles O31: one bit is cleared under the mask and set again; B above 1 is a reserved value of R56. -/
theorem setbWritesTheBit : Obligations.SetbWritesTheBit := by
  refine ⟨fun w hopc hbad => isIllegal_of_not_restrictedLegal fun ⟨_, hsetb, _⟩ => ?_, fun gd a bit s => ?_⟩
  · exact absurd (hsetb hopc) hbad.not_ge
  · rw [width_eq]
    exact ⟨opc_eq _, indexCheck_eq fun ha => next_setGroupValue (Group.setBit_toNat _ _ _ ha)⟩

/-- Settles O32: the bit RES gets is read from the value already written. -/
theorem flipTogglesTheBit : Obligations.FlipTogglesTheBit := by
  intro gd a s
  rw [width_eq]
  refine ⟨opc_eq _, indexCheck_eq fun ha => ?_⟩
  have hflip := flipBit_toNat (s.group gd).value a (ha.trans_le (widthBits_le _))
  have hbit := bitAt_toNat ((s.group gd).value ^^^ (1#64 <<< a)) a
  rw [hflip] at hbit
  refine (next_setRes hbit).trans ?_
  rw [withValue, value, ← hflip, BitVec.ofNat_toNat, BitVec.setWidth_eq]
  rfl

/-- Settles O33: both are `bitAt`, at W - 1 and at 0. -/
theorem msbAndLsbReadTheEndBits : Obligations.MsbAndLsbReadTheEndBits := by
  intro gs s
  rw [width_eq]
  exact ⟨opc_eq _, opc_eq _, next_setRes (bitAt_toNat _ _), next_setRes (bitAt_toNat _ 0)⟩

/-- Settles O34: `getRange` is the value divided by 2^A, modulo 2 to the range's width. -/
theorem getrReadsTheRange : Obligations.GetrReadsTheRange := by
  intro gs a b s
  rw [width_eq]
  refine ⟨opc_eq _, rangeCheck_eq fun hab hb => next_setRes (getRange_toNat _ _ _ hab ?_)⟩
  exact hb.trans_le (widthBits_le _)

/-- Settles O35: `setRange` masks its input before it shifts it (R74). -/
theorem setrWritesTheRange : Obligations.SetrWritesTheRange := by
  intro gd a b s
  rw [width_eq]
  exact ⟨opc_eq _, rangeCheck_eq fun hab hb => next_setGroupValue (setRange_toNat _ _ _ _ _ hab hb)⟩

/-- Settles O36: the octet of R71 is the model's, and the check is R72's. -/
theorem getoReadsTheOctet : Obligations.GetoReadsTheOctet := by
  intro gs a s
  rw [octets_eq, octet_eq]
  exact ⟨opc_eq _, indexCheck_eq fun _ => next_setRes (byte_setWidth_toNat _)⟩

/-- Settles O37: with_octet of R71 is the model's, and the check is R72's. -/
theorem setoWritesTheOctet : Obligations.SetoWritesTheOctet := by
  intro gd a b s
  rw [octets_eq, withOctet_eq]
  exact ⟨opc_eq _, indexCheck_eq fun _ => next_setGroupValue rfl⟩

/-- Settles O38: position 0 and the last position are the two ends of the value, whatever the tag. -/
theorem msoAndLsoReadTheEndOctets : Obligations.MsoAndLsoReadTheEndOctets := by
  intro gs s hfits
  rw [Fits, width_eq] at hfits
  rw [width_eq, exec_mso, exec_lso]
  refine ⟨opc_eq _, opc_eq _, next_setRes ?_, next_setRes ?_⟩
  · exact (byte_setWidth_toNat _).trans (Group.octet_first_toNat _ hfits)
  · exact (byte_setWidth_toNat _).trans (Group.octet_last_toNat _)

/-- Settles O39: the bytes written to OBUF are the octets in index order, and no others. -/
theorem tobytesWritesTheOctets : Obligations.TobytesWritesTheOctets := by
  intro gs s
  rw [octets_eq]
  refine ⟨opc_eq _, (s.putBytes (s.group gs).octetList).obuf, ?_, fun a => ?_⟩
  · show Host.Outcome.next (s.putBytes (s.group gs).octetList).succeed = _
    rw [State.putBytes_eq, Group.octetList_length]
    rfl
  · rw [State.putBytes_read, Group.octetList_length, octet_eq, BitVec.ofNat_toNat, BitVec.setWidth_eq]
    split
    case isTrue ha => simp [Group.octetList, ha]
    case isFalse => rfl

/-- Settles O40: the digits of REVO's value to the base 256 are the old ones, mirrored. -/
theorem revoAndRevcReverseTheOctets : Obligations.RevoAndRevcReverseTheOctets := by
  intro gd gs s
  simp only [Fits, width_eq, octets_eq]
  exact ⟨opc_eq _, opc_eq _, fun hfits => next_setGroupValue (Group.reversed_toNat _ hfits),
    fun hfits => next_setGroup (g := { s.group gs with value := (s.group gs).reversed.value })
      (Group.reversed_toNat _ hfits)⟩

/-- Settles O41: the complement of a value that fits is mask(W) - value, and masking the sum wraps it. -/
theorem twosNegatesWithinTheWidth : Obligations.TwosNegatesWithinTheWidth := by
  intro gd gs s hfits
  rw [Fits, width_eq] at hfits
  rw [width_eq, exec_twos]
  exact ⟨opc_eq _, next_setGroup (Group.negated_toNat _ hfits)⟩

/-- Settles O42: masking after the shift is the remainder by 2^W, so no case of R75 stands apart. -/
theorem shlAndShrShiftWithinTheWidth : Obligations.ShlAndShrShiftWithinTheWidth := by
  intro gd a s
  rw [width_eq]
  obtain ⟨hshl, hshlCount⟩ := countCheck_eq (s := s) (k := a) (w := (s.group gd).bits) fun _ =>
    next_setGroupValue (r := gd) (shiftLeft_and_widthMask_toNat (s.group gd).value a (s.group gd).wcode)
  obtain ⟨hshr, hshrCount⟩ := countCheck_eq (s := s) (k := a) (w := (s.group gd).bits) fun _ =>
    next_setGroupValue (r := gd) (shiftRight_toNat (s.group gd).value a)
  exact ⟨opc_eq _, opc_eq _, fun ha => ⟨hshl ha, hshr ha⟩, fun ha => ⟨hshlCount ha, hshrCount ha⟩⟩

/-- Settles O43: the mask of Gd's width is the remainder by 2^W, whatever the width of Gs. -/
theorem andAndOrCombineTheValues : Obligations.AndAndOrCombineTheValues := by
  intro gd gs s
  rw [width_eq]
  exact ⟨opc_eq _, opc_eq _, next_setGroupValue (and_widthMask_toNat _ _), next_setGroupValue
    ((and_widthMask_toNat _ _).trans (by rw [BitVec.toNat_or]; rfl))⟩

/-- Settles O44: each operation within the width, for a value that fits. -/
theorem notIncAndFmask : Obligations.NotIncAndFmask := by
  intro gd s hfits
  rw [Fits, width_eq] at hfits
  rw [width_eq]
  exact ⟨opc_eq _, opc_eq _, opc_eq _, next_setGroupValue (complementWithin_toNat_of_le _ _ hfits),
    next_setGroupValue (inc_and_widthMask_toNat _ _), next_setGroupValue (widthMask_toNat _)⟩

/-- Settles O54: SETR writes `setRange`, which `getRange` reads back, and whose bits outside the range are the old ones. -/
theorem setrThenGetrReturnsTheValue : Obligations.SetrThenGetrReturnsTheValue := by
  intro gd a b s t hfits hab hb harg hexec
  rw [Fits, width_eq] at hfits
  rw [width_eq] at hb
  have hlegal : rangeLegal (s.group gd).bits a b = true := rangeLegal_iff.mpr ⟨hab, hb⟩
  have hsetr : exec (.setr gd a b) s =
      .next (s.setGroupValue gd (setRange (s.group gd).mask (s.group gd).value a b s.arg0)).succeed := if_pos hlegal
  have hgroup : t.group gd =
      { s.group gd with value := setRange (s.group gd).mask (s.group gd).value a b s.arg0 } := by
    obtain rfl := Host.Outcome.next.inj (hsetr.symm.trans hexec)
    exact Groups.get_set_same _ _ _
  have hgetr : exec (.getr gd a b) t = .next (t.setRes (getRange (t.group gd).value a b)).succeed :=
    if_pos (by rw [hgroup]; exact hlegal)
  refine ⟨⟨_, hgetr, ?_⟩, fun k hk => ?_⟩
  · show getRange (t.group gd).value a b = s.arg0
    rw [hgroup]
    exact getRange_setRange _ _ _ hab hb harg
  · rw [value, value, hgroup, BitVec.testBit_toNat, BitVec.testBit_toNat]
    exact setRange_getLsbD_outside _ _ hab hb hfits hk

/-- Settles O55: TWOS and REVO are involutions on groups that fit, and each command applies its one to a register. -/
theorem twosAndRevoAreInvolutions : Obligations.TwosAndRevoAreInvolutions := by
  intro g h s hfits
  rw [Fits, width_eq] at hfits
  have hneg := Group.negated_negated _ hfits
  have hrev := Group.reversed_reversed_eq _ hfits
  refine ⟨?_, ?_, ?_⟩
  · exact hneg ▸ group_after_two_commands Group.negated (exec_twos g g) (exec_twos g g) s
  · exact hrev ▸ group_after_two_commands Group.reversed (exec_revo g) (exec_revo g) s
  · exact hrev ▸ group_after_two_commands Group.reversed (exec_revc h g) (exec_revc h h) s

end Sys2Proof.Machine

/-! The bit-stream reader (41_reader.md). READ and SUBRD share their checks and their bits, so each way they end is said once
for both. RDBYTES is `rdbytesLoop_spec` in the statements' words. The round trips (R110, R111) rest on `State.HoldsNumber`: over
the m bytes of a number x in its own endianness, the reader sees the bits of x from the most significant one of 8m down. -/

namespace Sys2Proof.Machine

open Sys2Proof.Spec

/-! ### The statements' numbers and the model's -/

theorem byteIndex_eq (s : State) (k : Nat) : Spec.byteIndex s k = byteIndex s.rdLen.toNat s.rdEnd k := by
  unfold Spec.byteIndex byteIndex
  cases s.rdEnd <;> simp [Nat.shiftRight_eq_div_pow]

theorem logicalBit_eq (s : State) (k : Nat) : logicalBit s k = s.bitValue k := by
  rw [logicalBit, byteIndex_eq, Nat.and_one_is_mod, Nat.shiftRight_eq_div_pow, Nat.and_two_pow_sub_one_eq_mod k 3]
  rfl

theorem bitsFrom_eq (s : State) (k n : Nat) : bitsFrom s k n = s.bitsValue k n := by
  simp only [bitsFrom, logicalBit_eq, s.bitsValue_eq_sum]

theorem sext32_toNat (v : BitVec 32) : sext32 v.toNat = v.toInt := by
  rw [sext32, BitVec.toInt_eq_toNat_cond]
  split <;> split <;> omega

theorem sext64_toNat (v : Word) : sext64 v.toNat = v.toInt := by
  rw [sext64, BitVec.toInt_eq_toNat_cond]
  split <;> split <;> omega

theorem State.arg1Low_toNat (s : State) : s.arg1Low.toNat = Spec.arg1Low s := by
  simp [State.arg1Low, Spec.arg1Low]

/-! ### How READ and SUBRD end -/

theorem State.streamBits_of_bitsReadable {s : State} {n : Nat} (h : BitsReadable s (nextBit s) n) :
    s.streamBits n = .ok (bitsFrom s (nextBit s) n) := by
  rw [bitsFrom_eq]
  exact s.logicalBits_of_readable _ _ ((bitsReadable_iff s _ n).mp h)

theorem State.bitCountError_eq_none {s : State} {n : Nat} (hcount : 1 ≤ n ∧ n ≤ 64)
    (hbounds : (cur s : Int) + n ≤ Spec.total s) : s.bitCountError n = none := by
  rw [State.bitCountError, if_neg (by omega), if_neg (show ¬ s.rdTotal < s.rdCur.toNat + n from not_lt.mpr hbounds)]

theorem exec_read_subrd_of_bitCountError {s t : State} {n : Nat} (e : Endian) (h : s.bitCountError n = some t) :
    exec (.read n) s = .next t ∧ exec (.subrd n e) s = .next t := by
  simp only [exec, execRead, execSubrd, h, and_self]

/-- The count is checked first (R107). -/
theorem exec_read_subrd_of_count {s : State} {n : Nat} (e : Endian) (hcount : n < 1 ∨ 64 < n) :
    exec (.read n) s = .next (reported s .invalidBitCount n 1 64) ∧
      exec (.subrd n e) s = .next (reported s .invalidBitCount n 1 64) := by
  rw [← raise_eq_reported]
  exact exec_read_subrd_of_bitCountError e (if_pos hcount)

/-- The bounds are checked second (R107). -/
theorem exec_read_subrd_of_bounds {s : State} {n : Nat} (e : Endian) (hcount : 1 ≤ n ∧ n ≤ 64)
    (hbounds : Spec.total s < (cur s : Int) + n) :
    exec (.read n) s = .next (reported s .bitsCountOutOfBounds (cur s) n (Spec.total s)) ∧
      exec (.subrd n e) s = .next (reported s .bitsCountOutOfBounds (cur s) n (Spec.total s)) := by
  rw [← raise_eq_reported]
  exact exec_read_subrd_of_bitCountError e ((if_neg (by omega)).trans (if_pos hbounds))

section
variable {s : State} {n : Nat} (hcount : 1 ≤ n ∧ n ≤ 64) (hbounds : (cur s : Int) + n ≤ Spec.total s)
  (hread : BitsReadable s (nextBit s) n)
include hcount hbounds hread

theorem exec_read_of_bitsReadable :
    exec (.read n) s = .next (succeeded { s with
      res := BitVec.ofNat 64 (bitsFrom s (nextBit s) n), rdCur := BitVec.ofNat 64 (cur s + n) }) := by
  simp only [exec, execRead, State.bitCountError_eq_none hcount hbounds, State.streamBits_of_bitsReadable hread,
    State.advance_eq]
  rfl

theorem exec_subrd_of_bitsReadable (e : Endian) :
    exec (.subrd n e) s = .next (succeeded { s with
      obuf := (s.putBytes (numberBytes (octetsFor n) e (bitsFrom s (nextBit s) n))).obuf
      olen := BitVec.ofNat 9 (octetsFor n), res := BitVec.ofNat 64 (8 * octetsFor n - n)
      rdCur := BitVec.ofNat 64 (cur s + n) }) := by
  simp only [exec, execSubrd, State.bitCountError_eq_none hcount hbounds, State.streamBits_of_bitsReadable hread,
    State.advance_eq]
  rw [State.putBytes_eq, numberBytes_length]
  rfl

end

/-! ### The bytes of a number -/

theorem numberBytes_getElem? (m : Nat) (e : Endian) (x : Nat) {j : Nat} (hj : j < m) :
    (numberBytes m e x)[j]? = some (BitVec.ofNat 8 (x / 2 ^ (8 * (m - 1 - octetPosition m e j)))) := by
  simp [numberBytes, hj]

/-- TOBYTES writes the bytes of the group's value in the group's endianness (R91, R110). -/
theorem Group.octetList_eq (g : Group) : g.octetList = numberBytes g.octets g.endian g.value.toNat := by
  refine List.map_congr_left fun j hj => BitVec.eq_of_toNat_eq ?_
  rw [g.octet_eq_digit j (List.mem_range.mp hj), BitVec.toNat_ofNat, Nat.pow_mul]

/-- The reader is over the m bytes of the number x at IBUF[0 ..], in the endianness the bytes are written in. -/
structure State.HoldsNumber (u : State) (m : Nat) (e : Endian) (x : Nat) : Prop where
  len : u.rdLen.toNat = m
  endian : u.rdEnd = e
  inside : m ≤ u.params.ibufBytes
  bytes : ∀ j, j < m → u.ibuf.read j = (numberBytes m e x)[j]?

/-- A reader over bytes the host copied from OBUF, where a command had put the bytes of a number. -/
theorem State.HoldsNumber.of_putBytes {s t u : State} {m : Nat} {e : Endian} {x : Nat} (hlen : u.rdLen.toNat = m)
    (hend : u.rdEnd = e) (hin : m ≤ u.params.ibufBytes) (hcopy : ∀ j, j < m → u.ibuf.read j = t.obuf.read j)
    (ht : t.obuf = (s.putBytes (numberBytes m e x)).obuf) : u.HoldsNumber m e x where
  len := hlen
  endian := hend
  inside := hin
  bytes j hj := by rw [hcopy j hj, ht, State.putBytes_read, numberBytes_length, if_pos hj]

section
variable {u : State} {m : Nat} {e : Endian} {x : Nat} (h : u.HoldsNumber m e x)
include h

/-- The octet that logical bit k lies in is the one at position k / 8 of the number (R71, R103). -/
theorem State.HoldsNumber.read_byteIndex {k : Nat} (hk : k < 8 * m) :
    u.ibuf.read (byteIndex u.rdLen.toNat u.rdEnd k) = some (BitVec.ofNat 8 (x / 2 ^ (8 * (m - 1 - k / 8)))) := by
  have hindex : byteIndex m e k = octetPosition m e (k / 8) := by cases e <;> rfl
  have hpos : k / 8 < m := by omega
  rw [h.len, h.endian, hindex, h.bytes _ (octetPosition_lt _ _ _ hpos),
    numberBytes_getElem? _ _ _ (octetPosition_lt _ _ _ hpos), octetPosition_octetPosition _ _ _ hpos]

theorem State.HoldsNumber.bitsReadable {k n : Nat} (hk : k + n ≤ 8 * m) : BitsReadable u k n := by
  refine (bitsReadable_iff u k n).mpr fun i hi => ⟨?_, .inl ?_⟩
  · exact (byteIndex_lt _ _ _ (by rw [h.len]; omega)).trans_le (h.len.trans_le h.inside)
  · rw [h.read_byteIndex (by omega)]
    exact Option.some_ne_none _

/-- Logical bit k is bit 8m - 1 - k of the number. -/
theorem State.HoldsNumber.bitValue_eq {k : Nat} (hk : k < 8 * m) : u.bitValue k = x / 2 ^ (8 * m - 1 - k) % 2 := by
  have hbyte : u.ibufContent (byteIndex u.rdLen.toNat u.rdEnd k) = BitVec.ofNat 8 (x / 2 ^ (8 * (m - 1 - k / 8))) := by
    rw [State.ibufContent, h.read_byteIndex hk, Option.getD_some]
  have hr : k % 8 < 8 := Nat.mod_lt _ (by decide)
  have hsplit : 2 ^ 8 = 2 ^ (7 - k % 8) * 2 ^ (k % 8 + 1) := by
    rw [← Nat.pow_add, show 7 - k % 8 + (k % 8 + 1) = 8 by omega]
  calc u.bitValue k
      = x / 2 ^ (8 * (m - 1 - k / 8)) % 2 ^ 8 / 2 ^ (7 - k % 8) % 2 := by rw [State.bitValue, hbyte, BitVec.toNat_ofNat]
    _ = x / 2 ^ (8 * (m - 1 - k / 8)) / 2 ^ (7 - k % 8) % 2 := by
      rw [hsplit, Nat.mod_mul_right_div_self, Nat.mod_mod_of_dvd _ (Dvd.intro_left _ (Nat.pow_succ ..).symm)]
    _ = x / 2 ^ (8 * m - 1 - k) % 2 := by
      rw [Nat.div_div_eq_div_mul, ← Nat.pow_add, show 8 * (m - 1 - k / 8) + (7 - k % 8) = 8 * m - 1 - k by omega]

/-- The n logical bits from bit k on are n consecutive bits of the number. -/
theorem State.HoldsNumber.bitsValue_eq {k n : Nat} (hk : k + n ≤ 8 * m) :
    u.bitsValue k n = x / 2 ^ (8 * m - k - n) % 2 ^ n := by
  induction n with
  | zero => rw [State.bitsValue, Nat.pow_zero, Nat.mod_one]
  | succ n ih =>
    have hshift : x / 2 ^ (8 * m - k - n) = x / 2 ^ (8 * m - k - (n + 1)) / 2 := by
      rw [Nat.div_div_eq_div_mul, ← pow_succ, show 8 * m - k - (n + 1) + 1 = 8 * m - k - n by omega]
    rw [State.bitsValue, ih (by omega), h.bitValue_eq (by omega), hshift,
      show 8 * m - 1 - (k + n) = 8 * m - k - (n + 1) by omega, Nat.pow_succ', Nat.mod_mul, Nat.add_comm]

/-- A reader at the start, whose offset skips all but the n low bits, reads the number back where it has n bits. -/
theorem State.HoldsNumber.exec_read {n : Nat} (hcount : 1 ≤ n ∧ n ≤ 64) (hx : x < 2 ^ n)
    (hoff : u.rdOff.toNat + n = 8 * m) (hpad : u.rdPad.toNat = 0) (hcur : u.rdCur = 0#64) :
    ∃ v, exec (.read n) u = .next v ∧ v.res = BitVec.ofNat 64 x ∧ v.code = .success := by
  have hcur0 : cur u = 0 := by rw [cur, hcur]; rfl
  have hnext : nextBit u + n = 8 * m := by rw [nextBit, hcur0, Nat.add_zero, hoff]
  have hbounds : (cur u : Int) + n ≤ Spec.total u := by rw [hcur0, Spec.total, h.len, hpad]; omega
  have hbits : bitsFrom u (nextBit u) n = x := by
    rw [bitsFrom_eq, h.bitsValue_eq hnext.le, show 8 * m - nextBit u - n = 0 by omega, Nat.pow_zero, Nat.div_one,
      Nat.mod_eq_of_lt hx]
  refine ⟨_, exec_read_of_bitsReadable hcount hbounds (h.bitsReadable hnext.le), ?_, rfl⟩
  rw [← hbits]
  rfl

end

/-! ### The statements of 41_reader.md -/

/-- Settles O45: the signed halves of ARG0 are the model's, and F[2:0] is a restricted field of R56. -/
theorem rdinitConfiguresTheReader : Obligations.RdinitConfiguresTheReader := by
  refine ⟨fun w hopc hbad => isIllegal_of_not_restrictedLegal fun ⟨_, _, hf, _⟩ => hbad (hf (.inl hopc)), fun e s => ?_⟩
  rw [← s.arg0Low_toNat, ← s.arg0High_toNat, ← s.arg1Low_toNat, sext32_toNat, sext32_toNat]
  refine ⟨opc_eq _, fun hbad => ?_, fun hgood => ?_⟩
  · rw [← raise_eq_reported]
    exact if_pos hbad
  · rw [BitVec.ofInt_toInt, BitVec.ofInt_toInt, BitVec.ofNat_toNat, BitVec.setWidth_eq]
    exact if_neg hgood

/-- Settles O46: the checks in order, then the readable bits as the sum of R104. -/
theorem readReturnsTheStreamBits : Obligations.ReadReturnsTheStreamBits := fun _ _ =>
  ⟨opc_eq _, fun hcount => (exec_read_subrd_of_count .msf hcount).1,
    fun hcount hbounds => (exec_read_subrd_of_bounds .msf hcount hbounds).1, exec_read_of_bitsReadable⟩

/-- Settles O47: the loop from no byte read. -/
theorem rdbytesReadsTheBytes : Obligations.RdbytesReadsTheBytes := by
  intro a s avail m
  refine ⟨opc_eq _, fun hread => ?_⟩
  obtain ⟨o, ho, hrun⟩ := rdbytesLoop_spec a s 0 m rfl ((bitsReadable_iff s _ _).mp hread)
  rw [Nat.zero_add] at hrun
  have hend : ∀ t : State,
      (if m = a then t.succeed else t.raise .bitsCountOutOfBounds (cur s + 8 * m : Nat) 8 (Spec.total s)) =
        if a ≤ avail then succeeded t else reported t .bitsCountOutOfBounds (cur s + 8 * m : Nat) 8 (Spec.total s) :=
    fun t => if_congr min_eq_left_iff rfl (raise_eq_reported ..)
  refine ⟨o, fun x => (ho x).trans (if_congr (by omega) ?_ rfl), hrun.trans (congrArg _ (hend _))⟩
  rw [bitsFrom_eq]
  rfl

/-- Settles O48: the target is not negative where it is inside the stream; F above 2 is a reserved value of R56. -/
theorem seekMovesTheCursor : Obligations.SeekMovesTheCursor := by
  refine ⟨fun w hopc hbad => isIllegal_of_not_restrictedLegal fun ⟨_, _, _, hf⟩ => hbad.not_ge (hf hopc), fun o s => ?_⟩
  intro count f base t
  have hcount : count = s.arg0.toInt := sext64_toNat _
  have hf : f = originNumber o := by cases o <;> rfl
  have ht : t = s.seekTarget o := (congrArg (base + ·) hcount).trans (by cases o <;> rfl)
  rw [hcount, hf, ht]
  refine ⟨opc_eq _, fun hbad => ?_, fun hgood => ?_⟩
  · rw [← raise_eq_reported]
    exact if_pos hbad
  · rw [← BitVec.ofInt_natCast, Int.toNat_of_nonneg (not_lt.mp (not_or.mp hgood).1)]
    exact if_neg hgood

/-- Settles O49: READ's checks; the byte at j is the octet at j's position, and F[2:0] is a restricted field of R56. -/
theorem subrdMaterialisesTheBits : Obligations.SubrdMaterialisesTheBits := by
  refine ⟨fun w hopc hbad => isIllegal_of_not_restrictedLegal fun ⟨_, _, hf, _⟩ => hbad (hf (.inr hopc)),
    fun n e s => ⟨opc_eq _, fun hcount => (exec_read_subrd_of_count e hcount).2,
      fun hcount hbounds => (exec_read_subrd_of_bounds e hcount hbounds).2, fun hcount hbounds hread =>
        ⟨_, fun j => ?_, exec_subrd_of_bitsReadable hcount hbounds hread e⟩⟩⟩
  rw [State.putBytes_read, numberBytes_length]
  refine if_ctx_congr Iff.rfl (fun (hj : j < octetsFor n) => ?_) fun _ => rfl
  have hlow : ∀ y : Nat, BitVec.ofNat 8 (y &&& 0xFF) = BitVec.ofNat 8 y := fun y => by
    rw [Nat.and_two_pow_sub_one_eq_mod y 8]
    exact BitVec.eq_of_toNat_eq (by simp)
  rw [numberBytes_getElem? _ _ _ hj, hlow, Nat.shiftRight_eq_div_pow]
  cases e <;> rfl

/-- Settles O56: TOBYTES writes the bytes of the value, whose 8N bits are all of the stream. -/
theorem tobytesThenReadReturnsTheValue : Obligations.TobytesThenReadReturnsTheValue := by
  intro g s t u hfits hexec hcopy hin hlen hoff hpad hcur hend
  rw [Fits, width_eq] at hfits
  rw [octets_eq] at hcopy hin hlen
  have hobuf : t.obuf = (s.putBytes (s.group g).octetList).obuf := by
    obtain rfl := Host.Outcome.next.inj hexec
    rfl
  rw [Group.octetList_eq] at hobuf
  have hbits : (s.group g).bits = 8 * (s.group g).octets := widthBits_eq _
  obtain ⟨v, hv, hres, hcode⟩ := (State.HoldsNumber.of_putBytes hlen hend hin hcopy hobuf).exec_read
    ⟨(by decide : 1 ≤ 8).trans (widthBits_pos _), widthBits_le _⟩ hfits (by rw [hoff, ← hbits]; exact Nat.zero_add _)
    (by rw [hpad]; rfl) hcur
  refine ⟨v, by rwa [width_eq], ?_, hcode⟩
  rw [hres, BitVec.ofNat_toNat, BitVec.setWidth_eq]

/-- Settles O57: the number SUBRD writes has n bits, and the offset 8m - n skips the others of its m bytes. -/
theorem subrdThenReadReproducesTheBits : Obligations.SubrdThenReadReproducesTheBits := by
  intro n e s t u h1 h64 hbounds hread hexec hcopy hin hlen hoff hpad hcur hend
  have hx : bitsFrom s (nextBit s) n < 2 ^ n := by
    rw [bitsFrom_eq]
    exact s.bitsValue_lt _ _
  obtain rfl := Host.Outcome.next.inj ((exec_subrd_of_bitsReadable ⟨h1, h64⟩ hbounds hread e).symm.trans hexec)
  have hres : (BitVec.ofNat 64 (8 * octetsFor n - n)).toNat = 8 * ((n + 7) / 8) - n := by
    rw [BitVec.toNat_ofNat, octetsFor]
    omega
  have hoff' : u.rdOff.toNat = (BitVec.ofNat 64 (8 * octetsFor n - n)).toNat % 2 ^ 32 := hoff
  have hpad' : u.rdPad.toNat = (BitVec.ofNat 64 (8 * octetsFor n - n)).toNat / 2 ^ 32 := hpad
  rw [hres] at hoff' hpad'
  obtain ⟨w, hw, hwres, _⟩ := (State.HoldsNumber.of_putBytes hlen hend hin hcopy rfl).exec_read ⟨h1, h64⟩ hx
    (by omega) (by omega) hcur
  exact ⟨_, w, exec_read_of_bitsReadable ⟨h1, h64⟩ hbounds hread, hw, hwres⟩

end Sys2Proof.Machine

/-! The CRC engines (42_crc.md). The meanings step over bit vectors and the statements over numbers, so each step is first shown
to be the statements' step; the fold over a slice then follows, and with it the calculate commands. The laws of the table are
proved for every width: its rounds shift a single 1 up to the top bit, and shift everything out where the polynomial is 0. -/

namespace Sys2Proof.Machine

open Sys2Proof.Spec

/-! ### The statements' numbers and the model's -/

theorem crcTableEntry_toNat {w : Nat} (hw : 8 ≤ w) (p : BitVec w) (i : Byte) :
    (crcTableEntry w p i).toNat = crcTable w p.toNat i.toNat := by
  have hlt : i.toNat * 2 ^ (w - 8) < 2 ^ w := by
    rw [show 2 ^ w = 2 ^ 8 * 2 ^ (w - 8) by rw [← Nat.pow_add, Nat.add_sub_cancel' hw]]
    exact Nat.mul_lt_mul_of_pos_right i.isLt (Nat.two_pow_pos _)
  have htop : (i.setWidth w <<< (w - 8)).toNat = i.toNat <<< (w - 8) := by
    rw [BitVec.toNat_shiftLeft, BitVec.toNat_setWidth_of_le hw, Nat.shiftLeft_eq, Nat.mod_eq_of_lt hlt]
  rw [crcTableEntry, crcRounds_toNat w (by omega), htop]
  rfl

theorem crc8Step_toNat (p r : BitVec 8) (b : Byte) :
    (crc8Step p r b).toNat = Spec.crc8Step p.toNat r.toNat b.toNat := by
  rw [crc8Step, crcTableEntry_toNat le_rfl, BitVec.toNat_xor, Spec.crc8Step]

theorem crc16Step_toNat (p r : BitVec 16) (b : Byte) :
    (crc16Step p r b).toNat = Spec.crc16Step p.toNat r.toNat b.toNat := by
  have hhigh : ((r >>> 8).setWidth 8).toNat = r.toNat >>> 8 := by
    rw [BitVec.toNat_setWidth, BitVec.toNat_ushiftRight, Nat.shiftRight_eq_div_pow]
    have := r.isLt
    omega
  rw [crc16Step, BitVec.toNat_xor, crcTableEntry_toNat (by decide), BitVec.toNat_xor, hhigh, BitVec.toNat_shiftLeft,
    Spec.crc16Step, Nat.and_two_pow_sub_one_eq_mod _ 16]

/-- The fold of a step that computes a step on numbers is the fold of the numbers (R115). -/
theorem foldBytes_slice_toNat {w : Nat} {stepper : BitVec w → Byte → BitVec w} {number : Nat → Nat → Nat}
    (h : ∀ r b, (stepper r b).toNat = number r.toNat b.toNat) (s : State) (r : BitVec w) (start len : Nat) :
    (foldBytes stepper r (s.slice start len)).toNat = crcFold s number r.toNat start len := by
  rw [foldBytes_eq_foldl, State.slice, List.foldl_map, crcFold]
  exact (List.foldl_hom BitVec.toNat fun r j => (h r (s.ibufContent (start + j))).symm).symm

theorem extractLow_toNat (n : Nat) (v : Word) : (v.extractLsb' 0 n).toNat = v.toNat % 2 ^ n := by
  rw [BitVec.extractLsb'_toNat, Nat.shiftRight_zero]

theorem extractLow_setWidth {w : Nat} (hw : w ≤ 64) (r : BitVec w) : (r.setWidth 64).extractLsb' 0 w = r := by
  apply BitVec.eq_of_toNat_eq
  rw [extractLow_toNat, BitVec.toNat_setWidth_of_le hw, Nat.mod_eq_of_lt r.isLt]

theorem next_setRes_setWidth {w : Nat} (hw : w ≤ 64) {s : State} {r : BitVec w} {n : Nat} (h : r.toNat = n) :
    (.next (s.setRes (r.setWidth 64)).succeed : Host.Outcome State Fault Refusal) =
      .next (succeeded { s with res := BitVec.ofNat 64 n }) :=
  next_setRes ((BitVec.toNat_setWidth_of_le hw).trans h)

/-- The halves of a word put together from two 32-bit numbers. -/
theorem halves_toNat {low high : Nat} (hlow : low < 2 ^ 32) (hhigh : high < 2 ^ 32) :
    (BitVec.ofNat 64 (high * 2 ^ 32 + low)).toNat % 2 ^ 32 = low ∧
      (BitVec.ofNat 64 (high * 2 ^ 32 + low)).toNat / 2 ^ 32 = high := by
  rw [BitVec.toNat_ofNat]
  omega

/-! ### How a calculate command ends -/

theorem crcCalc_of_outside {w : Nat} {s : State} (stepper : BitVec w → Byte → BitVec w) (init : BitVec w)
    (h : s.params.ibufBytes < arg0Low s + arg0High s) :
    s.crcCalc stepper init =
      .next (reported s .bufferRangeOutOfBounds (arg0Low s) (arg0High s) s.params.ibufBytes) := by
  rw [← raise_eq_reported]
  rw [← s.arg0Low_toNat, ← s.arg0High_toNat] at h ⊢
  exact if_pos h

theorem crcCalc_of_readable {w : Nat} {s : State} {start len : Nat} (stepper : BitVec w → Byte → BitVec w)
    (init : BitVec w) (hstart : arg0Low s = start) (hlen : arg0High s = len)
    (hle : start + len ≤ s.params.ibufBytes) (hread : ∀ j, j < len → s.Readable (start + j)) :
    s.crcCalc stepper init = .next (s.setRes ((foldBytes stepper init (s.slice start len)).setWidth 64)).succeed := by
  rw [← s.arg0Low_toNat] at hstart
  rw [← s.arg0High_toNat] at hlen
  simp only [State.crcCalc, hstart, hlen, if_neg hle.not_gt, s.crcFold_of_readable stepper len init start hread]

/-- The calculate commands in numbers, for a step that computes a step on numbers. -/
theorem crcCalc_eq_crcFold {w : Nat} (hw : w ≤ 64) {s : State} {stepper : BitVec w → Byte → BitVec w}
    {number : Nat → Nat → Nat} (h : ∀ r b, (stepper r b).toNat = number r.toNat b.toNat)
    (hle : arg0Low s + arg0High s ≤ s.params.ibufBytes)
    (hread : ∀ j, j < arg0High s → s.Readable (arg0Low s + j)) :
    s.crcCalc stepper (s.arg1.extractLsb' 0 w) = .next (succeeded { s with
      res := BitVec.ofNat 64 (crcFold s number (s.arg1.toNat % 2 ^ w) (arg0Low s) (arg0High s)) }) := by
  rw [crcCalc_of_readable _ _ rfl rfl hle hread]
  refine next_setRes_setWidth hw ?_
  rw [foldBytes_slice_toNat h, extractLow_toNat]

/-- A fold whose initial value is the low bits of the RES of another over the slice before it. -/
theorem foldBytes_slice_chain {w : Nat} (hw : w ≤ 64) (stepper : BitVec w → Byte → BitVec w) (s : State)
    (init : BitVec w) (start k l : Nat) :
    foldBytes stepper (((foldBytes stepper init (s.slice start k)).setWidth 64).extractLsb' 0 w)
        (s.slice (start + k) l) = foldBytes stepper init (s.slice start (k + l)) := by
  rw [extractLow_setWidth hw, s.slice_add, foldBytes_append]

/-- The command i folds a step that depends on the polynomials alone, from the low bits of ARG1 on. -/
def CalculatesWith {w : Nat} (i : Instr) (step : BitVec 8 → BitVec 16 → BitVec w → Byte → BitVec w) : Prop :=
  ∀ s, exec i s = s.crcCalc (step s.crc8Poly s.crc16Poly) (s.arg1.extractLsb' 0 w)

theorem calculatesWith_c8calc : CalculatesWith .c8calc fun p8 _ => crc8Step p8 := fun _ => rfl

theorem calculatesWith_c16calc : CalculatesWith .c16calc fun _ p16 => crc16Step p16 := fun _ => rfl

/-- Two calculations over adjacent slices, the second from the first one's RES, and one over both (R115). The values of ARG0 are
given by their halves. -/
theorem CalculatesWith.chain {w : Nat} {i : Instr} {step : BitVec 8 → BitVec 16 → BitVec w → Byte → BitVec w}
    (hstep : CalculatesWith i step) (hw : w ≤ 64) {s t : State} {k l : Nat} {second whole : Word}
    (hk : arg0High s = k) (hle : arg0Low s + k + l ≤ s.params.ibufBytes)
    (hread : ∀ j, j < k + l → s.Readable (arg0Low s + j)) (hexec : exec i s = .next t)
    (hsecond : second.toNat % 2 ^ 32 = arg0Low s + k ∧ second.toNat / 2 ^ 32 = l)
    (hwhole : whole.toNat % 2 ^ 32 = arg0Low s ∧ whole.toNat / 2 ^ 32 = k + l) :
    ∃ u v, exec i { t with arg0 := second, arg1 := t.res } = .next u ∧ exec i { s with arg0 := whole } = .next v ∧
      u.res = v.res := by
  have hfirst := (hstep s).trans (crcCalc_of_readable _ _ rfl hk (by omega) fun j hj => hread j (by omega))
  obtain rfl := Host.Outcome.next.inj (hfirst.symm.trans hexec)
  have hrest : ∀ j, j < l → s.Readable (arg0Low s + k + j) := fun j hj => by
    rw [Nat.add_assoc]
    exact hread _ (by omega)
  exact ⟨_, _, (hstep _).trans (crcCalc_of_readable _ _ hsecond.1 hsecond.2 hle hrest),
    (hstep _).trans (crcCalc_of_readable _ _ hwhole.1 hwhole.2 (Nat.add_assoc .. ▸ hle) hread),
    congrArg (BitVec.setWidth 64) (foldBytes_slice_chain hw _ s _ _ k l)⟩

/-! ### The table's rounds on a single bit and with polynomial 0 (R112) -/

theorem crcRounds_zero (w : Nat) (p : BitVec w) (k : Nat) : crcRounds w p 0#w k = 0#w := by
  induction k with
  | zero => rfl
  | succ k ih => simp [crcRounds, ih, crcRound]

theorem crcRounds_polynomial_zero (w : Nat) (c : BitVec w) (k : Nat) : crcRounds w 0#w c k = c <<< k := by
  induction k with
  | zero => simp [crcRounds]
  | succ k ih => rw [crcRounds, ih, crcRound, BitVec.xor_zero, ite_self, BitVec.shiftLeft_add]

/-- A 1 below the top bit is shifted up. -/
theorem crcRounds_one_shiftLeft {w : Nat} (p : BitVec w) {a k : Nat} (h : a + k < w) :
    crcRounds w p (1#w <<< a) k = 1#w <<< (a + k) := by
  induction k with
  | zero => rfl
  | succ k ih =>
    have hmsb : (1#w <<< (a + k)).msb = false := by
      rw [← BitVec.twoPow_eq, BitVec.msb_twoPow, decide_eq_false (show ¬ a + k = w - 1 by omega), Bool.and_false]
    rw [crcRounds, ih (by omega), crcRound, hmsb, if_neg Bool.false_ne_true, ← BitVec.shiftLeft_add, Nat.add_assoc]

/-- A 1 shifted out of the top bit leaves the polynomial. -/
theorem crcRound_one_at_top {w : Nat} (hw : 0 < w) (p : BitVec w) : crcRound w p (1#w <<< (w - 1)) = p := by
  have hmsb : (1#w <<< (w - 1)).msb = true := by
    rw [← BitVec.twoPow_eq, BitVec.msb_twoPow, decide_eq_true rfl, decide_eq_true (by omega), Bool.and_self]
  rw [crcRound, if_pos hmsb, ← BitVec.shiftLeft_add, Nat.sub_add_cancel hw, BitVec.shiftLeft_eq_zero le_rfl,
    BitVec.zero_xor]

theorem crcTableEntry_zero (w : Nat) (p : BitVec w) : crcTableEntry w p 0#8 = 0#w := by
  rw [crcTableEntry, BitVec.setWidth_zero, BitVec.zero_shiftLeft, crcRounds_zero]

theorem crcTableEntry_one {w : Nat} (hw : 8 ≤ w) (p : BitVec w) : crcTableEntry w p 1#8 = p := by
  have hone : (1#8).setWidth w = 1#w := by
    apply BitVec.eq_of_toNat_eq
    rw [BitVec.toNat_setWidth_of_le hw, BitVec.toNat_one (show 0 < w by omega), BitVec.toNat_one (by decide)]
  rw [crcTableEntry, hone, crcRounds, crcRounds_one_shiftLeft p (by omega), show w - 8 + 7 = w - 1 by omega,
    crcRound_one_at_top (by omega)]

theorem crcTableEntry_polynomial_zero {w : Nat} (hw : 8 ≤ w) (i : Byte) : crcTableEntry w 0#w i = 0#w := by
  rw [crcTableEntry, crcRounds_polynomial_zero, ← BitVec.shiftLeft_add, Nat.sub_add_cancel hw,
    BitVec.shiftLeft_eq_zero le_rfl]

/-! ### The CRC-8 check value (R125) -/

/-- The round as an equation: a rewrite with it reduces c before the two cases copy it. -/
theorem crcRound_eq_ite {w : Nat} (p c : BitVec w) :
    crcRound w p c = if c.msb then (c <<< 1) ^^^ p else c <<< 1 := rfl

theorem crc8_of_checkBytes :
    foldBytes (crc8Step 0x07#8) 0x00#8 ((List.range 9).map fun j => BitVec.ofNat 8 (0x31 + j)) = 0xF4#8 := by
  simp [List.range_succ, foldBytes, crc8Step, crcTableEntry, crcRounds, crcRound_eq_ite, BitVec.msb_eq_decide]

/-! ### The statements of 42_crc.md -/

/-- Settles O50: the low bits of ARG0 are its value modulo 2 to the polynomial's width. -/
theorem polyCommandsSetThePolynomials : Obligations.PolyCommandsSetThePolynomials :=
  fun _ => ⟨opc_eq _, opc_eq _, rfl, rfl⟩

/-- Settles O51: outside the slice the range error, inside it the fold of each command's step. -/
theorem calcCommandsFoldTheSlice : Obligations.CalcCommandsFoldTheSlice := fun s =>
  ⟨opc_eq _, opc_eq _, fun hout => ⟨crcCalc_of_outside _ _ hout, crcCalc_of_outside _ _ hout⟩, fun hle hread =>
    ⟨crcCalc_eq_crcFold (by decide) (crc8Step_toNat s.crc8Poly) hle hread,
      crcCalc_eq_crcFold (by decide) (crc16Step_toNat s.crc16Poly) hle hread⟩⟩

/-- Settles O52: the step of each width on numbers, from the low bits of RES. -/
theorem updCommandsFoldOneByte : Obligations.UpdCommandsFoldOneByte := by
  refine fun b s => ⟨opc_eq _, opc_eq _, next_setRes_setWidth (by decide) ?_, next_setRes_setWidth (by decide) ?_⟩
  · rw [crc8Step_toNat, extractLow_toNat]
  · rw [crc16Step_toNat, extractLow_toNat]

/-- Settles O53: the eight rounds on numbers. -/
theorem tblCommandsReadTheTable : Obligations.TblCommandsReadTheTable := fun i _ =>
  ⟨opc_eq _, opc_eq _, next_setRes_setWidth (by decide) (crcTableEntry_toNat (by decide) _ i),
    next_setRes_setWidth (by decide) (crcTableEntry_toNat (by decide) _ i)⟩

/-- Settles O58: the slices are adjacent, and folding is associative over concatenation (R115). -/
theorem calcChainsOverConsecutiveSlices : Obligations.CalcChainsOverConsecutiveSlices := by
  rintro i s t _ _ k l hi hk hle hread hexec rfl rfl hsplit hlen
  obtain ⟨w, step, hw, hstep⟩ : ∃ w, ∃ step : BitVec 8 → BitVec 16 → BitVec w → Byte → BitVec w,
      w ≤ 64 ∧ CalculatesWith i step := by
    rcases hi with rfl | rfl
    · exact ⟨8, _, by decide, calculatesWith_c8calc⟩
    · exact ⟨16, _, by decide, calculatesWith_c16calc⟩
  have hlow : arg0Low s < 2 ^ 32 := Nat.mod_lt _ (by decide)
  exact hstep.chain hw hk hle hread hexec (halves_toNat hsplit (by omega)) (halves_toNat hlow hlen)

/-- Settles O59: the rounds on no bit, on a single bit, and with polynomial 0. -/
theorem tableEntriesZeroAndOne : Obligations.TableEntriesZeroAndOne :=
  ⟨fun p => ⟨crcTableEntry_zero _ p, crcTableEntry_one (by decide) p⟩,
    fun p => ⟨crcTableEntry_zero _ p, crcTableEntry_one (by decide) p⟩,
    fun i => ⟨crcTableEntry_polynomial_zero (by decide) i, crcTableEntry_polynomial_zero (by decide) i⟩⟩


/-- Settles O60: C8CALC by its fold over the slice, the CRC-16 runs evaluated. -/
theorem crcCheckValues : Obligations.CrcCheckValues := by
  refine ⟨?_, by decide, by decide, by decide⟩
  rw [calculatesWith_c8calc, crcCalc_of_readable _ _ (start := 0) (len := 9) rfl rfl (by decide) (by decide)]
  exact congrArg (fun r : BitVec 8 => some (r.setWidth 64)) crc8_of_checkBytes

end Sys2Proof.Machine

/-! The control command (43_control.md). A word with OPC 0x00 that is a command is NOP, and a command's word is its own
encoding, so no other such word is a command. -/

namespace Sys2Proof.Machine

open Sys2Proof.Spec

/-- NOP uses no field beside OPC (30_encoding.md R63). -/
theorem commandOf_of_opc_eq_zero {x : Fields} (h : x.opc = 0x00#8) : commandOf x = some .nop := by
  simp only [commandOf, h]

theorem encode_nop : encode .nop = 0x00000000#32 := by decide

/-- Only NOP's own word, among the words with OPC 0x00, is a command word (R126). -/
theorem eq_zero_of_isCommandWord_of_wordOpc {w : CmdWord} (hw : IsCommandWord w) (hopc : wordOpc w = 0x00) :
    w = 0x00000000#32 := by
  obtain ⟨i, hi⟩ := (exists_decode_eq_command_iff w).mpr hw
  obtain ⟨_, _, _, hcommand⟩ := decode_eq_command_iff.mp hi
  have hfield : (fieldsOf w).opc = 0x00#8 := BitVec.eq_of_toNat_eq ((fieldsOf_opc_toNat w).trans hopc)
  obtain rfl : .nop = i := Option.some.inj ((commandOf_of_opc_eq_zero hfield).symm.trans hcommand)
  obtain ⟨hencode, _⟩ := encodeOfDecodeIsTheWord w _ hi
  exact hencode.symm.trans encode_nop

/-! ### The statement of 43_control.md -/

/-- Settles O26: NOP is the one command with OPC 0x00, and it succeeds without a write. -/
theorem nopOnlyClearsTheCode : Obligations.NopOnlyClearsTheCode :=
  ⟨encode_nop, fun _ hopc hne =>
    isIllegal_of_not_isCommandWord fun hw => hne (eq_zero_of_isCommandWord_of_wordOpc hw hopc), fun _ => rfl⟩

end Sys2Proof.Machine

/-! How a command ends with an error (60_exceptions.md). `exec_ends` says what an end keeps, and `Raises` is the column "raised
by" of R130: `exec_endsWithCode` shows that a command reports no error but its own. -/

namespace Sys2Proof.Machine

open Sys2Proof.Spec

/-! ### The error report over commands and steps (R131, R132, R135) -/

theorem Succeeds.code_eq {s t : State} (h : Succeeds s t) : t.code = .success := by
  obtain ⟨u, rfl, _⟩ := h
  rfl

theorem Reports.code_ne {i : Instr} {s t : State} (h : Reports i s t) : t.code ≠ .success := by
  obtain ⟨u, n, a, b, c, hn, rfl, _⟩ := h
  exact hn

theorem Succeeds.errSeen_eq {s t : State} (h : Succeeds s t) : t.errSeen = s.errSeen := by
  obtain ⟨u, rfl, hseen, _⟩ := h
  exact hseen

theorem Reports.errSeen_eq {i : Instr} {s t : State} (h : Reports i s t) : t.errSeen = true := by
  obtain ⟨u, n, a, b, c, _, rfl, _⟩ := h
  rfl

theorem exec_errSeen {i : Instr} {s t : State} (h : exec i s = .next t) :
    t.errSeen = (s.errSeen || decide (t.code ≠ .success)) := by
  obtain hok | herr := exec_ends i s t h
  · simp [hok.errSeen_eq, hok.code_eq]
  · simp [herr.errSeen_eq, herr.code_ne]

theorem runCommand_errSeen {w : CmdWord} {s t : State} (h : runCommand w s = .next t) :
    t.errSeen = (s.errSeen || decide (t.code ≠ .success)) := by
  obtain ⟨i, _, hex⟩ | ⟨_, _, rfl⟩ := runCommand_cases w s t h
  · exact exec_errSeen hex
  · simp

theorem State.hostStore_errSeen (s : State) (d : Word) (tg : Target) : (s.hostStore d tg).errSeen = s.errSeen := by
  rw [State.hostStore_eq]

/-- Of the actions, only a reset clears ERRSEEN. -/
theorem perform_errSeen {act : HostAction} {s t : State} (h : perform act s = .next t) (hact : act ≠ .reset)
    (hs : s.errSeen = true) : t.errSeen = true := by
  obtain ⟨w, hrun⟩ | ⟨d, tg, rfl⟩ | ⟨v, rfl⟩ | ⟨hreset, _⟩ := perform_cases act s t h
  · rw [runCommand_errSeen hrun, hs, Bool.true_or]
  · rw [State.hostStore_errSeen, hs]
  · exact hs
  · exact absurd hreset hact

/-! ### Which command raises which error (R130) -/

/-- The column "raised by" of R130, for the errors of commands; IllegalCommand is raised by no command. -/
def Raises (i : Instr) : Code → Prop
  | .success | .illegalCommand => False
  | .invalidInitialConditions => ∃ e, i = .rdinit e
  | .invalidBitCount => (∃ n, i = .read n) ∨ (∃ n e, i = .subrd n e) ∨ ∃ o, i = .seek o
  | .bitsCountOutOfBounds => (∃ n, i = .read n) ∨ (∃ n e, i = .subrd n e) ∨ ∃ n, i = .rdbytes n
  | .indexOutOfBounds => (∃ g x, i = .getb g x) ∨ (∃ g x b, i = .setb g x b) ∨ (∃ g x, i = .flip g x) ∨
      (∃ g x, i = .geto g x) ∨ ∃ g x b, i = .seto g x b
  | .indexRangeOutOfBounds => (∃ g h x y, i = .extr g h x y) ∨ (∃ g x y, i = .getr g x y) ∨ ∃ g x y, i = .setr g x y
  | .countOutOfBounds => (∃ g x, i = .shl g x) ∨ ∃ g x, i = .shr g x
  | .bufferRangeOutOfBounds => i = .c8calc ∨ i = .c16calc

/-- The outcomes of the command i: success, an error that i raises, or a fault. -/
inductive EndsWithCode (i : Instr) : Host.Outcome State Fault Refusal → Prop
  | succeed {u : State} : EndsWithCode i (.next u.succeed)
  | raise {u : State} {name : Code} {a b c : Int} : Raises i name → EndsWithCode i (.next (u.raise name a b c))
  | fault {f : Fault} : EndsWithCode i (.fault f)

theorem EndsWithCode.ite {i : Instr} {p : Prop} [Decidable p] {x y : Host.Outcome State Fault Refusal}
    (hx : EndsWithCode i x) (hy : EndsWithCode i y) : EndsWithCode i (if p then x else y) := by
  split
  · exact hx
  · exact hy

theorem EndsWithCode.code {i : Instr} {t : State} (h : EndsWithCode i (.next t)) :
    t.code = .success ∨ Raises i t.code := by
  cases h with
  | succeed => exact .inl rfl
  | raise hi => exact .inr hi

/-- The check that READ and SUBRD share raises its two errors (R107, R110). -/
theorem endsWithCode_of_bitCountError {i : Instr} {s t : State} {n : Nat} (hcount : Raises i .invalidBitCount)
    (hbounds : Raises i .bitsCountOutOfBounds) (h : s.bitCountError n = some t) : EndsWithCode i (.next t) := by
  obtain ⟨_, hb⟩ | ⟨_, _, _, hb⟩ | ⟨_, _, _, hb⟩ := s.bitCountError_cases n <;> rw [hb] at h <;> cases h
  · exact .raise hcount
  · exact .raise hbounds

theorem endsWithCode_read (n : Nat) (s : State) : EndsWithCode (.read n) (execRead n s) := by
  obtain ⟨t, ht, hx⟩ | ⟨_, ⟨f, _, hx⟩ | ⟨x, _, hx⟩⟩ := execRead_cases n s <;> rw [hx]
  · exact endsWithCode_of_bitCountError (.inl ⟨n, rfl⟩) (.inl ⟨n, rfl⟩) ht
  · exact .fault
  · exact .succeed

theorem endsWithCode_subrd (n : Nat) (e : Endian) (s : State) : EndsWithCode (.subrd n e) (execSubrd n e s) := by
  obtain ⟨t, ht, hx⟩ | ⟨_, ⟨f, _, hx⟩ | ⟨x, _, hx⟩⟩ := execSubrd_cases n e s <;> rw [hx]
  · exact endsWithCode_of_bitCountError (.inr (.inl ⟨n, e, rfl⟩)) (.inr (.inl ⟨n, e, rfl⟩)) ht
  · exact .fault
  · exact .succeed

theorem endsWithCode_rdbytes (n : Nat) (s : State) : EndsWithCode (.rdbytes n) (execRdbytes n s) := by
  obtain ⟨f, _, hx, _⟩ | ⟨o, m, _, _, _, _, hx⟩ := rdbytesLoop_cases n s 0 <;> rw [execRdbytes, hx]
  · exact .fault
  · dsimp only
    split
    · exact .succeed
    · exact .raise (.inr (.inr ⟨n, rfl⟩))

theorem endsWithCode_crcCalc {w : Nat} {i : Instr} (s : State) (stepper : BitVec w → Byte → BitVec w) (init : BitVec w)
    (hi : Raises i .bufferRangeOutOfBounds) : EndsWithCode i (s.crcCalc stepper init) := by
  obtain ⟨_, hx⟩ | ⟨_, ⟨f, _, _, _, hx⟩ | ⟨r, _, hx⟩⟩ := s.crcCalc_cases stepper init <;> rw [hx]
  · exact .raise hi
  · exact .fault
  · exact .succeed

/-- A command reports no error but those R130 lists for it. -/
theorem exec_endsWithCode (i : Instr) (s : State) : EndsWithCode i (exec i s) := by
  cases i with
  | rdinit e => exact .ite (.raise ⟨e, rfl⟩) .succeed
  | read n => exact endsWithCode_read n s
  | subrd n e => exact endsWithCode_subrd n e s
  | rdbytes n => exact endsWithCode_rdbytes n s
  | seek o => exact .ite (.raise (.inr (.inr ⟨o, rfl⟩))) .succeed
  | getb g x => exact .ite .succeed (.raise (.inl ⟨g, x, rfl⟩))
  | setb g x b => exact .ite .succeed (.raise (.inr (.inl ⟨g, x, b, rfl⟩)))
  | flip g x => exact .ite .succeed (.raise (.inr (.inr (.inl ⟨g, x, rfl⟩))))
  | geto g x => exact .ite .succeed (.raise (.inr (.inr (.inr (.inl ⟨g, x, rfl⟩)))))
  | seto g x b => exact .ite .succeed (.raise (.inr (.inr (.inr (.inr ⟨g, x, b, rfl⟩)))))
  | extr g h x y => exact .ite .succeed (.raise (.inl ⟨g, h, x, y, rfl⟩))
  | getr g x y => exact .ite .succeed (.raise (.inr (.inl ⟨g, x, y, rfl⟩)))
  | setr g x y => exact .ite .succeed (.raise (.inr (.inr ⟨g, x, y, rfl⟩)))
  | shl g x => exact .ite .succeed (.raise (.inl ⟨g, x, rfl⟩))
  | shr g x => exact .ite .succeed (.raise (.inr ⟨g, x, rfl⟩))
  | c8calc => exact endsWithCode_crcCalc s _ _ (.inl rfl)
  | c16calc => exact endsWithCode_crcCalc s _ _ (.inr rfl)
  | _ => exact .succeed

/-- The column "raised by" of R130 for command words: IllegalCommand comes from the words that are no command. -/
def RaisedByWord (w : CmdWord) : Code → Prop
  | .success => True
  | .illegalCommand => ∃ why, decode w = .illegal why
  | name => ∃ i, decode w = .command i ∧ Raises i name

theorem Raises.raisedByWord {i : Instr} {w : CmdWord} {name : Code} (h : Raises i name) (hi : decode w = .command i) :
    RaisedByWord w name := by
  cases name with
  | success | illegalCommand => exact h.elim
  | _ => exact ⟨i, hi, h⟩

theorem runCommand_raisedByWord {w : CmdWord} {s t : State} (h : runCommand w s = .next t) : RaisedByWord w t.code := by
  obtain ⟨i, hi, hex⟩ | ⟨why, hwhy, rfl⟩ := runCommand_cases w s t h
  · have hends : EndsWithCode i (.next t) := hex ▸ exec_endsWithCode i s
    obtain hok | herr := hends.code
    · rw [hok]; trivial
    · exact herr.raisedByWord hi
  · exact ⟨why, hwhy⟩

/-! ### The CODE the host reads -/

theorem codeValue_le (c : Code) : codeValue c ≤ 8 := by cases c <;> decide

theorem codeValue_injective : Function.Injective codeValue := by
  intro c d h
  cases c <;> cases d <;> cases h <;> rfl

/-- ERRSEEN and BUSY lie above CODE in STATUS (10_state.md R19). -/
theorem statusCode_eq (s : State) : statusCode s = codeValue s.code := by
  have hle := codeValue_le s.code
  rw [statusCode, State.readRegister, State.statusWord_eq, BitVec.toNat_ofNat]
  split <;> omega

/-! ### The statements of 60_exceptions.md -/

/-- Settles O20: of the two ends of a command, CODE 0 is the success, and it keeps the error report. -/
theorem successKeepsTheErrorReport : Obligations.SuccessKeepsTheErrorReport := by
  intro s t i h hcode
  obtain ⟨u, rfl, hseen, hA, hB, hC, _⟩ | herr := exec_ends i s t h
  · exact ⟨hseen, hA, hB, hC⟩
  · exact absurd hcode herr.code_ne

/-- Settles O21: an error is reported on the state before the command, or on what RDBYTES keeps of its progress. -/
theorem errorsChangeNothingElse : Obligations.ErrorsChangeNothingElse := by
  intro s t i h hcode
  obtain hok | ⟨u, n, a, b, c, _, rfl, hu⟩ := exec_ends i s t h
  · exact absurd hok.code_eq hcode
  · obtain ⟨rfl, _⟩ | ⟨⟨size, hsize⟩, o, l, r, rfl⟩ := hu
    · exact ⟨rfl, fun _ => rfl, rfl⟩
    · exact ⟨rfl, fun hne => absurd hsize (hne size), rfl⟩

/-- Settles O22: no action but a reset clears ERRSEEN, and a command word sets it exactly with an error. -/
theorem errseenIsSticky : Obligations.ErrseenIsSticky := by
  refine ⟨fun s t hstep hreset hs => ?_, fun s t w => runCommand_errSeen⟩
  obtain ⟨_, rfl⟩ | ⟨act, rest, hp, hact⟩ := step_cases s t hstep
  · exact hs
  · exact perform_errSeen hact (fun h => hreset rest (h ▸ hp)) hs

/-- Settles O23: the number the host reads names the code, and the code names the words that raise it. -/
theorem eachCodeIsRaisedByItsCommands : Obligations.EachCodeIsRaisedByItsCommands := by
  intro s t w h
  have hraised : ∀ c, statusCode t = codeValue c → RaisedByWord w c := fun c hc =>
    codeValue_injective ((statusCode_eq t).symm.trans hc) ▸ runCommand_raisedByWord h
  refine ⟨hraised .illegalCommand, fun hc => ?_, hraised .invalidBitCount, hraised .bitsCountOutOfBounds,
    hraised .indexOutOfBounds, hraised .indexRangeOutOfBounds, hraised .countOutOfBounds, fun hc => ?_, ?_,
    statusCode_eq t⟩
  · obtain ⟨_, hi, e, rfl⟩ := hraised .invalidInitialConditions hc
    exact ⟨e, hi⟩
  · obtain ⟨_, hi, rfl | rfl⟩ := hraised .bufferRangeOutOfBounds hc
    · exact .inl hi
    · exact .inr hi
  · rw [statusCode_eq]
    exact codeValue_le t.code

end Sys2Proof.Machine

/-! Reset and hazards (70_reset_and_hazards.md). Completion is `exec_endsIn` where no IBUF byte can fault. A reader whose stream
is empty refuses every read and every other seek target (R147); a reset leaves such a reader. -/

namespace Sys2Proof.Machine

open Sys2Proof.Spec

/-! ### Completion under the treatment `anyValue` (R153) -/

theorem State.not_faultsAt_of_anyValue {s : State} (hu : s.params.unwritten = .anyValue) (a : Nat) : ¬ s.FaultsAt a :=
  fun ha => nomatch hu.symm.trans ha.treatment

theorem exec_completes {s : State} (hs : s.Inv) (hu : s.params.unwritten = .anyValue) (i : Instr) :
    ∃ t, exec i s = .next t := by
  have hends := exec_endsIn hs i
  generalize exec i s = o at hends ⊢
  cases hends with
  | next t => exact ⟨t, rfl⟩
  | fault a _ ha => exact absurd ha (State.not_faultsAt_of_anyValue hu a)

/-- A word that is no command ends with its report, whatever the state (R56). -/
theorem runCommand_completes {s : State} (hexec : ∀ i, ∃ t, exec i s = .next t) (w : CmdWord) :
    ∃ t, runCommand w s = .next t := by
  cases hw : decode w with
  | command i => rw [runCommand_of_decode hw]; exact hexec i
  | illegal why => exact ⟨_, by rw [runCommand, hw]⟩

/-! ### A reader whose stream is empty (R147) -/

/-- The stream has no bit, and the cursor stands at its start. -/
structure State.ReaderEmpty (s : State) : Prop where
  total : Spec.total s = 0
  cursor : cur s = 0

section
variable {s : State} (h : s.ReaderEmpty)
include h

/-- No bit is left to read, so that any count is out of bounds. -/
theorem State.ReaderEmpty.total_lt {n : Nat} (hn : 1 ≤ n) : Spec.total s < (cur s : Int) + n := by
  rw [h.total, h.cursor]
  omega

theorem State.ReaderEmpty.exec_read_subrd {n : Nat} (e : Endian) (hcount : 1 ≤ n ∧ n ≤ 64) :
    exec (.read n) s = .next (reported s .bitsCountOutOfBounds 0 n 0) ∧
      exec (.subrd n e) s = .next (reported s .bitsCountOutOfBounds 0 n 0) := by
  have hbounds := exec_read_subrd_of_bounds e hcount (h.total_lt hcount.1)
  rwa [h.total, h.cursor] at hbounds

/-- RDBYTES fails before its first byte, with OLEN 0 (R108). -/
theorem State.ReaderEmpty.exec_rdbytes {n : Nat} (hn : 1 ≤ n) :
    exec (.rdbytes n) s = .next (reported (s.setOlen 0) .bitsCountOutOfBounds 0 8 0) := by
  obtain ⟨left, rfl⟩ := Nat.exists_eq_add_of_le' hn
  have hloop : exec (.rdbytes (left + 1)) s =
      .next ((s.setOlen 0).raise .bitsCountOutOfBounds (cur s) 8 (Spec.total s)) :=
    if_pos (h.total_lt (n := 8) (by decide))
  rw [hloop, raise_eq_reported, h.total, h.cursor]
  rfl

/-- Every origin of SEEK is position 0. -/
theorem State.ReaderEmpty.seekTarget_eq (o : SeekOrigin) : s.seekTarget o = s.arg0.toInt := by
  have htotal : s.rdTotal = 0 := h.total
  have hcur : s.rdCur.toNat = 0 := h.cursor
  cases o <;> simp [State.seekTarget, htotal, hcur]

end

/-- SEEK succeeds exactly inside the stream, its end included (R109). -/
theorem exec_seek_succeeds_iff (s : State) (o : SeekOrigin) :
    (∃ t, exec (.seek o) s = .next t ∧ t.code = .success) ↔ 0 ≤ s.seekTarget o ∧ s.seekTarget o ≤ Spec.total s := by
  rw [← not_lt, ← not_lt, ← not_or]
  constructor
  · rintro ⟨t, ht, hcode⟩ hbad
    obtain rfl := Host.Outcome.next.inj ((if_pos hbad).symm.trans ht)
    cases hcode
  · exact fun hgood => ⟨_, if_neg hgood, rfl⟩

theorem State.ReaderEmpty.seek_succeeds_iff {s : State} (h : s.ReaderEmpty) (o : SeekOrigin) :
    (∃ t, exec (.seek o) s = .next t ∧ t.code = .success) ↔ s.arg0 = 0#64 := by
  rw [exec_seek_succeeds_iff, h.seekTarget_eq, h.total, ← BitVec.toInt_inj, BitVec.toInt_zero]
  omega

/-- The reader after a reset (R34), which the host's writes of ARG0, ARG1 and IBUF leave alone. -/
theorem State.readerEmpty_platformReset (s : State) (x y : Word) (m : Memory) :
    ({ s.platformReset with arg0 := x, arg1 := y, ibuf := m } : State).ReaderEmpty := ⟨rfl, rfl⟩

/-! ### The statements of 70_reset_and_hazards.md -/

/-- Settles O18: under `anyValue` no IBUF byte faults, which is the only other end of a command. -/
theorem everyCommandCompletes : Obligations.EveryCommandCompletes := fun _ hs hu =>
  ⟨exec_completes hs hu, runCommand_completes (exec_completes hs hu)⟩

/-- Settles O14: the reader after a reset is empty, and the calculate commands take the reset polynomials. -/
theorem readerIsEmptyAfterReset : Obligations.ReaderIsEmptyAfterReset := by
  intro s0 x y m n e o s start len
  have hempty : s.ReaderEmpty := s0.readerEmpty_platformReset x y m
  exact ⟨exec_read_subrd_of_count e, hempty.exec_read_subrd e, hempty.exec_rdbytes, hempty.seek_succeeds_iff o,
    fun r => by cases r <;> rfl, rfl, rfl, fun hle hread =>
      ⟨crcCalc_eq_crcFold (by decide) (crc8Step_toNat 0x07#8) hle hread,
        crcCalc_eq_crcFold (by decide) (crc16Step_toNat 0x1021#16) hle hread⟩⟩

end Sys2Proof.Machine
